-- ==== Sys2Proof/Word.lean ====
section
/-! DEFINITION. The words of the machine: bytes and the wider unsigned words of R9. -/

namespace Sys2Proof

/-- A byte: an unsigned 8-bit value (R9). -/
abbrev Byte := BitVec 8

/-- A 16-bit word: lengths, PIDs, sub-devices, checksums, NACK reasons, delays (R6, R94, R95). -/
abbrev Word16 := BitVec 16

/-- A 32-bit word: the serial number and the operand of `sendLong` (R35, R214). -/
abbrev Word32 := BitVec 32

/-- A 48-bit UID, the first byte on the wire most significant (R35, R93). -/
abbrev Uid := BitVec 48

end Sys2Proof
end

