-- ==== Sys2Proof/Syntax.lean ====
section
/-! DEFINITION. The operations and codes of spec/opcode_table.json, one constructor of `Instr` per row,
the formats the table gives them, and the small name types they carry. -/

namespace Sys2Proof

/-- The six states of the deframer, R21. -/
inductive RxState where
  | preStart | gotStart | gotLabel | gotLengthLow | inPayload | awaitingEnd
  deriving DecidableEq, Repr, Inhabited

/-- The seven transport status kinds, in the order of R280's table. -/
inductive StatusKind where
  | tooShort | badStartCode | badLength | badChecksum | wrongDestination | invalidCommandClass
  | broadcastNoReply
  deriving DecidableEq, Repr, Inhabited

/-- The field values of a reply packet that its layout does not compute (R92, reply column). -/
structure ReplyFields where
  dst  : Uid
  src  : Uid
  tn   : Byte
  rt   : Byte
  mc   : Byte
  sub  : Word16
  cc   : Byte
  pid  : Word16
  data : List Byte
  deriving DecidableEq, Repr, Inhabited

/-- The formats of spec/opcode_table.json: the place a word is met in decides what it says (log 3). -/
inductive Format where
  | rxEvent | frameMarker | outerLabel | outerLabelDefault | outerFrame | statusFrame | replyFrame
  | rdmStartCode | rdmSubStartCode | validatorCheck | rdmCommandClass | dispatchStep | handlerPort
  | rdmResponseType | nackReason | statusCode | rdmRequest | rdmRequestPending
  | rdmRequestNotPending | pipeline
  deriving DecidableEq, Repr, Inhabited

/-- One constructor per row of spec/opcode_table.json, in the table's order. -/
inductive Instr where
  -- rx_event: R130 to R136
  | rxEmpty
  | rxPreStart (b : Byte)
  | rxGotStart (b : Byte)
  | rxGotLabel (b : Byte)
  | rxGotLengthLow (b : Byte)
  | rxInPayload (b : Byte)
  | rxAwaitingEnd (b : Byte)
  -- frame_marker: R131, R136
  | som
  | eom
  -- outer_label: R139, R140
  | labelParameters
  | labelDmxData
  | labelSerialNumber
  | labelManufacturer
  | labelName
  | labelRdm
  -- outer_frame, status_frame, reply_frame: R150, R290, R97
  | encode (label : Byte) (payload : List Byte)
  | status (k : StatusKind)
  | reply (f : ReplyFields)
  -- rdm_start_code, rdm_sub_start_code: R162
  | rdmSc
  | rdmSubSc
  -- validator_check: R161 to R168
  | validateSize
  | validateStartCodes
  | validateLength
  | validateChecksum
  | detectBroadcast
  | matchDestination
  | wrongDestination
  -- rdm_command_class: R181, R185, R190
  | ccGet
  | ccGetResponse
  | ccSet
  | ccSetResponse
  -- dispatch_step: R181 to R191
  | dispatchCcCheck
  | dispatchSubdeviceRange
  | dispatchUnknownPid
  | dispatchGetNoHandler
  | dispatchGetBroadcast
  | dispatchGetSubdevice
  | dispatchGetArgSize
  | dispatchGetInvoke
  | dispatchSetNoHandler
  | dispatchSetInvoke
  | dispatchPidLookup
  -- handler_port: R106, R211 to R220
  | startResponse (rt : Byte) (pdl : Byte) (cc : Byte) (pid : Word16)
  | sendByte (v : Byte)
  | sendInt (v : Word16)
  | sendLong (v : Word32)
  | endResponse
  | sendEmptyAck
  | sendNack (reason : Word16)
  | sendAckTimer (delay : Word16)
  | nackOrBroadcast (wasBroadcast : Bool) (reason : Word16)
  | reportStatus (k : StatusKind)
  | handlerReservedAB (low : BitVec 1)
  | handlerReservedCF (low : BitVec 2)
  -- outer_label_default: R140
  | labelOther (label : Byte)
  -- rdm_response_type: R101
  | rtAck
  | rtAckTimer
  | rtNack
  -- nack_reason: R102
  | nrUnknownPid
  | nrFormatError
  | nrUnsupportedCommandClass
  | nrDataOutOfRange
  | nrSubDeviceOutOfRange
  -- status_code: R103
  | statusOk
  | statusBroadcast
  | statusFailed
  | statusFailedChecksum
  | statusInvalidDestination
  | statusInvalidCommand
  -- rdm_request and its pending variants: R252 to R257
  | getSupportedParameters
  | setDeviceLabel
  | getQueuedMessagePending
  | getQueuedMessageIdle
  | setDmxStartAddress
  | setSerialNumber
  -- pipeline: R138 to R140
  | emitFrame
  | processRdm
  | frameOut
  deriving DecidableEq, Repr

/-- The format of spec/opcode_table.json each row has. -/
def Instr.format : Instr → Format
  | .rxEmpty | .rxPreStart _ | .rxGotStart _ | .rxGotLabel _ | .rxGotLengthLow _ | .rxInPayload _
  | .rxAwaitingEnd _ => .rxEvent
  | .som | .eom => .frameMarker
  | .labelParameters | .labelDmxData | .labelSerialNumber | .labelManufacturer | .labelName
  | .labelRdm => .outerLabel
  | .encode _ _ => .outerFrame
  | .status _ => .statusFrame
  | .reply _ => .replyFrame
  | .rdmSc => .rdmStartCode
  | .rdmSubSc => .rdmSubStartCode
  | .validateSize | .validateStartCodes | .validateLength | .validateChecksum | .detectBroadcast
  | .matchDestination | .wrongDestination => .validatorCheck
  | .ccGet | .ccGetResponse | .ccSet | .ccSetResponse => .rdmCommandClass
  | .dispatchCcCheck | .dispatchSubdeviceRange | .dispatchUnknownPid | .dispatchGetNoHandler
  | .dispatchGetBroadcast | .dispatchGetSubdevice | .dispatchGetArgSize | .dispatchGetInvoke
  | .dispatchSetNoHandler | .dispatchSetInvoke | .dispatchPidLookup => .dispatchStep
  | .startResponse _ _ _ _ | .sendByte _ | .sendInt _ | .sendLong _ | .endResponse | .sendEmptyAck
  | .sendNack _ | .sendAckTimer _ | .nackOrBroadcast _ _ | .reportStatus _ | .handlerReservedAB _
  | .handlerReservedCF _ => .handlerPort
  | .labelOther _ => .outerLabelDefault
  | .rtAck | .rtAckTimer | .rtNack => .rdmResponseType
  | .nrUnknownPid | .nrFormatError | .nrUnsupportedCommandClass | .nrDataOutOfRange
  | .nrSubDeviceOutOfRange => .nackReason
  | .statusOk | .statusBroadcast | .statusFailed | .statusFailedChecksum
  | .statusInvalidDestination | .statusInvalidCommand => .statusCode
  | .getSupportedParameters | .setDeviceLabel | .setDmxStartAddress | .setSerialNumber => .rdmRequest
  | .getQueuedMessagePending => .rdmRequestPending
  | .getQueuedMessageIdle => .rdmRequestNotPending
  | .emitFrame | .processRdm | .frameOut => .pipeline

end Sys2Proof
end

