-- ==== Sys2Proof/Config.lean ====
section
/-! DEFINITION. What an implementation fixes (the parameters of R6 and the PID table of R37), the data of the agents
outside the block (SettingsStore, handler agent, application) and the free values of what the spec leaves
open. A free value is an opaque constant: nothing can prove what it is. -/

namespace Sys2Proof

/-! The SettingsStore and the handler agent's flags. -/

/-- What the getters of R262 answer. The widths of the last three values are not in the source (N14; log 10). -/
structure StoreView where
  estaId       : Word16
  serialNumber : Word32
  startAddress : Word16
  deviceLabel  : List Byte
  personality  : Nat
  sensorValue  : Nat
  powerCycles  : Nat
  deriving DecidableEq, Repr, Inhabited

/-- The SettingsStore: the values of R262, and the non-volatile copy of the label that R261 defers, which no getter
answers and so no handler reads. -/
structure SettingsStore extends StoreView where
  committedLabel : List Byte
  deriving DecidableEq, Repr, Inhabited

/-- The handler agent's flags (R34, R260). -/
structure HandlerFlags where
  identifyEnabled : Bool
  labelPending    : Bool
  queuedCount     : Byte
  lastMessageSent : Bool
  deriving DecidableEq, Repr, Inhabited

/-- One setter call on the SettingsStore (R262). -/
inductive StoreWrite where
  | startAddress (v : Word16)
  | serialNumber (v : Word32)
  | deviceLabel (bs : List Byte)
  | personality (v : Nat)
  | sensorValue (v : Nat)
  | powerCycles (v : Nat)
  deriving DecidableEq, Repr, Inhabited

/-! The handler agent's behaviours. -/

/-- A handler-port command (R106). The last constructor carries a reserved code, `0xA` plus its operand. -/
inductive PortCommand where
  | startResponse (rt : Byte) (pdl : Byte) (cc : Byte) (pid : Word16)
  | sendByte (v : Byte)
  | sendInt (v : Word16)
  | sendLong (v : Word32)
  | endResponse
  | sendEmptyAck
  | sendNack (reason : Word16)
  | sendAckTimer (delay : Word16)
  | nackOrBroadcast (wasBroadcast : Bool) (reason : Word16)
  | reportStatus (k : StatusKind)
  | reserved (code : Fin 6)
  deriving DecidableEq, Repr, Inhabited

/-- The state of its own that a handler agent keeps between invocations (R195, R40): plain data of no given shape
(log 34). -/
abbrev AgentState := List Nat

/-- One thing a handler agent does (R195, R250): a port command, a setter call, a write of the handler flags or of its own
state, or a read of `Param(i)`. -/
inductive AgentAction where
  | port (c : PortCommand)
  | write (w : StoreWrite)
  | flags (f : HandlerFlags)
  | own (a : AgentState)
  | param (i : Nat)
  deriving DecidableEq, Repr, Inhabited

/-- The packet view of an invocation (R195): the request's bytes at offsets 0 to 23, which hold every header field of R92,
and its parameter bytes. -/
structure PacketView where
  header : List Byte
  params : List Byte
  deriving DecidableEq, Repr, Inhabited

/-- The stored values whose GET the document settles as to the value returned (R258). -/
inductive StoreField where
  | startAddress | personality | powerCycles | sensorValue | serialNumber | deviceLabel | identify
  deriving DecidableEq, Repr, Inhabited

/-- A stored value: a number, or the label's bytes. -/
inductive FieldValue where
  | number (n : Nat)
  | bytes (bs : List Byte)
  deriving DecidableEq, Repr, Inhabited

/-- How a GET reply lays a stored value out: `plain n` is a number in `n` bytes most significant first, or the
label's own bytes (the illustrative format of the test vectors); `unspecified` is a free value (N14). -/
inductive WireFormat where
  | plain (n : Nat)
  | unspecified
  deriving DecidableEq, Repr, Inhabited

/-- A GET behaviour of a table entry (R37, R250). `other` is a handler the document does not give (R258);
`script` is a handler that issues the listed commands, whatever they are; `agent` is the parameter agent of R195. -/
inductive GetBehaviour where
  | supportedParameters
  | queuedMessage
  | readField (f : StoreField) (w : WireFormat)
  | other (id : Nat)
  | script (cmds : List PortCommand)
  | agent (id : Nat)
  deriving DecidableEq, Repr, Inhabited

/-- The values a SET the document names but does not lay out writes (R258). -/
inductive SetField where
  | identify | personality | powerCycles | sensorValue
  deriving DecidableEq, Repr, Inhabited

/-- A SET behaviour of a table entry, as `GetBehaviour`. -/
inductive SetBehaviour where
  | deviceLabel
  | startAddress
  | serialNumber
  | writeField (f : SetField)
  | other (id : Nat)
  | script (acts : List AgentAction)
  | agent (id : Nat)
  deriving DecidableEq, Repr, Inhabited

/-- A table entry (R37). `has_get` and `has_set` are "the option holds a behaviour". -/
structure PidDefinition where
  pid       : Word16
  get       : Option GetBehaviour
  set       : Option SetBehaviour
  getArgLen : Byte
  included  : Bool
  deriving DecidableEq, Repr, Inhabited

/-- An application's call of `encode` (R150). -/
structure EncodeCall where
  label   : Byte
  payload : List Byte
  deriving DecidableEq, Repr, Inhabited

/-! The parameters. -/

/-- The parameters of R6 and of the decisions marked OPEN (D3, D10, D11, D37 to D40), and what the
application does when it is called (D7, D28). No step writes a field of it (log 7). -/
structure Config where
  frameCap                 : Nat
  statusOk                 : Byte
  statusBroadcast          : Byte
  statusFailed             : Byte
  statusFailedChecksum     : Byte
  statusInvalidDestination : Byte
  statusInvalidCommand     : Byte
  /-- the kinds for which `STATUS_ON_WIRE` is false (D10) -/
  silentKinds              : List StatusKind
  pidTable                 : List PidDefinition
  pidDeviceLabel           : Word16
  pidStatusMessages        : Word16
  labelAckDelay            : Word16
  labelMax                 : Nat
  startAddressMax          : Nat
  /-- what the application encodes when a frame is handed to it (R140) -/
  frameOutCalls            : List EncodeCall
  /-- what the application encodes when the idle callback runs (R330) -/
  idleCalls                : List EncodeCall
  deriving DecidableEq, Repr, Inhabited

/-- R6 and R323: the buffer's capacity fits the 16-bit length field and is not zero, and `STATUS_OK` differs
from the other five codes. -/
def Config.wf (c : Config) : Bool :=
  decide (0 < c.frameCap) && decide (c.frameCap ≤ 65535)
    && !([c.statusBroadcast, c.statusFailed, c.statusFailedChecksum, c.statusInvalidDestination,
          c.statusInvalidCommand].contains c.statusOk)

/-- The table of R251 (PRESUMED, log 9). Which entries are included is not in the source: the flags are those of the
fixture table of 95_test_vectors.md, and off elsewhere (DESIGN CHOICE, log 9). -/
def defaultPidTable : List PidDefinition :=
  [⟨0x0020, some .queuedMessage, none, 1, true⟩,
   ⟨0x0030, some (.other 0x0030), none, 1, false⟩,
   ⟨0x0050, some .supportedParameters, none, 0, false⟩,
   ⟨0x0060, some (.other 0x0060), none, 0, false⟩,
   ⟨0x0070, some (.other 0x0070), none, 0, false⟩,
   ⟨0x0080, some (.other 0x0080), none, 0, false⟩,
   ⟨0x0081, some (.other 0x0081), none, 0, false⟩,
   ⟨0x0082, some (.readField .deviceLabel .unspecified), some .deviceLabel, 0, true⟩,
   ⟨0x00A0, some (.other 0x00A0), none, 0, false⟩,
   ⟨0x00B0, some (.other 0x00B0), some (.other 0x00B0), 0, false⟩] ++
  [⟨0x00C0, some (.other 0x00C0), none, 0, false⟩,
   ⟨0x00E0, some (.readField .personality .unspecified), some (.writeField .personality), 0, false⟩,
   ⟨0x00E1, some (.other 0x00E1), none, 1, false⟩,
   ⟨0x00F0, some (.readField .startAddress .unspecified), some .startAddress, 0, false⟩,
   ⟨0x0200, some (.other 0x0200), none, 1, false⟩,
   ⟨0x0201, some (.readField .sensorValue .unspecified), some (.other 0x0201), 1, false⟩,
   ⟨0x0202, none, some (.writeField .sensorValue), 0, true⟩,
   ⟨0x0405, some (.readField .powerCycles .unspecified), some (.writeField .powerCycles), 0, false⟩,
   ⟨0x1000, some (.readField .identify .unspecified), some (.writeField .identify), 0, false⟩,
   ⟨0x8000, some (.readField .serialNumber .unspecified), some .serialNumber, 0, false⟩]

/-- The defaults the spec names for the parameters (R6, R103, R251, R253, R256; log 7, 8, 9). -/
def Config.default : Config where
  frameCap                 := 600
  statusOk                 := 0
  statusBroadcast          := 1
  statusFailed             := 2
  statusFailedChecksum     := 3
  statusInvalidDestination := 4
  statusInvalidCommand     := 5
  silentKinds              := []
  pidTable                 := defaultPidTable
  pidDeviceLabel           := 0x0082
  pidStatusMessages        := 0x0030
  labelAckDelay            := 0x0001
  labelMax                 := 32
  startAddressMax          := 512
  frameOutCalls            := []
  idleCalls                := []

/-! Free values. -/

/-- What a GET handler the document does not give answers: parameter data, or a NACK with some reason
(R197). -/
inductive GetAnswer where
  | data (bs : List Byte)
  | nack (reason : Word16)
  deriving DecidableEq, Repr, Inhabited

/-- What a SET handler the document does not lay out decides, on the pattern of R256 and R258. -/
inductive SetVerdict (α : Type) where
  | formatError
  | dataOutOfRange
  | accept (a : α)
  deriving DecidableEq, Repr, Inhabited

/-- What a handler can read at its invocation, its own state and flags apart (R195, R259): the packet view, `was_broadcast`,
the store's getters, `QUEUED_COUNT` and the PID table. -/
structure Request where
  view         : PacketView
  wasBroadcast : Bool
  store        : StoreView
  queuedCount  : Byte
  pidTable     : List PidDefinition
  deriving DecidableEq, Repr, Inhabited

/-- Free: whether the idle callback commits the deferred label at the strobe with this number (R261; log 14). -/
opaque Config.commitsAtIdle : Nat → Bool

/-- Free: what `RespCC` gives for a class other than GET and SET (R221; log 15). -/
opaque Config.respCcOpen : Byte → Byte

/-- Free: what the parameter agent of R195 does, a function of its identity, the request, its own state and the handler
flags (log 12). The command class among the request's bytes tells a GET from a SET. -/
opaque Config.agentActions : Nat → Request → AgentState → HandlerFlags → List AgentAction

/-- Free: how many parameter bytes a GET of a stored value reads when the request declares an argument (R258, R66;
log 11, log 33). -/
opaque Config.fieldGetReads : StoreField → Request → Nat

/-- Free: whether a GET of a stored value refuses its argument, and with what reason (R197; log 33). -/
opaque Config.fieldRefusal : StoreField → Request → Option Word16

/-- Free: the reply bytes of a stored value whose layout is not in the source, for the argument bytes the GET read (R258,
N14; log 11). -/
opaque Config.fieldBytes : StoreField → FieldValue → List Byte → List Byte

/-- Free: how many parameter bytes a GET handler not in the source reads (R258, R66; log 11). -/
opaque Config.otherGetReads : Nat → Request → Nat

/-- Free: the answer of a GET handler not in the source, a function of its identity and the request, of which every GET
handler is given all but the transaction number (R258, R259; log 11). -/
opaque Config.getAnswer : Nat → Request → GetAnswer

/-- Free: how many parameter bytes a SET whose argument layout is not in the source reads (R258, R66; log 11). -/
opaque Config.fieldSetReads : SetField → Request → Nat

/-- Free: the verdict of such a SET, and the value it writes (R258; log 11). -/
opaque Config.fieldVerdict : SetField → Request → SetVerdict Nat

/-- Free: how many parameter bytes a SET handler not in the source reads (R258, R66; log 11). -/
opaque Config.otherSetReads : Nat → Request → Nat

/-- Free: the verdict of a SET handler not in the source, and the setters it calls (R258; log 11). -/
opaque Config.setVerdict : Nat → Request → SetVerdict (List StoreWrite)

end Sys2Proof
end

