-- ==== Sys2Proof/WellFormed.lean ====
section
/-! DEFINITION. Which instruction terms stand for something the block can be given or can send. -/

namespace Sys2Proof

/-- The six labels R99 knows by name. -/
def knownLabels : List Byte := [3, 6, 10, 77, 78, 82]

/-- Operand checks: a payload's length fits the 16-bit length field (R151), a reply's parameter data
keeps within `PDL_MAX` (R96, R333), and LABEL_OTHER is none of the six known labels (R99). Every other
operand is legal at every value of its width. -/
def Instr.wellFormed : Instr → Bool
  | .encode _ payload => decide (payload.length ≤ 65535)
  | .reply f => decide (f.data.length ≤ 231)
  | .labelOther label => !knownLabels.contains label
  | .rxEmpty | .rxPreStart _ | .rxGotStart _ | .rxGotLabel _ | .rxGotLengthLow _ | .rxInPayload _
  | .rxAwaitingEnd _ | .som | .eom | .labelParameters | .labelDmxData | .labelSerialNumber
  | .labelManufacturer | .labelName | .labelRdm | .status _ | .rdmSc | .rdmSubSc | .validateSize
  | .validateStartCodes | .validateLength | .validateChecksum | .detectBroadcast | .matchDestination
  | .wrongDestination | .ccGet | .ccGetResponse | .ccSet | .ccSetResponse | .dispatchCcCheck
  | .dispatchSubdeviceRange | .dispatchUnknownPid | .dispatchGetNoHandler | .dispatchGetBroadcast
  | .dispatchGetSubdevice | .dispatchGetArgSize | .dispatchGetInvoke | .dispatchSetNoHandler
  | .dispatchSetInvoke | .dispatchPidLookup | .startResponse _ _ _ _ | .sendByte _ | .sendInt _
  | .sendLong _ | .endResponse | .sendEmptyAck | .sendNack _ | .sendAckTimer _
  | .nackOrBroadcast _ _ | .reportStatus _ | .handlerReservedAB _ | .handlerReservedCF _ | .rtAck
  | .rtAckTimer | .rtNack | .nrUnknownPid | .nrFormatError | .nrUnsupportedCommandClass
  | .nrDataOutOfRange | .nrSubDeviceOutOfRange | .statusOk | .statusBroadcast | .statusFailed
  | .statusFailedChecksum | .statusInvalidDestination | .statusInvalidCommand
  | .getSupportedParameters | .setDeviceLabel | .getQueuedMessagePending | .getQueuedMessageIdle
  | .setDmxStartAddress | .setSerialNumber | .emitFrame | .processRdm | .frameOut => true

/-- The well-formed instructions. -/
abbrev Instr.WellFormed (i : Instr) : Prop := i.wellFormed = true

end Sys2Proof
end

