-- ==== Sys2Proof/Decode.lean ====
section
/-! DEFINITION. Byte order helpers, the wire layouts of R90 and R92, the decoder (total on any bytes of any
format, rejecting by name) and after it the encoder, and the reading of one opcode-table word. -/

namespace Sys2Proof

/-! Byte order (R9, R64, R65). -/

/-- Bits 15:8. -/
def hiByte (w : Word16) : Byte := w.extractLsb' 8 8

/-- Bits 7:0. -/
def loByte (w : Word16) : Byte := w.extractLsb' 0 8

/-- `BE16` of R10: the first byte most significant. -/
def be16 (hi lo : Byte) : Word16 := hi ++ lo

/-- `LE16` of R10: the low byte first. -/
def le16 (lo hi : Byte) : Word16 := hi ++ lo

/-- Two bytes, most significant first (R65). -/
def bytes16 (w : Word16) : List Byte := [hiByte w, loByte w]

/-- Four bytes, most significant first (R65, R214). -/
def bytes32 (w : Word32) : List Byte :=
  [w.extractLsb' 24 8, w.extractLsb' 16 8, w.extractLsb' 8 8, w.extractLsb' 0 8]

/-- Six bytes, most significant first (R93). -/
def bytes48 (u : Uid) : List Byte :=
  [u.extractLsb' 40 8, u.extractLsb' 32 8, u.extractLsb' 24 8, u.extractLsb' 16 8,
   u.extractLsb' 8 8, u.extractLsb' 0 8]

/-- The 32-bit value of four bytes, most significant first. -/
def be32 (a b c d : Byte) : Word32 := a ++ b ++ c ++ d

/-- The 48-bit value of six bytes, most significant first. -/
def be48 (a b c d e f : Byte) : Uid := a ++ b ++ c ++ d ++ e ++ f

/-- The unsigned value of a byte string read most significant byte first (`MemRead` of R10). -/
def natOfBytes (bs : List Byte) : Nat := bs.foldl (fun acc b => acc * 256 + b.toNat) 0

/-- `n` bytes of a number, most significant first. -/
def bytesOfNat : Nat → Nat → List Byte
  | 0, _ => []
  | n + 1, w => BitVec.ofNat 8 (w / 256 ^ n) :: bytesOfNat n w

/-! Wire layouts. -/

/-- Start-of-message marker (R6). -/
def somByte : Byte := 0x7E
/-- End-of-message marker (R6). -/
def eomByte : Byte := 0xE7
/-- `LABEL_RDM` (R99). -/
def rdmLabel : Byte := 82
/-- RDM start code (R6). -/
def startCode : Byte := 0xCC
/-- RDM sub-start code (R6). -/
def subStartCode : Byte := 0x01
/-- `PDL_MAX` (R6, R333). -/
def pdlMax : Nat := 231

/-- The four header bytes of an outer frame with an `n`-byte payload (R90, R91). -/
def frameHeader (label : Byte) (n : Nat) : List Byte :=
  [somByte, label, BitVec.ofNat 8 (n % 256), BitVec.ofNat 8 (n / 256)]

/-- The outer frame of R90 and R150. -/
def frameBytes (label : Byte) (payload : List Byte) : List Byte :=
  frameHeader label payload.length ++ payload ++ [eomByte]

/-- The unsigned sum of bytes modulo 65536 (R95). -/
def checksum (bs : List Byte) : Word16 := bs.foldl (fun acc b => acc + b.setWidth 16) 0

/-- Offsets 0 to 23 of a reply packet with `pdl` parameter bytes (R92, R97). -/
def packetHeader (f : ReplyFields) (pdl : Nat) : List Byte :=
  [startCode, subStartCode, BitVec.ofNat 8 (24 + pdl)] ++ bytes48 f.dst ++ bytes48 f.src
    ++ [f.tn, f.rt, f.mc] ++ bytes16 f.sub ++ [f.cc] ++ bytes16 f.pid ++ [BitVec.ofNat 8 pdl]

/-- A reply packet without its checksum. -/
def packetBody (f : ReplyFields) : List Byte := packetHeader f f.data.length ++ f.data

/-- The RDM packet of R92 with its big-endian checksum (R95). -/
def packetBytes (f : ReplyFields) : List Byte :=
  packetBody f ++ bytes16 (checksum (packetBody f))

/-- The reply frame of R97 headed by the status byte `ok`. -/
def replyFrameBytes (ok : Byte) (f : ReplyFields) : List Byte :=
  frameBytes rdmLabel (ok :: packetBytes f)

/-- The status frame of R98. -/
def statusFrameBytes (code : Byte) : List Byte := frameBytes rdmLabel [code]

/-- The 3-bit code of a deframer state (R111). -/
def RxState.code : RxState → Nat
  | .preStart => 0 | .gotStart => 1 | .gotLabel => 2 | .gotLengthLow => 3 | .inPayload => 4
  | .awaitingEnd => 5

/-- The event word of a received byte: bit 11 set, the state code in bits 10:8, the byte in bits 7:0,
as two bytes (rows RX_PRE_START to RX_AWAITING_END). -/
def rxWord (st : RxState) (b : Byte) : List Byte := [BitVec.ofNat 8 (8 + st.code), b]

/-- The 3-bit number of a status kind on the handler port, in the order of R280's table (log 19). -/
def StatusKind.number : StatusKind → Nat
  | .tooShort => 0 | .badStartCode => 1 | .badLength => 2 | .badChecksum => 3
  | .wrongDestination => 4 | .invalidCommandClass => 5 | .broadcastNoReply => 6

/-- The kind with a given number. -/
def kindOfNumber : Nat → Option StatusKind
  | 0 => some .tooShort | 1 => some .badStartCode | 2 => some .badLength | 3 => some .badChecksum
  | 4 => some .wrongDestination | 5 => some .invalidCommandClass | 6 => some .broadcastNoReply
  | _ => none

/-- The code byte in a STATUS instruction word: the table's default codes (R103), and a selector among
the kinds that share a code (log 20). -/
def StatusKind.wordCode : StatusKind → Byte × Byte
  | .tooShort => (2, 0) | .badStartCode => (2, 1) | .badLength => (2, 2) | .badChecksum => (3, 0)
  | .wrongDestination => (4, 0) | .invalidCommandClass => (5, 0) | .broadcastNoReply => (1, 0)

/-! The decoder. -/

/-- Why a word is no instruction of its format. -/
inductive DecodeError where
  /-- the word has the wrong number of bytes for its format -/
  | wrongLength
  /-- a bit outside the field the format gives the word is set -/
  | reservedBits
  /-- an `rx_state` code of 6 or 7 (R111) -/
  | unusedRxState
  /-- a byte that is no marker, label, start code, class, step, type, reason or status of the format -/
  | unknownCode
  /-- LABEL_OTHER with one of the six known labels -/
  | knownLabel
  /-- a frame word that does not begin with SOM or end with EOM -/
  | badMarker
  /-- a frame word whose length field is not its payload's length -/
  | badFrameLength
  /-- a reply word whose packet fails R92 (start codes, length, pdl) -/
  | badPacket
  /-- a reply word whose checksum is wrong (R95) -/
  | badPacketChecksum
  /-- a kind number or selector no status kind has -/
  | unknownKind
  deriving DecidableEq, Repr

/-- Label and payload of an outer frame (R90). -/
def parseFrame (bs : List Byte) : Except DecodeError (Byte × List Byte) :=
  match bs with
  | m :: label :: lo :: hi :: rest =>
    if m ≠ somByte ∨ rest.getLast? ≠ some eomByte then .error .badMarker
    else if rest.length ≠ (le16 lo hi).toNat + 1 then .error .badFrameLength
    else .ok (label, rest.dropLast)
  | _ => .error .wrongLength

/-- The fields of an RDM packet as the block sends one (R92, reply column). -/
def parsePacket (p : List Byte) : Except DecodeError ReplyFields :=
  match p with
  | sc :: ssc :: len :: d0 :: d1 :: d2 :: d3 :: d4 :: d5 :: u0 :: u1 :: u2 :: u3 :: u4 :: u5 :: tn :: rt
      :: mc :: s0 :: s1 :: cc :: p0 :: p1 :: pdl :: rest =>
    if sc ≠ startCode ∨ ssc ≠ subStartCode ∨ len.toNat + 2 ≠ p.length ∨ rest.length ≠ pdl.toNat + 2 then
      .error .badPacket
    else if bytes16 (checksum (p.take (p.length - 2))) ≠ p.drop (p.length - 2) then
      .error .badPacketChecksum
    else
      .ok { dst := be48 d0 d1 d2 d3 d4 d5, src := be48 u0 u1 u2 u3 u4 u5, tn := tn, rt := rt, mc := mc,
            sub := be16 s0 s1, cc := cc, pid := be16 p0 p1, data := rest.take pdl.toNat }
  | _ => .error .wrongLength

/-- RX event words: is_byte in bit 11, rx_state in bits 10:8, byte in bits 7:0. -/
def decodeRxEvent : List Byte → Except DecodeError Instr
  | [hi, b] =>
    if 16 ≤ hi.toNat then .error .reservedBits
    else if hi.toNat < 8 then .ok .rxEmpty
    else match hi.toNat - 8 with
      | 0 => .ok (.rxPreStart b)
      | 1 => .ok (.rxGotStart b)
      | 2 => .ok (.rxGotLabel b)
      | 3 => .ok (.rxGotLengthLow b)
      | 4 => .ok (.rxInPayload b)
      | 5 => .ok (.rxAwaitingEnd b)
      | _ => .error .unusedRxState
  | _ => .error .wrongLength

/-- How many operand bytes follow a handler-port code (R106; log 19). -/
def portOperandBytes (code : Nat) : Nat :=
  match code with
  | 0 => 5 | 1 => 1 | 2 => 2 | 3 => 4 | 6 => 2 | 7 => 2 | 8 => 3 | 9 => 1 | _ => 0

/-- A handler-port command without operands. -/
def portPlain (i : Instr) : List Byte → Except DecodeError Instr
  | [] => .ok i
  | _ => .error .wrongLength

/-- A handler-port command with a one-byte operand. -/
def portByte (k : Byte → Except DecodeError Instr) : List Byte → Except DecodeError Instr
  | [a] => k a
  | _ => .error .wrongLength

/-- A handler-port command with a 16-bit operand. -/
def portWord (k : Word16 → Instr) : List Byte → Except DecodeError Instr
  | [a, b] => .ok (k (be16 a b))
  | _ => .error .wrongLength

/-- The operands of `startResponse` (R106). -/
def portStart : List Byte → Except DecodeError Instr
  | [rt, pdl, cc, p0, p1] => .ok (.startResponse rt pdl cc (be16 p0 p1))
  | _ => .error .wrongLength

/-- The operand of `sendLong` (R106). -/
def portLong : List Byte → Except DecodeError Instr
  | [a, b, c, d] => .ok (.sendLong (be32 a b c d))
  | _ => .error .wrongLength

/-- The operands of `nackOrBroadcast` (R106): a one-bit flag and a reason. -/
def portRefuse : List Byte → Except DecodeError Instr
  | [w, a, b] =>
    if 2 ≤ w.toNat then .error .reservedBits
    else .ok (.nackOrBroadcast (decide (w = 1)) (be16 a b))
  | _ => .error .wrongLength

/-- The operand of `REPORT_STATUS`: a 3-bit kind number (R106; log 19). -/
def portReport (k : Byte) : Except DecodeError Instr :=
  if 8 ≤ k.toNat then .error .reservedBits
  else match kindOfNumber k.toNat with
    | some k => .ok (.reportStatus k)
    | none => .error .unknownKind

/-- Handler-port words: the command nibble, then its operands, most significant byte first (R106). -/
def decodePort : List Byte → Except DecodeError Instr
  | code :: ops =>
    if 16 ≤ code.toNat then .error .reservedBits
    else match code.toNat with
      | 0 => portStart ops
      | 1 => portByte (fun v => .ok (.sendByte v)) ops
      | 2 => portWord .sendInt ops
      | 3 => portLong ops
      | 4 => portPlain .endResponse ops
      | 5 => portPlain .sendEmptyAck ops
      | 6 => portWord .sendNack ops
      | 7 => portWord .sendAckTimer ops
      | 8 => portRefuse ops
      | 9 => portByte portReport ops
      | 10 => portPlain (.handlerReservedAB 0) ops
      | 11 => portPlain (.handlerReservedAB 1) ops
      | 12 => portPlain (.handlerReservedCF 0) ops
      | 13 => portPlain (.handlerReservedCF 1) ops
      | 14 => portPlain (.handlerReservedCF 2) ops
      | 15 => portPlain (.handlerReservedCF 3) ops
      | _ => .error .wrongLength
  | [] => .error .wrongLength

/-- The instruction a word read at a place of the given format stands for. -/
def decode (f : Format) (bs : List Byte) : Except DecodeError Instr :=
  match f with
  | .rxEvent => decodeRxEvent bs
  | .handlerPort => decodePort bs
  | .outerFrame =>
    match parseFrame bs with
    | .ok (label, payload) => .ok (.encode label payload)
    | .error e => .error e
  | .statusFrame =>
    match bs with
    | [a, b, c, d, code, e, sel] =>
      if [a, b, c, d, e] ≠ [somByte, rdmLabel, 1, 0, eomByte] then .error .badMarker
      else match code.toNat, sel.toNat with
        | 1, 0 => .ok (.status .broadcastNoReply)
        | 2, 0 => .ok (.status .tooShort)
        | 2, 1 => .ok (.status .badStartCode)
        | 2, 2 => .ok (.status .badLength)
        | 3, 0 => .ok (.status .badChecksum)
        | 4, 0 => .ok (.status .wrongDestination)
        | 5, 0 => .ok (.status .invalidCommandClass)
        | _, _ => .error .unknownKind
    | _ => .error .wrongLength
  | .replyFrame =>
    match parseFrame bs with
    | .error e => .error e
    | .ok (label, payload) =>
      if label ≠ rdmLabel then .error .unknownCode
      else match payload with
        | ok :: p =>
          if ok ≠ 0 then .error .unknownCode
          else match parsePacket p with
            | .ok fields => .ok (.reply fields)
            | .error e => .error e
        | [] => .error .wrongLength
  | .nackReason =>
    match bs with
    | [a, b] =>
      match (be16 a b).toNat with
      | 0 => .ok .nrUnknownPid
      | 1 => .ok .nrFormatError
      | 5 => .ok .nrUnsupportedCommandClass
      | 6 => .ok .nrDataOutOfRange
      | 9 => .ok .nrSubDeviceOutOfRange
      | _ => .error .unknownCode
    | _ => .error .wrongLength
  | .rdmRequest =>
    match bs with
    | [cc, a, b] =>
      match cc.toNat, (be16 a b).toNat with
      | 0x20, 0x0050 => .ok .getSupportedParameters
      | 0x30, 0x0082 => .ok .setDeviceLabel
      | 0x30, 0x00F0 => .ok .setDmxStartAddress
      | 0x30, 0x8000 => .ok .setSerialNumber
      | _, _ => .error .unknownCode
    | _ => .error .wrongLength
  | .rdmRequestPending =>
    if bs = [0x20, 0x00, 0x20] then .ok .getQueuedMessagePending
    else if bs.length = 3 then .error .unknownCode else .error .wrongLength
  | .rdmRequestNotPending =>
    if bs = [0x20, 0x00, 0x20] then .ok .getQueuedMessageIdle
    else if bs.length = 3 then .error .unknownCode else .error .wrongLength
  | .frameMarker =>
    match bs with
    | [b] =>
      if b = somByte then .ok .som else if b = eomByte then .ok .eom else .error .unknownCode
    | _ => .error .wrongLength
  | .outerLabel =>
    match bs with
    | [b] =>
      match b.toNat with
      | 3 => .ok .labelParameters
      | 6 => .ok .labelDmxData
      | 10 => .ok .labelSerialNumber
      | 77 => .ok .labelManufacturer
      | 78 => .ok .labelName
      | 82 => .ok .labelRdm
      | _ => .error .unknownCode
    | _ => .error .wrongLength
  | .outerLabelDefault =>
    match bs with
    | [b] => if knownLabels.contains b then .error .knownLabel else .ok (.labelOther b)
    | _ => .error .wrongLength
  | .rdmStartCode =>
    match bs with
    | [b] => if b = startCode then .ok .rdmSc else .error .unknownCode
    | _ => .error .wrongLength
  | .rdmSubStartCode =>
    match bs with
    | [b] => if b = subStartCode then .ok .rdmSubSc else .error .unknownCode
    | _ => .error .wrongLength
  | .validatorCheck =>
    match bs with
    | [b] =>
      if 8 ≤ b.toNat then .error .reservedBits
      else match b.toNat with
        | 1 => .ok .validateSize
        | 2 => .ok .validateStartCodes
        | 3 => .ok .validateLength
        | 4 => .ok .validateChecksum
        | 5 => .ok .detectBroadcast
        | 6 => .ok .matchDestination
        | 7 => .ok .wrongDestination
        | _ => .error .unknownCode
    | _ => .error .wrongLength
  | .rdmCommandClass =>
    match bs with
    | [b] =>
      match b.toNat with
      | 0x20 => .ok .ccGet
      | 0x21 => .ok .ccGetResponse
      | 0x30 => .ok .ccSet
      | 0x31 => .ok .ccSetResponse
      | _ => .error .unknownCode
    | _ => .error .wrongLength
  | .dispatchStep =>
    match bs with
    | [b] =>
      if 16 ≤ b.toNat then .error .reservedBits
      else match b.toNat with
        | 1 => .ok .dispatchCcCheck
        | 2 => .ok .dispatchSubdeviceRange
        | 3 => .ok .dispatchUnknownPid
        | 4 => .ok .dispatchGetNoHandler
        | 5 => .ok .dispatchGetBroadcast
        | 6 => .ok .dispatchGetSubdevice
        | 7 => .ok .dispatchGetArgSize
        | 8 => .ok .dispatchGetInvoke
        | 9 => .ok .dispatchSetNoHandler
        | 10 => .ok .dispatchSetInvoke
        | 11 => .ok .dispatchPidLookup
        | _ => .error .unknownCode
    | _ => .error .wrongLength
  | .rdmResponseType =>
    match bs with
    | [b] =>
      match b.toNat with
      | 0 => .ok .rtAck
      | 1 => .ok .rtAckTimer
      | 2 => .ok .rtNack
      | _ => .error .unknownCode
    | _ => .error .wrongLength
  | .statusCode =>
    match bs with
    | [b] =>
      match b.toNat with
      | 0 => .ok .statusOk
      | 1 => .ok .statusBroadcast
      | 2 => .ok .statusFailed
      | 3 => .ok .statusFailedChecksum
      | 4 => .ok .statusInvalidDestination
      | 5 => .ok .statusInvalidCommand
      | _ => .error .unknownCode
    | _ => .error .wrongLength
  | .pipeline =>
    match bs with
    | [b] =>
      if 8 ≤ b.toNat then .error .reservedBits
      else match b.toNat with
        | 1 => .ok .emitFrame
        | 2 => .ok .processRdm
        | 3 => .ok .frameOut
        | _ => .error .unknownCode
    | _ => .error .wrongLength

/-! The encoder, from the same tables. -/

/-- The word of an instruction in its own format. -/
def encode : Instr → List Byte
  | .rxEmpty => [0, 0]
  | .rxPreStart b => rxWord .preStart b
  | .rxGotStart b => rxWord .gotStart b
  | .rxGotLabel b => rxWord .gotLabel b
  | .rxGotLengthLow b => rxWord .gotLengthLow b
  | .rxInPayload b => rxWord .inPayload b
  | .rxAwaitingEnd b => rxWord .awaitingEnd b
  | .som => [somByte]
  | .eom => [eomByte]
  | .labelParameters => [3]
  | .labelDmxData => [6]
  | .labelSerialNumber => [10]
  | .labelManufacturer => [77]
  | .labelName => [78]
  | .labelRdm => [82]
  | .encode label payload => frameBytes label payload
  | .status k => statusFrameBytes k.wordCode.1 ++ [k.wordCode.2]
  | .reply f => replyFrameBytes 0 f
  | .rdmSc => [startCode]
  | .rdmSubSc => [subStartCode]
  | .validateSize => [1]
  | .validateStartCodes => [2]
  | .validateLength => [3]
  | .validateChecksum => [4]
  | .detectBroadcast => [5]
  | .matchDestination => [6]
  | .wrongDestination => [7]
  | .ccGet => [0x20]
  | .ccGetResponse => [0x21]
  | .ccSet => [0x30]
  | .ccSetResponse => [0x31]
  | .dispatchCcCheck => [1]
  | .dispatchSubdeviceRange => [2]
  | .dispatchUnknownPid => [3]
  | .dispatchGetNoHandler => [4]
  | .dispatchGetBroadcast => [5]
  | .dispatchGetSubdevice => [6]
  | .dispatchGetArgSize => [7]
  | .dispatchGetInvoke => [8]
  | .dispatchSetNoHandler => [9]
  | .dispatchSetInvoke => [10]
  | .dispatchPidLookup => [11]
  | .startResponse rt pdl cc pid => [0, rt, pdl, cc] ++ bytes16 pid
  | .sendByte v => [1, v]
  | .sendInt v => 2 :: bytes16 v
  | .sendLong v => 3 :: bytes32 v
  | .endResponse => [4]
  | .sendEmptyAck => [5]
  | .sendNack reason => 6 :: bytes16 reason
  | .sendAckTimer delay => 7 :: bytes16 delay
  | .nackOrBroadcast wb reason => [8, if wb then 1 else 0] ++ bytes16 reason
  | .reportStatus k => [9, BitVec.ofNat 8 k.number]
  | .handlerReservedAB low => [BitVec.ofNat 8 (10 + low.toNat)]
  | .handlerReservedCF low => [BitVec.ofNat 8 (12 + low.toNat)]
  | .labelOther label => [label]
  | .rtAck => [0]
  | .rtAckTimer => [1]
  | .rtNack => [2]
  | .nrUnknownPid => bytes16 0
  | .nrFormatError => bytes16 1
  | .nrUnsupportedCommandClass => bytes16 5
  | .nrDataOutOfRange => bytes16 6
  | .nrSubDeviceOutOfRange => bytes16 9
  | .statusOk => [0]
  | .statusBroadcast => [1]
  | .statusFailed => [2]
  | .statusFailedChecksum => [3]
  | .statusInvalidDestination => [4]
  | .statusInvalidCommand => [5]
  | .getSupportedParameters => [0x20, 0x00, 0x50]
  | .setDeviceLabel => [0x30, 0x00, 0x82]
  | .getQueuedMessagePending => [0x20, 0x00, 0x20]
  | .getQueuedMessageIdle => [0x20, 0x00, 0x20]
  | .setDmxStartAddress => [0x30, 0x00, 0xF0]
  | .setSerialNumber => [0x30, 0x80, 0x00]
  | .emitFrame => [1]
  | .processRdm => [2]
  | .frameOut => [3]

/-! One word of the opcode table, with no place given: the formats' codes overlap, so the formats are tried
in a fixed order (log 3). -/

/-- The formats a word of the given number of bits is tried in. -/
def tableFormats (nbits : Nat) : List Format :=
  if nbits = 8 then
    [.handlerPort, .frameMarker, .outerLabel, .rdmStartCode, .rdmCommandClass, .outerLabelDefault]
  else if nbits = 16 then [.rxEvent, .nackReason]
  else if nbits = 24 then [.rdmRequest, .rdmRequestNotPending]
  else if 40 ≤ nbits ∧ nbits % 8 = 0 then [.statusFrame, .replyFrame, .outerFrame]
  else []

/-- A table word as the bytes of its format, first byte most significant, the operand bytes the table gives
no bits being zero. -/
def tableBytes (f : Format) (nbits w : Nat) : List Byte :=
  bytesOfNat (nbits / 8) w ++
    match f with
    | .handlerPort => List.replicate (portOperandBytes (w % 256)) 0
    | .statusFrame => [0]
    | _ => []

/-- The first format in which the word is an instruction, with the bytes and the instruction. -/
def readTableWord (nbits w : Nat) : List Format → Option (Format × List Byte × Instr)
  | [] => none
  | f :: fs =>
    match decode f (tableBytes f nbits w) with
    | .ok i => some (f, tableBytes f nbits w, i)
    | .error _ => readTableWord nbits w fs

/-- The exact NACK reasons are read before the RX_EMPTY pattern they fall under, all but reason 0. -/
def tableOrder (nbits w : Nat) : List Format :=
  if nbits = 16 ∧ w ≠ 0 then (tableFormats nbits).reverse else tableFormats nbits

/-- The instruction the decoder reads from one word of the opcode table. -/
def decodeTableWord (nbits w : Nat) : Option Instr :=
  if 2 ^ nbits ≤ w then none
  else (readTableWord nbits w (tableOrder nbits w)).map fun r => r.2.2

end Sys2Proof
end

