-- ==== Sys2Proof/Machine/State.lean ====
section
/-! DEFINITION. The machine's state as plain data, the reasons a step can stop, and the state after reset. -/

namespace Sys2Proof.Machine

/-- Why the machine stops. All but the last two are the model faults of R300: contract violations by an agent
outside the block, to which the rules give no effect. Every one is safe: the model stops where the firmware
would put something on TX. -/
inductive Fault where
  /-- a read of `buf` or of a parameter byte outside the frame under processing, or a write at or above
  `FRAME_CAP` (R66, R68); raised by every bounds-checked access; safe -/
  | bufOutOfBounds
  /-- `encode` of more than 65535 bytes (R151); raised by ENCODE and by the application's calls; safe -/
  | encodeTooLong
  /-- a reserved handler-port code (R106); raised by HANDLER_RESERVED_A_B and HANDLER_RESERVED_C_F; safe -/
  | badHandlerCommand
  /-- a handler returned with no outcome or with a response open (R196, R139); raised by the invoking steps and by
  PROCESS_RDM; safe -/
  | noOutcome
  /-- a second reply or status for one frame (R224); raised by `startResponse` and `Status`; safe -/
  | secondOutcome
  /-- `startResponse` for a broadcast request (R199, R224); safe -/
  | replyToBroadcast
  /-- `startResponse`, `Status` or `encode` while a response is open (R224, R330); safe -/
  | encoderBusy
  /-- a send or `endResponse` with no response open (R224); safe -/
  | noResponseOpen
  /-- more parameter bytes than declared (R224, R332); safe -/
  | paramOverrun
  /-- `endResponse` with parameter bytes owed (R224, R332); safe -/
  | paramUnderrun
  /-- `startResponse` with `pdl > 231` (R224, R333); safe -/
  | pdlTooLong
  /-- `REPORT_STATUS` of another kind, or a suppressed reply for a unicast request (R219, R220); safe -/
  | badStatusReport
  /-- a read of a `buf` cell that no frame has written (R42, U17); safe -/
  | readUnwritten
  /-- a PID table index at or above `N_PIDS` (R60); raised only by a dispatch step run alone; safe (log 18) -/
  | noTableEntry
  /-- an invoking step for an entry without that handler (R37); raised only by a dispatch step run alone;
  safe (log 18) -/
  | noHandler
  deriving DecidableEq, Repr

/-- Why the machine gives an instruction no meaning. -/
inductive Refusal where
  /-- the arm of `exec` has no meaning yet; raised by `exec` only; safe -/
  | notModelled (mnemonic : String)
  /-- an input word that is no instruction of its format; raised by `step` only; safe -/
  | undecodable (e : DecodeError)
  deriving DecidableEq, Repr

/-- The validator's verdict (R27). -/
inductive Verdict where
  | ok | tooShort | badStartCode | badLength | badChecksum
  deriving DecidableEq, Repr

/-- Bytes by offset, offsets strictly rising. An unlisted offset holds no value (R42, log 6). -/
abbrev Memory := List Host.Cell

/-- One input of the machine. `rxByte` and `rxEmpty` are the RX events of R8; `reset` is a reset between two of them (R320);
`resetDuring` is an RX event, a byte or an empty poll, that a reset strikes when `sent` bytes of what it puts on TX have
gone out (R322); `call` is one operation of the table run alone (log 1, 2, 22). -/
inductive Input where
  | rxByte (b : Byte)
  | rxEmpty
  | reset
  | resetDuring (event : Option Byte) (sent : Nat)
  | call (f : Format) (bs : List Byte)
  deriving DecidableEq, Repr

/-- The sequencer and the deframer's registers (R21 to R24, R31). -/
structure RxRegs where
  state : RxState
  label : Byte
  len   : Word16
  cnt   : Word16
  ovf   : Bool
  deriving DecidableEq, Repr

/-- The validator's registers and the destination match's flags (R26, R27, R32, R167). -/
structure ValRegs where
  sum         : Word16
  verdict     : Verdict
  size        : Word16
  isBroadcast : Bool
  toUs        : Bool
  deriving DecidableEq, Repr

/-- The dispatcher's registers (R28). -/
structure DispRegs where
  cc    : Byte
  sub   : Word16
  pid   : Word16
  pdl   : Byte
  idx   : Nat
  found : Bool
  deriving DecidableEq, Repr

/-- The response encoder's registers (R29, R33). -/
structure EncRegs where
  sum       : Word16
  busy      : Bool
  remaining : BitVec 9
  done      : Bool
  deriving DecidableEq, Repr

/-- The `ResponseContext` (R30). -/
structure ResponseContext where
  dst   : Uid
  tn    : Byte
  sub   : Word16
  cc    : Byte
  pid   : Word16
  bcast : Bool
  deriving DecidableEq, Repr

/-- A handler invocation as `HANDLER_LOG` records it (R189, R191). -/
inductive Invocation where
  | get (idx : Nat)
  | set (idx : Nat) (wasBroadcast : Bool)
  deriving DecidableEq, Repr

/-- The append-only outputs (R39). -/
structure Traces where
  tx         : List Byte
  statusLog  : List StatusKind
  idleLog    : Nat
  frameOut   : List (Byte × List Byte)
  handlerLog : List Invocation
  deriving DecidableEq, Repr

/-- The whole machine. `cfg` is fixed for the machine and `input` is the schedule of inputs still to come. `agent` is the
handler agent's own state (R195). `past` holds TX as each reset so far cut it off, oldest first (R322; log 22); `strobes`
numbers the idle strobes over the machine's whole life, the argument of a free value (log 14). -/
structure State where
  cfg   : Config
  input : List Input
  rx    : RxRegs
  buf   : Memory
  val   : ValRegs
  disp  : DispRegs
  enc   : EncRegs
  ctx   : ResponseContext
  flags : HandlerFlags
  agent : AgentState
  store : SettingsStore
  trace : Traces
  past  : List (List Byte)
  strobes : Nat
  deriving DecidableEq, Repr

/-- The result of an operation. -/
abbrev Out := Host.Outcome State Fault Refusal

/-! Reset values (R42, R320, R321; the registers the spec gives no value are zero, log 5). -/

/-- `PRE_START`; the rest DESIGN CHOICE (log 5). -/
def RxRegs.reset : RxRegs := ⟨.preStart, 0, 0, 0, false⟩
/-- DESIGN CHOICE (log 5). -/
def ValRegs.reset : ValRegs := ⟨0, .ok, 0, false, false⟩
/-- DESIGN CHOICE (log 5). -/
def DispRegs.reset : DispRegs := ⟨0, 0, 0, 0, 0, false⟩
/-- `e_busy`, `e_remaining`, `e_done` are 0 (R320); `e_sum` DESIGN CHOICE (log 5). -/
def EncRegs.reset : EncRegs := ⟨0, false, 0, false⟩
/-- DESIGN CHOICE (log 5). -/
def ResponseContext.reset : ResponseContext := ⟨0, 0, 0, 0, 0, false⟩
/-- All four 0 (R321). -/
def flagsReset : HandlerFlags := ⟨false, false, 0, false⟩
/-- All empty (R42). -/
def Traces.reset : Traces := ⟨[], [], 0, [], []⟩
/-- The store at first power-up: the fixture of 95_test_vectors.md (DESIGN CHOICE, log 10). -/
def storeReset : SettingsStore := ⟨⟨0x7A70, 0x00000001, 1, [], 0, 0, 0⟩, []⟩

/-- The machine right after reset, no input pending. `agent`, `past` and `strobes`: DESIGN CHOICE (log 34, 22, 14). -/
def State.reset : State where
  cfg   := Config.default
  input := []
  rx    := RxRegs.reset
  buf   := []
  val   := ValRegs.reset
  disp  := DispRegs.reset
  enc   := EncRegs.reset
  ctx   := ResponseContext.reset
  flags := flagsReset
  agent := []
  store := storeReset
  trace := Traces.reset
  past := []
  strobes := 0

end Sys2Proof.Machine
end

