-- ==== Sys2Proof/Machine/Operands.lean ====
section
/-! DEFINITION. Every operand form: the frame buffer's cells, bounds-checked reads (R66), the packet view, the UID and
the PID table, and the code maps of R103, R221 and R280. -/

namespace Sys2Proof.Machine

/-! The frame buffer. -/

/-- The byte a cell holds, if any frame wrote it. -/
def Memory.read : Memory → Nat → Option Byte
  | [], _ => none
  | (b, w) :: m, a => if b = a then some w else Memory.read m a

/-- Writing one cell keeps the offsets rising. -/
def Memory.write : Memory → Nat → Byte → Memory
  | [], a, v => [(a, v)]
  | (b, w) :: m, a, v =>
    if a < b then (a, v) :: (b, w) :: m
    else if a = b then (a, v) :: m
    else (b, w) :: Memory.write m a v

/-- Every offset of the list lies above `a`. -/
def Memory.above (a : Nat) (m : Memory) : Bool := m.all fun c => decide (a < c.1)

/-- The canonical form: offsets strictly rising. No entry can equal what an unlisted cell reads as, since
that is no value. -/
def Memory.wf : Memory → Bool
  | [] => true
  | (a, _) :: m => Memory.above a m && Memory.wf m

/-! Reads on behalf of the frame of `size` bytes (R66). -/

/-- `buf[a]` within the frame under processing. -/
def readByte (s : State) (a : Nat) : Except Fault Byte :=
  if a < s.val.size.toNat then
    match Memory.read s.buf a with
    | some b => .ok b
    | none => .error .readUnwritten
  else .error .bufOutOfBounds

/-- `n` bytes from offset `a` on, in order. -/
def readRun (s : State) (a : Nat) : Nat → Except Fault (List Byte)
  | 0 => .ok []
  | n + 1 =>
    match readByte s a with
    | .error f => .error f
    | .ok b =>
      match readRun s (a + 1) n with
      | .error f => .error f
      | .ok bs => .ok (b :: bs)

/-- `MemRead(a, n)` of R10: `n` bytes assembled big-endian, all of them inside the frame. -/
def memRead (s : State) (a n : Nat) : Except Fault Nat :=
  if a + n ≤ s.val.size.toNat then
    match readRun s a n with
    | .ok bs => .ok (natOfBytes bs)
    | .error f => .error f
  else .error .bufOutOfBounds

/-- `Param(i)` of R66: byte `24 + i`, only below `pdl` and only before the checksum bytes. -/
def readParam (s : State) (pdl : Byte) (i : Nat) : Except Fault Byte :=
  if i < pdl.toNat ∧ 24 + i < s.val.size.toNat - 2 then readByte s (24 + i)
  else .error .bufOutOfBounds

/-- `Param(i), Param(i+1), …`, `n` of them. -/
def readParams (s : State) (pdl : Byte) (i : Nat) : Nat → Except Fault (List Byte)
  | 0 => .ok []
  | n + 1 =>
    match readParam s pdl i with
    | .error f => .error f
    | .ok b =>
      match readParams s pdl (i + 1) n with
      | .error f => .error f
      | .ok bs => .ok (b :: bs)

/-- The invocation's request with the parameter bytes it carries (R195): the first `pdl`, as far as they come before the
checksum. -/
def requestOf (wasBroadcast : Bool) (s : State) : Except Fault Request :=
  match readRun s 0 24, readByte s 23 with
  | .ok header, .ok pdl =>
    match readParams s pdl 0 (min pdl.toNat (s.val.size.toNat - 26)) with
    | .ok params => .ok ⟨⟨header, params⟩, wasBroadcast, s.store.toStoreView, s.flags.queuedCount, s.cfg.pidTable⟩
    | .error f => .error f
  | .error f, _ => .error f
  | _, .error f => .error f

/-- What a handler that reads `reads` parameter bytes of the request, of those it declares, learns of it; a declared byte
that is missing faults (R66). -/
def requestRead (reads : Request → Nat) (wasBroadcast : Bool) (s : State) : Except Fault Request :=
  match requestOf wasBroadcast s, readByte s 23 with
  | .ok r, .ok pdl =>
    match readParams s pdl 0 (min (reads r) pdl.toNat) with
    | .ok params => .ok { r with view := ⟨r.view.header, params⟩ }
    | .error f => .error f
  | .error f, _ => .error f
  | _, .error f => .error f

/-- A request less its transaction number, byte 15: a GET handler's answer depends on the rest only, the echo being the
encoder's (R259). -/
def untagged (r : Request) : Request :=
  { r with view := ⟨r.view.header.set 15 0, r.view.params⟩ }

/-- What a GET handler that reads `reads` parameter bytes learns of the request (R197, R259). -/
def getRequest (reads : Request → Nat) (s : State) : Except Fault Request :=
  match requestRead (fun r => reads (untagged r)) false s with
  | .ok r => .ok (untagged r)
  | .error f => .error f

/-- The payload `buf[0 .. n-1]` of a frame that is emitted (R136, R138). -/
def payloadRun (m : Memory) (a : Nat) : Nat → Except Fault (List Byte)
  | 0 => .ok []
  | n + 1 =>
    match Memory.read m a with
    | none => .error .readUnwritten
    | some b =>
      match payloadRun m (a + 1) n with
      | .error f => .error f
      | .ok bs => .ok (b :: bs)

/-! Configuration inputs. -/

/-- `UID[0..5]`: manufacturer id, then serial number (R35). -/
def uidOf (st : SettingsStore) : Uid := st.estaId ++ st.serialNumber

/-- The table entry at an index (R37, R60). -/
def tableEntry (c : Config) (i : Nat) : Except Fault PidDefinition :=
  match c.pidTable[i]? with
  | some e => .ok e
  | none => .error .noTableEntry

/-- The PIDs the supported-parameters GET lists, in table order (R107, R252). -/
def includedPids (c : Config) : List Word16 :=
  (c.pidTable.filter fun e => e.included).map fun e => e.pid

/-- The linear scan of R183 from index `i` on: the last match wins. -/
def scanTable (pid : Word16) : List PidDefinition → Nat → Option Nat → Option Nat
  | [], _, best => best
  | e :: es, i, best => scanTable pid es (i + 1) (if e.pid = pid then some i else best)

/-- The status code of a kind (R103, R280). -/
def statusCodeOf (c : Config) : StatusKind → Byte
  | .tooShort | .badStartCode | .badLength => c.statusFailed
  | .badChecksum => c.statusFailedChecksum
  | .wrongDestination => c.statusInvalidDestination
  | .invalidCommandClass => c.statusInvalidCommand
  | .broadcastNoReply => c.statusBroadcast

/-- `STATUS_ON_WIRE(k)` (D10, R290). -/
def onWire (c : Config) (k : StatusKind) : Bool := !c.silentKinds.contains k

/-- `RespCC` of R221; free for a class other than GET and SET (log 15). -/
def respCc (cc : Byte) : Byte :=
  if cc = 0x20 then 0x21 else if cc = 0x30 then 0x31 else Config.respCcOpen cc

/-- Response types (R101). -/
def rtAckCode : Byte := 0
/-- See `rtAckCode`. -/
def rtAckTimerCode : Byte := 1
/-- See `rtAckCode`. -/
def rtNackCode : Byte := 2

/-- NACK reasons (R102). -/
def unknownPidReason : Word16 := 0
/-- See `unknownPidReason`. -/
def formatErrorReason : Word16 := 1
/-- See `unknownPidReason`. -/
def unsupportedClassReason : Word16 := 5
/-- See `unknownPidReason`. -/
def outOfRangeReason : Word16 := 6
/-- See `unknownPidReason`. -/
def subDeviceReason : Word16 := 9

/-- The stored value a settled GET returns (R258). -/
def fieldValue (st : SettingsStore) (fl : HandlerFlags) : StoreField → FieldValue
  | .startAddress => .number st.startAddress.toNat
  | .personality => .number st.personality
  | .powerCycles => .number st.powerCycles
  | .sensorValue => .number st.sensorValue
  | .serialNumber => .number st.serialNumber.toNat
  | .deviceLabel => .bytes st.deviceLabel
  | .identify => .number fl.identifyEnabled.toNat

/-- The reply bytes of a stored value, for the argument bytes read, within `PDL_MAX` (R258, R333; log 11). -/
def fieldReply (f : StoreField) (v : FieldValue) (args : List Byte) : WireFormat → List Byte
  | .plain n =>
    (match v with
      | .number k => bytesOfNat n k
      | .bytes bs => bs).take pdlMax
  | .unspecified => (Config.fieldBytes f v args).take pdlMax

/-- One setter call (R262): the field is replaced at once; the label's non-volatile copy waits (R261). -/
def applyWrite (w : StoreWrite) (st : SettingsStore) : SettingsStore :=
  match w with
  | .startAddress v => { st with startAddress := v }
  | .serialNumber v => { st with serialNumber := v }
  | .deviceLabel bs => { st with deviceLabel := bs }
  | .personality v => { st with personality := v }
  | .sensorValue v => { st with sensorValue := v }
  | .powerCycles v => { st with powerCycles := v }

/-- Setter calls in order. -/
def applyWrites (ws : List StoreWrite) (st : SettingsStore) : SettingsStore :=
  ws.foldl (fun st w => applyWrite w st) st

/-- The value a SET of a named field writes (R258): the identify flag, or a store field. -/
def writeNamedField (f : SetField) (v : Nat) (s : State) : State :=
  match f with
  | .identify => { s with flags.identifyEnabled := decide (v ≠ 0) }
  | .personality => { s with store := applyWrite (.personality v) s.store }
  | .powerCycles => { s with store := applyWrite (.powerCycles v) s.store }
  | .sensorValue => { s with store := applyWrite (.sensorValue v) s.store }

end Sys2Proof.Machine
end

