-- ==== Sys2Proof/Machine/Flags.lean ====
section
/-! DEFINITION. Every flag computation: the overflow flag (R31), the broadcast flag (R32, R166), the destination match
(R167), the checksum test (R164) and the encoder's flags (R33, R224). -/

namespace Sys2Proof.Machine

/-- `rx_ovf` (R31, R134): the declared length exceeds the buffer. -/
def overflowFlag (c : Config) (len : Word16) : Bool := decide (c.frameCap < len.toNat)

/-- The broadcast pattern of R166: the device-id bytes are all ones. -/
def broadcastFlag (deviceId : Word32) : Bool := decide (deviceId = 0xFFFFFFFF)

/-- `matchesEstaId` and `matchesSerialNumber` on the destination UID (R167, R262): byte-wise equality with
the big-endian bytes of both fields. -/
def matchesUid (st : SettingsStore) (dst : Uid) : Bool := decide (dst = uidOf st)

/-- The sum of check 4 after one more byte (R164). -/
def sumByte (acc : Word16) (b : Byte) : Word16 := acc + b.setWidth 16

/-- Check 4 compares high and low byte (R164). -/
def checksumMatches (sum : Word16) (hi lo : Byte) : Bool :=
  decide (hiByte sum = hi) && decide (loByte sum = lo)

/-- Why a response may not be opened, in the order of R224's list (log 16). -/
def openFault (s : State) (pdl : Nat) : Option Fault :=
  if s.enc.busy then some .encoderBusy
  else if s.enc.done then some .secondOutcome
  else if s.ctx.bcast then some .replyToBroadcast
  else if pdlMax < pdl then some .pdlTooLong
  else none

/-- Why `n` parameter bytes may not be sent (R212 to R214, R224). -/
def sendFault (s : State) (n : Nat) : Option Fault :=
  if !s.enc.busy then some .noResponseOpen
  else if s.enc.remaining.toNat < n then some .paramOverrun
  else none

/-- Why a response may not be closed (R215, R224). -/
def closeFault (s : State) : Option Fault :=
  if !s.enc.busy then some .noResponseOpen
  else if s.enc.remaining ≠ 0 then some .paramUnderrun
  else none

/-- Why a status may not be reported (R290, R224). -/
def statusFault (s : State) : Option Fault :=
  if s.enc.busy then some .encoderBusy
  else if s.enc.done then some .secondOutcome
  else none

/-- A terminal outcome has been produced and no response is open (R139, R196). -/
def outcomeReached (s : State) : Bool := s.enc.done && !s.enc.busy

end Sys2Proof.Machine
end

