-- ==== Sys2Proof/Machine/Ops.lean ====
section
/-! DEFINITION. The named operations the meanings are made of: sequencing, TX, the frame buffer's write, the one
operation behind every status (R290, this block's taking of an exception), egress encoding, the response encoder
(R210 to R220), the idle strobe and reset. There is no return operation (R288). -/

namespace Sys2Proof.Machine

/-! Sequencing. -/

/-- Go on with the next state. -/
def andThen (o : Out) (k : State → Out) : Out :=
  match o with
  | .next s => k s
  | .fault f => .fault f
  | .refused r => .refused r

/-- Go on with a value read, or stop with the read's fault. -/
def withRead {α : Type} (r : Except Fault α) (k : α → Out) : Out :=
  match r with
  | .ok a => k a
  | .error f => .fault f

/-- A step of the pipeline: it goes on with a state, or ends the frame's processing (`raise Status`, `stop`) with
an outcome. -/
inductive Flow where
  | go (s : State)
  | stop (o : Out)

/-- The next step of the pipeline. -/
def Flow.andThen (f : Flow) (k : State → Flow) : Flow :=
  match f with
  | .go s => k s
  | .stop o => .stop o

/-- Go on with a value read, or stop. -/
def Flow.withRead {α : Type} (r : Except Fault α) (k : α → Flow) : Flow :=
  match r with
  | .ok a => k a
  | .error f => .stop (.fault f)

/-- What a step run alone leaves. -/
def Flow.out : Flow → Out
  | .go s => .next s
  | .stop o => o

/-- Stop with a named fault if there is a reason to. -/
def unlessFault (r : Option Fault) (o : Out) : Out :=
  match r with
  | some f => .fault f
  | none => o

/-! TX and the buffer. -/

/-- `Tx` of R10, several bytes in order: TX always accepts (R63). -/
def tx (bs : List Byte) (s : State) : State :=
  { s with trace.tx := s.trace.tx ++ bs }

/-- `TxAcc` of R10. -/
def txAcc (b : Byte) (s : State) : State :=
  { tx [b] s with enc.sum := sumByte s.enc.sum b }

/-- `TxAcc`, several bytes in order. -/
def txAccAll : List Byte → State → State
  | [], s => s
  | b :: bs, s => txAccAll bs (txAcc b s)

/-- `MemWrite(a, 1, v)`: the buffer has offsets below `FRAME_CAP` only (R25, R68). -/
def memWrite (a : Nat) (v : Byte) (s : State) : Out :=
  if a < s.cfg.frameCap then .next { s with buf := Memory.write s.buf a v }
  else .fault .bufOutOfBounds

/-! Statuses. -/

/-- The state changes of `Status(k)` (R290, R286): the log entry, the six bytes if the kind goes on the wire, and
`e_done`. -/
def withStatus (k : StatusKind) (s : State) : State :=
  { s with
    trace.statusLog := s.trace.statusLog ++ [k]
    trace.tx := s.trace.tx ++
      (if onWire s.cfg k then statusFrameBytes (statusCodeOf s.cfg k) else [])
    enc.done := true }

/-- `Status(k)`, R290. -/
def takeStatus (k : StatusKind) (s : State) : Out :=
  unlessFault (statusFault s) (.next (withStatus k s))

/-- `raise Status(k)` of R10: the frame's processing ends. -/
def raiseStatus (k : StatusKind) (s : State) : Flow := .stop (takeStatus k s)

/-! Egress, R150 and R151. -/

/-- `encode(label, payload)`. -/
def encodeFrame (label : Byte) (payload : List Byte) (s : State) : Out :=
  if s.enc.busy then .fault .encoderBusy
  else if 65535 < payload.length then .fault .encodeTooLong
  else .next (tx (frameBytes label payload) s)

/-- The application's calls of `encode`, in order (R140, R330). -/
def encodeCalls : List EncodeCall → State → Out
  | [], s => .next s
  | c :: cs, s => andThen (encodeFrame c.label c.payload s) (encodeCalls cs)

/-! The response encoder. -/

/-- The status-ok marker of R211, accumulated only if it is zero (R222). -/
def statusMarker (s : State) : State :=
  if s.cfg.statusOk = 0 then txAcc s.cfg.statusOk s else tx [s.cfg.statusOk] s

/-- The reply fields a response takes from the request and the configuration (R211): they are held in the
`ResponseContext` (R30, log 17). -/
def replyFieldsOf (s : State) (rt cc : Byte) (pid : Word16) (data : List Byte) : ReplyFields where
  dst := s.ctx.dst
  src := uidOf s.store
  tn := s.ctx.tn
  rt := rt
  mc := s.flags.queuedCount
  sub := s.ctx.sub
  cc := cc
  pid := pid
  data := data

/-- The body of `startResponse` for given header fields (R211). -/
def openReply (f : ReplyFields) (pdl : Nat) (s : State) : Out :=
  unlessFault (openFault s pdl) <|
    let s := { s with enc.sum := 0 }
    let s := tx (frameHeader rdmLabel (27 + pdl)) s
    let s := statusMarker s
    let s := txAccAll (packetHeader f pdl) s
    .next { s with enc.busy := true, enc.remaining := BitVec.ofNat 9 pdl }

/-- `startResponse`, R211. -/
def startReply (rt : Byte) (pdl : Nat) (cc : Byte) (pid : Word16) (s : State) : Out :=
  openReply (replyFieldsOf s rt cc pid []) pdl s

/-- `TxAcc(v); e_remaining <- e_remaining - 1` (R212), its requirement checked by the caller. -/
def putCounted (v : Byte) (s : State) : State :=
  { txAcc v s with enc.remaining := s.enc.remaining - 1 }

/-- `sendByte`, R212. -/
def putByte (v : Byte) (s : State) : Out :=
  unlessFault (sendFault s 1) (.next (putCounted v s))

/-- `sendByte` of each byte in order. -/
def putBytes : List Byte → State → Out
  | [], s => .next s
  | b :: bs, s => andThen (putByte b s) (putBytes bs)

/-- `sendInt`, R213. -/
def putInt (v : Word16) (s : State) : Out :=
  unlessFault (sendFault s 2) (putBytes (bytes16 v) s)

/-- `sendInt` of each value in order. -/
def putInts : List Word16 → State → Out
  | [], s => .next s
  | v :: vs, s => andThen (putInt v s) (putInts vs)

/-- `sendLong`, R214. -/
def putLong (v : Word32) (s : State) : Out :=
  unlessFault (sendFault s 4) (putBytes (bytes32 v) s)

/-- `endResponse`, R215. -/
def closeReply (s : State) : Out :=
  unlessFault (closeFault s) <|
    let s := tx (bytes16 s.enc.sum) s
    let s := tx [eomByte] s
    .next { s with enc.busy := false, enc.done := true }

/-- A whole response of given parameter bytes: `startResponse`, the sends, `endResponse` (R210). -/
def sendReply (rt cc : Byte) (pid : Word16) (data : List Byte) (s : State) : Out :=
  andThen (startReply rt data.length cc pid s) fun s =>
    andThen (putBytes data s) closeReply

/-- `sendEmptyAck`, R216. -/
def emptyAck (s : State) : Out :=
  andThen (startReply rtAckCode 0 s.ctx.cc s.ctx.pid s) closeReply

/-- `sendNack`, R217. -/
def nack (reason : Word16) (s : State) : Out :=
  andThen (startReply rtNackCode 2 s.ctx.cc s.ctx.pid s) fun s =>
    andThen (putInt reason s) closeReply

/-- `sendAckTimer`, R218. -/
def ackTimer (delay : Word16) (s : State) : Out :=
  andThen (startReply rtAckTimerCode 2 s.ctx.cc s.ctx.pid s) fun s =>
    andThen (putInt delay s) closeReply

/-- `REPORT_STATUS`, R220. -/
def reportKind (k : StatusKind) (s : State) : Out :=
  if k ≠ .broadcastNoReply ∨ s.ctx.bcast = false then .fault .badStatusReport
  else takeStatus k s

/-- `nackOrBroadcast`, R219. -/
def nackOrSilent (wasBroadcast : Bool) (reason : Word16) (s : State) : Out :=
  if wasBroadcast then reportKind .broadcastNoReply s else nack reason s

/-- The body of one handler-port command (R106). -/
def runPort (c : PortCommand) (s : State) : Out :=
  match c with
  | .startResponse rt pdl cc pid => startReply rt pdl.toNat cc pid s
  | .sendByte v => putByte v s
  | .sendInt v => putInt v s
  | .sendLong v => putLong v s
  | .endResponse => closeReply s
  | .sendEmptyAck => emptyAck s
  | .sendNack reason => nack reason s
  | .sendAckTimer delay => ackTimer delay s
  | .nackOrBroadcast wb reason => nackOrSilent wb reason s
  | .reportStatus k => reportKind k s
  | .reserved _ => .fault .badHandlerCommand

/-- A script of port commands (R195). -/
def runPorts : List PortCommand → State → Out
  | [], s => .next s
  | c :: cs, s => andThen (runPort c s) (runPorts cs)

/-- One action of a handler agent (R195, R250). -/
def runAction (a : AgentAction) (s : State) : Out :=
  match a with
  | .port c => runPort c s
  | .write w => .next { s with store := applyWrite w s.store }
  | .flags f => .next { s with flags := f }
  | .own a => .next { s with agent := a }
  | .param i => withRead (readByte s 23) fun pdl => withRead (readParam s pdl i) fun _ => .next s

/-- A sequence of agent actions (R195, R250). -/
def runActions : List AgentAction → State → Out
  | [], s => .next s
  | a :: as, s => andThen (runAction a s) (runActions as)

/-! Idle and reset. -/

/-- `Idle()` of R10 and R130: one strobe; the store's callback may commit the deferred label (R261; free in the strobe's
number, log 14); the application's callback may call `encode` (R330). -/
def idleStrobe (s : State) : Out :=
  encodeCalls s.cfg.idleCalls
    { s with
      trace.idleLog := s.trace.idleLog + 1
      strobes := s.strobes + 1
      store.committedLabel :=
        if Config.commitsAtIdle s.strobes then s.store.deviceLabel else s.store.committedLabel }

/-- Reset of a running machine (R320, R321, R322; log 22): the block, the flags, the agent's own state and the traces take
their reset values, the store persists less the label not yet committed, the inputs still to come stay, and what TX had
carried joins `past`. Nothing increments the store's power-cycle counter here: who does is not in the source (N19, R293;
log 35). -/
def resetBlock (s : State) : State :=
  { State.reset with
    cfg := s.cfg
    input := s.input
    store := { s.store with deviceLabel := s.store.committedLabel }
    past := s.past ++ [s.trace.tx]
    strobes := s.strobes }

/-- Reset while an event that began in `s` and would end as `o` is under way, when `sent` bytes of what it puts on TX have
gone out (R322): the rest never goes out (log 22). -/
def strike (sent : Nat) (s : State) (o : Out) : Out :=
  andThen o fun t =>
    .next (resetBlock { t with trace.tx := t.trace.tx.take (s.trace.tx.length + sent) })

end Sys2Proof.Machine
end

