-- ==== Sys2Proof/Machine/Codes.lean ====
section
/-! DEFINITION. The code rows the block sends: response types (R101), NACK reasons (R102) and status codes (R103). The
meaning of such a row is the emission of its code at the place the table names (log 4, log 21, log 36). -/

namespace Sys2Proof.Machine

/-- A status frame with a given code (R98), outside the outcome of a frame; nothing else may write TX while a response is
open (R330; log 21). -/
def codeFrame (code : Byte) (s : State) : Out :=
  if s.enc.busy then .fault .encoderBusy else .next (tx (statusFrameBytes code) s)

/-- RT_ACK: `TxAcc(rt)` at reply offset 16 (R101, R211), uncounted; that it runs alone whatever `e_busy` is, is DESIGN
CHOICE (R210; log 36). -/
def execRtAck (s : State) : Out := .next (txAcc rtAckCode s)

/-- RT_ACK_TIMER: `TxAcc(rt)` at reply offset 16 (R101, R211), uncounted; that it runs alone whatever `e_busy` is, is DESIGN
CHOICE (R210; log 36). -/
def execRtAckTimer (s : State) : Out := .next (txAcc rtAckTimerCode s)

/-- RT_NACK: `TxAcc(rt)` at reply offset 16 (R101, R211), uncounted; that it runs alone whatever `e_busy` is, is DESIGN
CHOICE (R210; log 36). -/
def execRtNack (s : State) : Out := .next (txAcc rtNackCode s)

/-- NR_UNKNOWN_PID: the NACK whose parameter data is this reason (R102, R217). -/
def execNrUnknownPid (s : State) : Out := nack unknownPidReason s

/-- NR_FORMAT_ERROR: the NACK whose parameter data is this reason (R102, R217). -/
def execNrFormatError (s : State) : Out := nack formatErrorReason s

/-- NR_UNSUPPORTED_COMMAND_CLASS: the NACK whose parameter data is this reason (R102, R217). -/
def execNrUnsupportedCommandClass (s : State) : Out := nack unsupportedClassReason s

/-- NR_DATA_OUT_OF_RANGE: the NACK whose parameter data is this reason (R102, R217). -/
def execNrDataOutOfRange (s : State) : Out := nack outOfRangeReason s

/-- NR_SUB_DEVICE_OUT_OF_RANGE: the NACK whose parameter data is this reason (R102, R217). -/
def execNrSubDeviceOutOfRange (s : State) : Out := nack subDeviceReason s

/-- STATUS_OK: the status-ok marker that heads a reply frame (R103, R211, R222), uncounted; that it runs alone whatever
`e_busy` is, is DESIGN CHOICE (R210; log 36). -/
def execStatusOk (s : State) : Out := .next (statusMarker s)

/-- STATUS_BROADCAST: the status frame with this code (R98, R103). -/
def execStatusBroadcast (s : State) : Out := codeFrame s.cfg.statusBroadcast s

/-- STATUS_FAILED: the status frame with this code (R98, R103). -/
def execStatusFailed (s : State) : Out := codeFrame s.cfg.statusFailed s

/-- STATUS_FAILED_CHECKSUM: the status frame with this code (R98, R103). -/
def execStatusFailedChecksum (s : State) : Out := codeFrame s.cfg.statusFailedChecksum s

/-- STATUS_INVALID_DESTINATION: the status frame with this code (R98, R103). -/
def execStatusInvalidDestination (s : State) : Out := codeFrame s.cfg.statusInvalidDestination s

/-- STATUS_INVALID_COMMAND: the status frame with this code (R98, R103). -/
def execStatusInvalidCommand (s : State) : Out := codeFrame s.cfg.statusInvalidCommand s

end Sys2Proof.Machine
end

