-- ==== Sys2Proof/Machine/Encoder.lean ====
section
/-! DEFINITION. ENCODE, STATUS, REPLY and the handler-port commands (R97, R106, R150, R211 to R220, R290). -/

namespace Sys2Proof.Machine

/-- ENCODE: `encode(label, payload)`, R150 and R151. -/
def execEncode (label : Byte) (payload : List Byte) (s : State) : Out := encodeFrame label payload s

/-- STATUS: `Status(k)`, R290. -/
def execStatus (k : StatusKind) (s : State) : Out := takeStatus k s

/-- REPLY: the reply frame of R97 with these fields, opened, filled and closed by the encoder (R210). -/
def execReply (f : ReplyFields) (s : State) : Out :=
  andThen (openReply f f.data.length s) fun s => andThen (putBytes f.data s) closeReply

/-- START_RESPONSE, R211. -/
def execStartResponse (rt pdl cc : Byte) (pid : Word16) (s : State) : Out :=
  startReply rt pdl.toNat cc pid s

/-- SEND_BYTE, R212. -/
def execSendByte (v : Byte) (s : State) : Out := putByte v s

/-- SEND_INT, R213. -/
def execSendInt (v : Word16) (s : State) : Out := putInt v s

/-- SEND_LONG, R214. -/
def execSendLong (v : Word32) (s : State) : Out := putLong v s

/-- END_RESPONSE, R215. -/
def execEndResponse (s : State) : Out := closeReply s

/-- SEND_EMPTY_ACK, R216. -/
def execSendEmptyAck (s : State) : Out := emptyAck s

/-- SEND_NACK, R217. -/
def execSendNack (reason : Word16) (s : State) : Out := nack reason s

/-- SEND_ACK_TIMER, R218. -/
def execSendAckTimer (delay : Word16) (s : State) : Out := ackTimer delay s

/-- NACK_OR_BROADCAST, R219. -/
def execNackOrBroadcast (wasBroadcast : Bool) (reason : Word16) (s : State) : Out :=
  nackOrSilent wasBroadcast reason s

/-- REPORT_STATUS, R220. -/
def execReportStatus (k : StatusKind) (s : State) : Out := reportKind k s

/-- Handler-port codes `0xA` and `0xB` are reserved: `raise Fault(BadHandlerCommand)`, R106. -/
def execHandlerReservedAB (_low : BitVec 1) (_s : State) : Out := .fault .badHandlerCommand

/-- Handler-port codes `0xC` to `0xF` are reserved: `raise Fault(BadHandlerCommand)`, R106. -/
def execHandlerReservedCF (_low : BitVec 2) (_s : State) : Out := .fault .badHandlerCommand

end Sys2Proof.Machine
end

