-- ==== Sys2Proof/Machine/Handlers.lean ====
section
/-! DEFINITION. The handler agent behind the handler port: the handlers the spec settles (R252 to R257), the free answers
of the others (R258), and the parameter agent of R195, free or as a script. -/

namespace Sys2Proof.Machine

/-- How a SET handler ends a change it made: an empty ACK, or the suppressed reply of a broadcast (R198). -/
def setDone (wasBroadcast : Bool) (s : State) : Out :=
  if wasBroadcast then reportKind .broadcastNoReply s else emptyAck s

/-- GET of the supported parameters, R252. -/
def supportedParametersGet (s : State) : Out :=
  andThen (startReply rtAckCode (2 * (includedPids s.cfg).length) s.ctx.cc s.ctx.pid s) fun s =>
    andThen (putInts (includedPids s.cfg) s) closeReply

/-- SET of the device label, R253. The flags change after the reply is built. -/
def deviceLabelSet (wasBroadcast : Bool) (s : State) : Out :=
  withRead (readByte s 23) fun pdl =>
    if s.cfg.labelMax < pdl.toNat then nackOrSilent wasBroadcast formatErrorReason s
    else
      withRead (readParams s pdl 0 pdl.toNat) fun label =>
        let s := { s with store := applyWrite (.deviceLabel label) s.store }
        if wasBroadcast then reportKind .broadcastNoReply s
        else
          andThen (ackTimer s.cfg.labelAckDelay s) fun s =>
            .next { s with
              flags.queuedCount :=
                if s.flags.labelPending then s.flags.queuedCount else s.flags.queuedCount + 1
              flags.labelPending := true }

/-- GET of the queued message while a result is pending, R254. The flags change before the reply is built. -/
def queuedConfirmation (s : State) : Out :=
  sendReply rtAckCode 0x31 s.cfg.pidDeviceLabel []
    { s with
      flags.labelPending := false
      flags.queuedCount := s.flags.queuedCount - 1
      flags.lastMessageSent := true }

/-- GET of the queued message while none is pending, R255. -/
def emptyStatusMessages (s : State) : Out :=
  sendReply rtAckCode 0x21 s.cfg.pidStatusMessages [] s

/-- GET of the queued message: R254 or R255, as `label_pending` says. -/
def queuedMessageGet (s : State) : Out :=
  if s.flags.labelPending then queuedConfirmation s else emptyStatusMessages s

/-- SET of the DMX start address, R256. -/
def startAddressSet (wasBroadcast : Bool) (s : State) : Out :=
  withRead (readByte s 23) fun pdl =>
    if pdl ≠ 2 then nackOrSilent wasBroadcast formatErrorReason s
    else
      withRead (readParam s pdl 0) fun hi =>
      withRead (readParam s pdl 1) fun lo =>
        if be16 hi lo = 0 ∨ s.cfg.startAddressMax < (be16 hi lo).toNat then
          nackOrSilent wasBroadcast outOfRangeReason s
        else setDone wasBroadcast { s with store := applyWrite (.startAddress (be16 hi lo)) s.store }

/-- SET of the serial number, R257: the all-ones value is refused; the reply carries the new number. -/
def serialNumberSet (wasBroadcast : Bool) (s : State) : Out :=
  withRead (readByte s 23) fun pdl =>
    if pdl ≠ 4 then nackOrSilent wasBroadcast formatErrorReason s
    else
      withRead (readParam s pdl 0) fun a =>
      withRead (readParam s pdl 1) fun b =>
      withRead (readParam s pdl 2) fun c =>
      withRead (readParam s pdl 3) fun d =>
        if be32 a b c d = 0xFFFFFFFF then nackOrSilent wasBroadcast outOfRangeReason s
        else setDone wasBroadcast { s with store := applyWrite (.serialNumber (be32 a b c d)) s.store }

/-- GET of a stored value the document names (R258). Whether it examines an argument that the request declares (the sensor
value's `get_arg_len` is 1) and may refuse it (R197) is not in the source: it is free (DESIGN CHOICE, log 33). -/
def fieldGet (f : StoreField) (w : WireFormat) (s : State) : Out :=
  withRead (readByte s 23) fun pdl =>
    let answer (args : List Byte) : Out :=
      sendReply rtAckCode s.ctx.cc s.ctx.pid (fieldReply f (fieldValue s.store s.flags f) args w) s
    if pdl = 0 then answer []
    else
      withRead (getRequest (Config.fieldGetReads f) s) fun r =>
        match Config.fieldRefusal f r with
        | some reason => nack reason s
        | none => answer r.view.params

/-- GET of a handler the document does not give: a free answer within the contract (R196, R197, R258, R333; log 11). -/
def otherGet (id : Nat) (s : State) : Out :=
  withRead (getRequest (Config.otherGetReads id) s) fun r =>
    match Config.getAnswer id r with
    | .data bs => sendReply rtAckCode s.ctx.cc s.ctx.pid (bs.take pdlMax) s
    | .nack reason => nack reason s

/-- SET of a value the document names but does not lay out: the pattern of R256 with a free verdict (R258; log 11). -/
def fieldSet (f : SetField) (wasBroadcast : Bool) (s : State) : Out :=
  withRead (requestRead (Config.fieldSetReads f) wasBroadcast s) fun r =>
    match Config.fieldVerdict f r with
    | .formatError => nackOrSilent wasBroadcast formatErrorReason s
    | .dataOutOfRange => nackOrSilent wasBroadcast outOfRangeReason s
    | .accept v => setDone wasBroadcast (writeNamedField f v s)

/-- SET of a handler the document does not give (R258; log 11). -/
def otherSet (id : Nat) (wasBroadcast : Bool) (s : State) : Out :=
  withRead (requestRead (Config.otherSetReads id) wasBroadcast s) fun r =>
    match Config.setVerdict id r with
    | .formatError => nackOrSilent wasBroadcast formatErrorReason s
    | .dataOutOfRange => nackOrSilent wasBroadcast outOfRangeReason s
    | .accept ws => setDone wasBroadcast { s with store := applyWrites ws s.store }

/-- The parameter agent of R195: what it does is a free function of the request, its own state and the flags (log 12). -/
def agentRun (id : Nat) (wasBroadcast : Bool) (s : State) : Out :=
  withRead (requestOf wasBroadcast s) fun r => runActions (Config.agentActions id r s.agent s.flags) s

/-- `Invoke` of a GET behaviour (R189, R195). -/
def runGet (b : GetBehaviour) (s : State) : Out :=
  match b with
  | .supportedParameters => supportedParametersGet s
  | .queuedMessage => queuedMessageGet s
  | .readField f w => fieldGet f w s
  | .other id => otherGet id s
  | .script cmds => runPorts cmds s
  | .agent id => agentRun id false s

/-- `Invoke` of a SET behaviour (R191, R195). -/
def runSet (b : SetBehaviour) (wasBroadcast : Bool) (s : State) : Out :=
  match b with
  | .deviceLabel => deviceLabelSet wasBroadcast s
  | .startAddress => startAddressSet wasBroadcast s
  | .serialNumber => serialNumberSet wasBroadcast s
  | .writeField f => fieldSet f wasBroadcast s
  | .other id => otherSet id wasBroadcast s
  | .script acts => runActions acts s
  | .agent id => agentRun id wasBroadcast s

/-- The handler returns: it owes exactly one outcome and no open response (R196). -/
def handlerReturn (s : State) : Out :=
  if outcomeReached s then .next s else .fault .noOutcome

/-- GET_SUPPORTED_PARAMETERS, R252. -/
def execGetSupportedParameters (s : State) : Out := supportedParametersGet s

/-- SET_DEVICE_LABEL, R253, for the request in `buf`. -/
def execSetDeviceLabel (s : State) : Out := deviceLabelSet s.val.isBroadcast s

/-- GET_QUEUED_MESSAGE_PENDING: the request is that of GET_QUEUED_MESSAGE_IDLE, `label_pending` selects R254 or R255
(log 24). -/
def execGetQueuedMessagePending (s : State) : Out := queuedMessageGet s

/-- GET_QUEUED_MESSAGE_IDLE: see `execGetQueuedMessagePending`. -/
def execGetQueuedMessageIdle (s : State) : Out := queuedMessageGet s

/-- SET_DMX_START_ADDRESS, R256. -/
def execSetDmxStartAddress (s : State) : Out := startAddressSet s.val.isBroadcast s

/-- SET_SERIAL_NUMBER, R257. -/
def execSetSerialNumber (s : State) : Out := serialNumberSet s.val.isBroadcast s

end Sys2Proof.Machine
end

