-- ==== Sys2Proof/Machine/Dispatcher.lean ====
section
/-! DEFINITION. The PID dispatcher (R180 to R191) and the command-class rows. -/

namespace Sys2Proof.Machine

/-- On entry the dispatcher loads the `ResponseContext` (R30, R180). -/
def loadContext (s : State) : Flow :=
  Flow.withRead (memRead s 9 6) fun dst =>
  Flow.withRead (readByte s 15) fun tn =>
  Flow.withRead (memRead s 18 2) fun sub =>
  Flow.withRead (readByte s 20) fun cc =>
  Flow.withRead (memRead s 21 2) fun pid =>
    .go { s with
      ctx := { dst := BitVec.ofNat 48 dst, tn := tn, sub := BitVec.ofNat 16 sub, cc := respCc cc,
               pid := BitVec.ofNat 16 pid, bcast := s.val.isBroadcast } }

/-- Step 1, R181. -/
def ccCheck (s : State) : Flow :=
  Flow.withRead (readByte s 20) fun cc =>
    let s := { s with disp.cc := cc }
    if cc ≠ 0x20 ∧ cc ≠ 0x30 then raiseStatus .invalidCommandClass s else .go s

/-- Step 2, R182. -/
def subDeviceRange (s : State) : Flow :=
  Flow.withRead (memRead s 18 2) fun v =>
    let s := { s with disp.sub := BitVec.ofNat 16 v }
    if s.disp.sub ≠ 0x0000 ∧ s.disp.sub ≠ 0xFFFF then
      .stop (nackOrSilent s.val.isBroadcast subDeviceReason s)
    else .go s

/-- Step 3, the lookup, R183: `d_idx` keeps its value when nothing matches. -/
def pidLookup (s : State) : Flow :=
  Flow.withRead (memRead s 21 2) fun v =>
    let s := { s with disp.pid := BitVec.ofNat 16 v }
    match scanTable s.disp.pid s.cfg.pidTable 0 none with
    | some i => .go { s with disp.found := true, disp.idx := i }
    | none => .go { s with disp.found := false }

/-- Step 3, unknown PID, R184. -/
def unknownPid (s : State) : Flow :=
  if s.disp.found then .go s else .stop (nackOrSilent s.val.isBroadcast unknownPidReason s)

/-- GET without a GET handler, R185. -/
def getNoHandler (s : State) : Flow :=
  Flow.withRead (tableEntry s.cfg s.disp.idx) fun e =>
    if e.get.isSome then .go s else .stop (nackOrSilent s.val.isBroadcast unsupportedClassReason s)

/-- GET, broadcast, R186. -/
def getBroadcast (s : State) : Flow :=
  if s.val.isBroadcast then .stop (takeStatus .broadcastNoReply s) else .go s

/-- GET, sub-device not the root, R187. -/
def getSubDevice (s : State) : Flow :=
  if s.disp.sub ≠ 0x0000 then .stop (nack subDeviceReason s) else .go s

/-- GET, argument size, R188: the declared length is compared. -/
def getArgSize (s : State) : Flow :=
  Flow.withRead (tableEntry s.cfg s.disp.idx) fun e =>
  Flow.withRead (readByte s 23) fun pdl =>
    let s := { s with disp.pdl := pdl }
    if pdl ≠ e.getArgLen then .stop (nack formatErrorReason s) else .go s

/-- GET, invoke, R189. -/
def getInvoke (s : State) : Flow :=
  Flow.withRead (tableEntry s.cfg s.disp.idx) fun e =>
    match e.get with
    | none => .stop (.fault .noHandler)
    | some b =>
      .stop (andThen
        (runGet b { s with trace.handlerLog := s.trace.handlerLog ++ [.get s.disp.idx] })
        handlerReturn)

/-- SET without a SET handler, R190. -/
def setNoHandler (s : State) : Flow :=
  Flow.withRead (tableEntry s.cfg s.disp.idx) fun e =>
    if e.set.isSome then .go s else .stop (nackOrSilent s.val.isBroadcast unsupportedClassReason s)

/-- SET, invoke, R191. -/
def setInvoke (s : State) : Flow :=
  Flow.withRead (tableEntry s.cfg s.disp.idx) fun e =>
    match e.set with
    | none => .stop (.fault .noHandler)
    | some b =>
      .stop (andThen
        (runSet b s.val.isBroadcast
          { s with trace.handlerLog := s.trace.handlerLog ++ [.set s.disp.idx s.val.isBroadcast] })
        handlerReturn)

/-- The GET path, R185 to R189 in that order. -/
def getPath (s : State) : Flow :=
  ((((getNoHandler s).andThen getBroadcast).andThen getSubDevice).andThen getArgSize).andThen getInvoke

/-- The SET path, R190 and R191. -/
def setPath (s : State) : Flow := (setNoHandler s).andThen setInvoke

/-- `Dispatch()`, R180. -/
def dispatch (s : State) : Flow :=
  ((((loadContext s).andThen ccCheck).andThen subDeviceRange).andThen pidLookup).andThen unknownPid
    |>.andThen fun s => if s.disp.cc = 0x20 then getPath s else setPath s

/-- CC_GET: the GET path for the entry the lookup found (R185 to R189; log 4). -/
def execCcGet (s : State) : Out := (getPath s).out

/-- CC_GET_RESPONSE in a request is rejected (R100, R181). -/
def execCcGetResponse (s : State) : Out := (raiseStatus .invalidCommandClass s).out

/-- CC_SET: the SET path for the entry the lookup found (R190, R191; log 4). -/
def execCcSet (s : State) : Out := (setPath s).out

/-- CC_SET_RESPONSE in a request is rejected (R100, R181). -/
def execCcSetResponse (s : State) : Out := takeStatus .invalidCommandClass s

/-- DISPATCH_CC_CHECK. -/
def execDispatchCcCheck (s : State) : Out := (ccCheck s).out

/-- DISPATCH_SUBDEVICE_RANGE. -/
def execDispatchSubdeviceRange (s : State) : Out := (subDeviceRange s).out

/-- DISPATCH_UNKNOWN_PID. -/
def execDispatchUnknownPid (s : State) : Out := (unknownPid s).out

/-- DISPATCH_GET_NO_HANDLER. -/
def execDispatchGetNoHandler (s : State) : Out := (getNoHandler s).out

/-- DISPATCH_GET_BROADCAST. -/
def execDispatchGetBroadcast (s : State) : Out := (getBroadcast s).out

/-- DISPATCH_GET_SUBDEVICE. -/
def execDispatchGetSubdevice (s : State) : Out := (getSubDevice s).out

/-- DISPATCH_GET_ARG_SIZE. -/
def execDispatchGetArgSize (s : State) : Out := (getArgSize s).out

/-- DISPATCH_GET_INVOKE. -/
def execDispatchGetInvoke (s : State) : Out := (getInvoke s).out

/-- DISPATCH_SET_NO_HANDLER. -/
def execDispatchSetNoHandler (s : State) : Out := (setNoHandler s).out

/-- DISPATCH_SET_INVOKE. -/
def execDispatchSetInvoke (s : State) : Out := (setInvoke s).out

/-- DISPATCH_PID_LOOKUP. -/
def execDispatchPidLookup (s : State) : Out := (pidLookup s).out

end Sys2Proof.Machine
end

