-- ==== Sys2Proof/Machine/Validator.lean ====
section
/-! DEFINITION. The RDM validator and the destination match (R160 to R168), and the two start-code rows (R162). -/

namespace Sys2Proof.Machine

/-- `v_verdict <- v; raise Status(k)`. -/
def rejectPacket (v : Verdict) (k : StatusKind) (s : State) : Flow :=
  raiseStatus k { s with val.verdict := v }

/-- Check 1, R161. -/
def checkSize (s : State) : Flow :=
  if s.val.size.toNat < 26 then rejectPacket .tooShort .tooShort s else .go s

/-- One byte of check 2 (R162). -/
def checkStartByte (a : Nat) (expected : Byte) (s : State) : Flow :=
  Flow.withRead (readByte s a) fun b =>
    if b ≠ expected then rejectPacket .badStartCode .badStartCode s else .go s

/-- Check 2, R162. -/
def checkStartCodes (s : State) : Flow :=
  Flow.withRead (readByte s 0) fun b0 =>
  Flow.withRead (readByte s 1) fun b1 =>
    if b0 ≠ startCode ∨ b1 ≠ subStartCode then rejectPacket .badStartCode .badStartCode s else .go s

/-- Check 3, R163: a comparison of integers, `buf[2] = size - 2`. -/
def checkLength (s : State) : Flow :=
  Flow.withRead (readByte s 2) fun b =>
    if b.toNat + 2 ≠ s.val.size.toNat then rejectPacket .badLength .badLength s else .go s

/-- Check 4, R164. -/
def checkChecksum (s : State) : Flow :=
  if s.val.size.toNat < 2 then .stop (.fault .bufOutOfBounds) else
  Flow.withRead (readRun s 0 (s.val.size.toNat - 2)) fun bs =>
  Flow.withRead (readByte s (s.val.size.toNat - 2)) fun hi =>
  Flow.withRead (readByte s (s.val.size.toNat - 1)) fun lo =>
    let s := { s with val.sum := bs.foldl sumByte 0 }
    if checksumMatches s.val.sum hi lo then .go s else rejectPacket .badChecksum .badChecksum s

/-- The four checks in order, then the verdict `Ok` (R160, R165). -/
def validatePacket (s : State) : Flow :=
  (((checkSize s).andThen checkStartCodes).andThen checkLength).andThen checkChecksum
    |>.andThen fun s => .go { s with val.verdict := .ok }

/-- Broadcast detection, R166. -/
def broadcastDetection (s : State) : Flow :=
  Flow.withRead (memRead s 5 4) fun v =>
    .go { s with val.isBroadcast := broadcastFlag (BitVec.ofNat 32 v) }

/-- Destination match, R167. -/
def destinationMatch (s : State) : Flow :=
  Flow.withRead (memRead s 3 6) fun v =>
    .go { s with val.toUs := s.val.isBroadcast || matchesUid s.store (BitVec.ofNat 48 v) }

/-- Wrong destination, R168. -/
def destinationReject (s : State) : Flow :=
  if s.val.toUs then .go s else raiseStatus .wrongDestination s

/-- VALIDATE_SIZE. -/
def execValidateSize (s : State) : Out := (checkSize s).out

/-- VALIDATE_START_CODES. -/
def execValidateStartCodes (s : State) : Out := (checkStartCodes s).out

/-- VALIDATE_LENGTH. -/
def execValidateLength (s : State) : Out := (checkLength s).out

/-- VALIDATE_CHECKSUM. -/
def execValidateChecksum (s : State) : Out := (checkChecksum s).out

/-- DETECT_BROADCAST. -/
def execDetectBroadcast (s : State) : Out := (broadcastDetection s).out

/-- MATCH_DESTINATION. -/
def execMatchDestination (s : State) : Out := (destinationMatch s).out

/-- WRONG_DESTINATION. -/
def execWrongDestination (s : State) : Out := (destinationReject s).out

/-- RDM_SC: the start code's half of check 2, at packet offset 0 (R162; log 4). -/
def execRdmSc (s : State) : Out := (checkStartByte 0 startCode s).out

/-- RDM_SUB_SC: the sub-start code's half of check 2, at packet offset 1 (R162; log 4). -/
def execRdmSubSc (s : State) : Out := (checkStartByte 1 subStartCode s).out

end Sys2Proof.Machine
end

