-- ==== Sys2Proof/Machine/Pipeline.lean ====
section
/-! DEFINITION. Frame emission and routing (R138 to R140) and the outer-label rows (R99). -/

namespace Sys2Proof.Machine

/-- The hand-off of `(label, payload)` to the application, which may then call `encode` (R140). -/
def handOff (label : Byte) (s : State) : Out :=
  withRead (payloadRun s.buf 0 s.rx.len.toNat) fun payload =>
    encodeCalls s.cfg.frameOutCalls
      { s with trace.frameOut := s.trace.frameOut ++ [(label, payload)] }

/-- `ProcessRdm(size = rx_len)`, R139. The closing assertion is R196's. -/
def processFrame (s : State) : Out :=
  let s := { s with val.size := s.rx.len }
  andThen
    ((validatePacket s).andThen broadcastDetection |>.andThen destinationMatch
      |>.andThen destinationReject |>.andThen dispatch).out
    fun s => if outcomeReached s then .next s else .fault .noOutcome

/-- `EmitFrame(label, payload)`, R138; the payload is `buf[0 .. rx_len-1]` (R136). -/
def emit (label : Byte) (s : State) : Out :=
  let s := { s with enc.done := false }
  if label = rdmLabel then processFrame s else handOff label s

/-- EMIT_FRAME: the frame in the deframer's registers, R138. -/
def execEmitFrame (s : State) : Out := emit s.rx.label s

/-- PROCESS_RDM, R139. -/
def execProcessRdm (s : State) : Out := processFrame s

/-- FRAME_OUT, R140. -/
def execFrameOut (s : State) : Out := handOff s.rx.label s

/-- LABEL_PARAMETERS: the frame in `buf` emitted under label 3 (R99, R138, R140; log 4). -/
def execLabelParameters (s : State) : Out := emit 3 s

/-- LABEL_DMX_DATA: the frame in `buf` emitted under label 6 (R99, R140). -/
def execLabelDmxData (s : State) : Out := emit 6 s

/-- LABEL_SERIAL_NUMBER: the frame in `buf` emitted under label 10 (R99, R140). -/
def execLabelSerialNumber (s : State) : Out := emit 10 s

/-- LABEL_MANUFACTURER: the frame in `buf` emitted under label 77 (R99, R140). -/
def execLabelManufacturer (s : State) : Out := emit 77 s

/-- LABEL_NAME: the frame in `buf` emitted under label 78 (R99, R140). -/
def execLabelName (s : State) : Out := emit 78 s

/-- LABEL_RDM: the frame in `buf` emitted under label 82, an RDM request (R99, R139). -/
def execLabelRdm (s : State) : Out := emit rdmLabel s

/-- LABEL_OTHER: the frame in `buf` emitted under a label outside the known six (R99, R140). -/
def execLabelOther (label : Byte) (s : State) : Out := emit label s

end Sys2Proof.Machine
end

