-- ==== Sys2Proof/Machine/FrameCodec.lean ====
section
/-! DEFINITION. The deframer: one meaning per RX event and state (R130 to R137), and the two marker rows (R6). -/

namespace Sys2Proof.Machine

/-- `rx_state <- S`. -/
def goState (st : RxState) (s : State) : State := { s with rx.state := st }

/-- A byte examined for SOM, R131. -/
def seekStart (b : Byte) (s : State) : Out :=
  .next (goState (if b = somByte then .gotStart else .preStart) s)

/-- A byte examined for EOM, R136 and R137. -/
def closeFrame (b : Byte) (s : State) : Out :=
  if b = eomByte ∧ s.rx.ovf = false then
    andThen (emit s.rx.label s) fun s => .next (goState .preStart s)
  else .next (goState .preStart s)

/-- RX_EMPTY, R130: one idle strobe, in any `rx_state`. -/
def execRxEmpty (s : State) : Out := idleStrobe s

/-- RX_PRE_START, R131. -/
def execRxPreStart (b : Byte) (s : State) : Out := seekStart b s

/-- RX_GOT_START, R132. -/
def execRxGotStart (b : Byte) (s : State) : Out :=
  .next (goState .gotLabel { s with rx.label := b })

/-- RX_GOT_LABEL, R133: `rx_len[7:0] <- b`. -/
def execRxGotLabel (b : Byte) (s : State) : Out :=
  .next (goState .gotLengthLow { s with rx.len := le16 b (hiByte s.rx.len) })

/-- RX_GOT_LENGTH_LOW, R134: `rx_len[15:8] <- b`. -/
def execRxGotLengthLow (b : Byte) (s : State) : Out :=
  let len := le16 (loByte s.rx.len) b
  .next (goState (if len = 0 then .awaitingEnd else .inPayload)
    { s with rx.len := len, rx.cnt := 0, rx.ovf := overflowFlag s.cfg len })

/-- The count and the next state of R135, after the byte is stored or skipped. -/
def countPayload (s : State) : Out :=
  let cnt := s.rx.cnt + 1
  .next (goState (if cnt = s.rx.len then .awaitingEnd else .inPayload) { s with rx.cnt := cnt })

/-- RX_IN_PAYLOAD, R135 and R137. -/
def execRxInPayload (b : Byte) (s : State) : Out :=
  andThen (if s.rx.ovf then .next s else memWrite s.rx.cnt.toNat b s) countPayload

/-- RX_AWAITING_END, R136. -/
def execRxAwaitingEnd (b : Byte) (s : State) : Out := closeFrame b s

/-- SOM: the marker byte met at frame offset 0 (R131; log 4). -/
def execSom (s : State) : Out := seekStart somByte s

/-- EOM: the marker byte met at frame offset `4 + length` (R136; log 4). -/
def execEom (s : State) : Out := closeFrame eomByte s

end Sys2Proof.Machine
end

