-- ==== Sys2Proof/Machine/Dispatch.lean ====
section
/-! DEFINITION. One arm per constructor of `Instr`: the meaning of each row of spec/opcode_table.json. -/

namespace Sys2Proof.Machine

def exec (i : Instr) (s : State) : Host.Outcome State Fault Refusal :=
  match i with
  -- rx_event: R130 to R136
  | .rxEmpty => Sys2Proof.Machine.execRxEmpty s
  | .rxPreStart b => Sys2Proof.Machine.execRxPreStart b s
  | .rxGotStart b => Sys2Proof.Machine.execRxGotStart b s
  | .rxGotLabel b => Sys2Proof.Machine.execRxGotLabel b s
  | .rxGotLengthLow b => Sys2Proof.Machine.execRxGotLengthLow b s
  | .rxInPayload b => Sys2Proof.Machine.execRxInPayload b s
  | .rxAwaitingEnd b => Sys2Proof.Machine.execRxAwaitingEnd b s
  -- frame_marker: R131, R136
  | .som => Sys2Proof.Machine.execSom s
  | .eom => Sys2Proof.Machine.execEom s
  -- outer_label: R139, R140
  | .labelParameters => Sys2Proof.Machine.execLabelParameters s
  | .labelDmxData => Sys2Proof.Machine.execLabelDmxData s
  | .labelSerialNumber => Sys2Proof.Machine.execLabelSerialNumber s
  | .labelManufacturer => Sys2Proof.Machine.execLabelManufacturer s
  | .labelName => Sys2Proof.Machine.execLabelName s
  | .labelRdm => Sys2Proof.Machine.execLabelRdm s
  -- outer_frame, status_frame, reply_frame: R150, R290, R97
  | .encode label payload => Sys2Proof.Machine.execEncode label payload s
  | .status k => Sys2Proof.Machine.execStatus k s
  | .reply f => Sys2Proof.Machine.execReply f s
  -- rdm_start_code, rdm_sub_start_code: R162
  | .rdmSc => Sys2Proof.Machine.execRdmSc s
  | .rdmSubSc => Sys2Proof.Machine.execRdmSubSc s
  -- validator_check: R161 to R168
  | .validateSize => Sys2Proof.Machine.execValidateSize s
  | .validateStartCodes => Sys2Proof.Machine.execValidateStartCodes s
  | .validateLength => Sys2Proof.Machine.execValidateLength s
  | .validateChecksum => Sys2Proof.Machine.execValidateChecksum s
  | .detectBroadcast => Sys2Proof.Machine.execDetectBroadcast s
  | .matchDestination => Sys2Proof.Machine.execMatchDestination s
  | .wrongDestination => Sys2Proof.Machine.execWrongDestination s
  -- rdm_command_class: R181, R185, R190
  | .ccGet => Sys2Proof.Machine.execCcGet s
  | .ccGetResponse => Sys2Proof.Machine.execCcGetResponse s
  | .ccSet => Sys2Proof.Machine.execCcSet s
  | .ccSetResponse => Sys2Proof.Machine.execCcSetResponse s
  -- dispatch_step: R181 to R191
  | .dispatchCcCheck => Sys2Proof.Machine.execDispatchCcCheck s
  | .dispatchSubdeviceRange => Sys2Proof.Machine.execDispatchSubdeviceRange s
  | .dispatchUnknownPid => Sys2Proof.Machine.execDispatchUnknownPid s
  | .dispatchGetNoHandler => Sys2Proof.Machine.execDispatchGetNoHandler s
  | .dispatchGetBroadcast => Sys2Proof.Machine.execDispatchGetBroadcast s
  | .dispatchGetSubdevice => Sys2Proof.Machine.execDispatchGetSubdevice s
  | .dispatchGetArgSize => Sys2Proof.Machine.execDispatchGetArgSize s
  | .dispatchGetInvoke => Sys2Proof.Machine.execDispatchGetInvoke s
  | .dispatchSetNoHandler => Sys2Proof.Machine.execDispatchSetNoHandler s
  | .dispatchSetInvoke => Sys2Proof.Machine.execDispatchSetInvoke s
  | .dispatchPidLookup => Sys2Proof.Machine.execDispatchPidLookup s
  -- handler_port: R106, R211 to R220
  | .startResponse rt pdl cc pid => Sys2Proof.Machine.execStartResponse rt pdl cc pid s
  | .sendByte v => Sys2Proof.Machine.execSendByte v s
  | .sendInt v => Sys2Proof.Machine.execSendInt v s
  | .sendLong v => Sys2Proof.Machine.execSendLong v s
  | .endResponse => Sys2Proof.Machine.execEndResponse s
  | .sendEmptyAck => Sys2Proof.Machine.execSendEmptyAck s
  | .sendNack reason => Sys2Proof.Machine.execSendNack reason s
  | .sendAckTimer delay => Sys2Proof.Machine.execSendAckTimer delay s
  | .nackOrBroadcast wasBroadcast reason => Sys2Proof.Machine.execNackOrBroadcast wasBroadcast reason s
  | .reportStatus k => Sys2Proof.Machine.execReportStatus k s
  | .handlerReservedAB low => Sys2Proof.Machine.execHandlerReservedAB low s
  | .handlerReservedCF low => Sys2Proof.Machine.execHandlerReservedCF low s
  -- outer_label_default: R140
  | .labelOther label => Sys2Proof.Machine.execLabelOther label s
  -- rdm_response_type: R101
  | .rtAck => Sys2Proof.Machine.execRtAck s
  | .rtAckTimer => Sys2Proof.Machine.execRtAckTimer s
  | .rtNack => Sys2Proof.Machine.execRtNack s
  -- nack_reason: R102
  | .nrUnknownPid => Sys2Proof.Machine.execNrUnknownPid s
  | .nrFormatError => Sys2Proof.Machine.execNrFormatError s
  | .nrUnsupportedCommandClass => Sys2Proof.Machine.execNrUnsupportedCommandClass s
  | .nrDataOutOfRange => Sys2Proof.Machine.execNrDataOutOfRange s
  | .nrSubDeviceOutOfRange => Sys2Proof.Machine.execNrSubDeviceOutOfRange s
  -- status_code: R103
  | .statusOk => Sys2Proof.Machine.execStatusOk s
  | .statusBroadcast => Sys2Proof.Machine.execStatusBroadcast s
  | .statusFailed => Sys2Proof.Machine.execStatusFailed s
  | .statusFailedChecksum => Sys2Proof.Machine.execStatusFailedChecksum s
  | .statusInvalidDestination => Sys2Proof.Machine.execStatusInvalidDestination s
  | .statusInvalidCommand => Sys2Proof.Machine.execStatusInvalidCommand s
  -- rdm_request and its pending variants: R252 to R257
  | .getSupportedParameters => Sys2Proof.Machine.execGetSupportedParameters s
  | .setDeviceLabel => Sys2Proof.Machine.execSetDeviceLabel s
  | .getQueuedMessagePending => Sys2Proof.Machine.execGetQueuedMessagePending s
  | .getQueuedMessageIdle => Sys2Proof.Machine.execGetQueuedMessageIdle s
  | .setDmxStartAddress => Sys2Proof.Machine.execSetDmxStartAddress s
  | .setSerialNumber => Sys2Proof.Machine.execSetSerialNumber s
  -- pipeline: R138 to R140
  | .emitFrame => Sys2Proof.Machine.execEmitFrame s
  | .processRdm => Sys2Proof.Machine.execProcessRdm s
  | .frameOut => Sys2Proof.Machine.execFrameOut s

end Sys2Proof.Machine
end

