-- ==== Sys2Proof/Machine/Fetch.lean ====
section
/-! DEFINITION. How a step comes by its instruction: it takes the head of the input list (R8; log 1), and how a table word is
placed there (log 2, log 3). -/

namespace Sys2Proof.Machine

/-- What a step found: an instruction to run in a state, one that a reset strikes after `sent` bytes, or its result at
once. -/
inductive Fetched where
  | run (i : Instr) (s : State)
  | struck (sent : Nat) (i : Instr) (s : State)
  | done (o : Out)

/-- Run the instruction a word stands for, or refuse the word. -/
def fetchWord (f : Format) (bs : List Byte) (s : State) : Fetched :=
  match decode f bs with
  | .ok i => .run i s
  | .error e => .done (.refused (.undecodable e))

/-- The event found is struck by a reset (R322). -/
def Fetched.strike (sent : Nat) : Fetched → Fetched
  | .run i s => .struck sent i s
  | .struck n i s => .struck n i s
  | .done o => .done o

/-- A received byte, read as the event word of the current `rx_state` (R8, R111). -/
def fetchByte (b : Byte) (s : State) : Fetched := fetchWord .rxEvent (rxWord s.rx.state b) s

/-- The next input. With nothing pending, a poll finds no byte: `RxEmpty` (R130). -/
def fetch (s : State) : Fetched :=
  match s.input with
  | [] => .run .rxEmpty s
  | .rxEmpty :: rest => .run .rxEmpty { s with input := rest }
  | .rxByte b :: rest => fetchByte b { s with input := rest }
  | .resetDuring (some b) sent :: rest => (fetchByte b { s with input := rest }).strike sent
  | .resetDuring none sent :: rest => .struck sent .rxEmpty { s with input := rest }
  | .call f bs :: rest => fetchWord f bs { s with input := rest }
  | .reset :: rest => .done (.next (resetBlock { s with input := rest }))

/-- A byte as the next RX event, the deframer in the state whose event word it is. -/
def placeByte (st : RxState) (b : Byte) (s : State) : State :=
  { s with rx.state := st, input := .rxByte b :: s.input }

/-- An instruction word as the next input. -/
def placeInstr (f : Format) (bs : List Byte) (i : Instr) (s : State) : State :=
  match i with
  | .rxEmpty => { s with input := .rxEmpty :: s.input }
  | .rxPreStart b => placeByte .preStart b s
  | .rxGotStart b => placeByte .gotStart b s
  | .rxGotLabel b => placeByte .gotLabel b s
  | .rxGotLengthLow b => placeByte .gotLengthLow b s
  | .rxInPayload b => placeByte .inPayload b s
  | .rxAwaitingEnd b => placeByte .awaitingEnd b s
  | _ => { s with input := .call f bs :: s.input }

/-- One word of the opcode table as the next input; a word that is no instruction is placed as it is, and refused. -/
def placeWord (nbits w : Nat) (s : State) : State :=
  match readTableWord nbits w (tableOrder nbits w) with
  | some (f, bs, i) => placeInstr f bs i s
  | none => { s with input := .call .rxEvent (bytesOfNat (nbits / 8) w) :: s.input }

end Sys2Proof.Machine
end

