-- ==== Sys2Proof/Machine/Step.lean ====
section
/-! DEFINITION. One step: one input taken and its operation run to completion (R8, R20). -/

namespace Sys2Proof.Machine

/-- The step of the machine. -/
def step (s : State) : Host.Outcome State Fault Refusal :=
  match fetch s with
  | .run i s' => exec i s'
  | .struck sent i s' => strike sent s' (exec i s')
  | .done o => o

/-- The word of an instruction placed where the next step takes it. -/
def State.withFetchWord (s : State) (nbits w : Nat) : State := placeWord nbits w s

end Sys2Proof.Machine
end

