-- ==== Sys2Proof/Safety.lean ====
section
/-! DEFINITION. The terms the claims use: readable frames, a ready encoder, the state after a whole reply, lawful agents and the
invariant of the states the RX events reach. -/

namespace Sys2Proof.Machine

/-! Reads. -/

/-- Offsets below `n` lie inside the frame under processing and hold bytes. -/
def Readable (s : State) (n : Nat) : Prop :=
  n ≤ s.val.size.toNat ∧ ∀ i, i < n → ∃ b, Memory.read s.buf i = some b

/-- `buf[i]`, for statements about readable offsets. -/
def byteAt (s : State) (i : Nat) : Byte := (Memory.read s.buf i).getD 0

/-- `n` bytes of a buffer from offset `i` on. -/
def Memory.run (m : Memory) : Nat → Nat → List Byte
  | _, 0 => []
  | i, n + 1 => (Memory.read m i).getD 0 :: Memory.run m (i + 1) n

/-- `buf[i .. i+n-1]`, for statements about readable offsets. -/
def bytesAt (s : State) (i n : Nat) : List Byte := Memory.run s.buf i n

/-- Every offset of the received payload holds a byte. -/
def PayloadFilled (s : State) : Prop :=
  ∀ i, i < s.rx.len.toNat → ∃ b, Memory.read s.buf i = some b

/-! The encoder. -/

/-- No response is open and the frame has no outcome yet (R290, R224). -/
def Ready (s : State) : Prop := s.enc.busy = false ∧ s.enc.done = false

/-- The state after one whole reply: its frame on TX, the encoder closed and done (R211, R215). -/
def replied (f : ReplyFields) (s : State) : State :=
  { s with
    trace.tx := s.trace.tx ++ replyFrameBytes s.cfg.statusOk f
    enc := { sum := checksum (packetBody f), busy := false, remaining := 0, done := true } }

/-- The reply a request gets through the convenience operations: its own class and PID (R216 to R218). -/
def answered (rt : Byte) (data : List Byte) (s : State) : State :=
  replied (replyFieldsOf s rt s.ctx.cc s.ctx.pid data) s

/-- The bytes a status puts on TX (R290). -/
def statusBytes (c : Config) (k : StatusKind) : List Byte :=
  if onWire c k then statusFrameBytes (statusCodeOf c k) else []

/-- What the application's calls put on TX (R150). -/
def callBytes (cs : List EncodeCall) : List Byte :=
  cs.flatMap fun c => frameBytes c.label c.payload

/-! Lawful agents. -/

/-- A GET behaviour that keeps the handler contract by construction: any but a script or the parameter agent (R196). -/
def lawfulGet : GetBehaviour → Bool
  | .script _ | .agent _ => false
  | .supportedParameters | .queuedMessage | .readField _ _ | .other _ => true

/-- A SET behaviour that keeps the handler contract by construction: any but a script or the parameter agent (R196). -/
def lawfulSet : SetBehaviour → Bool
  | .script _ | .agent _ => false
  | .deviceLabel | .startAddress | .serialNumber | .writeField _ | .other _ => true

/-- A GET behaviour that writes nothing of its own accord (R259): any but the parameter agent. -/
def quietGet : GetBehaviour → Bool
  | .agent _ => false
  | .supportedParameters | .queuedMessage | .readField _ _ | .other _ | .script _ => true

/-- Every GET of the table keeps R259. -/
def quietConfig (c : Config) : Bool :=
  c.pidTable.all fun e => e.get.all quietGet

/-- An action that writes none of the handler flags. -/
def leavesFlags : AgentAction → Bool
  | .flags _ => false
  | .port _ | .write _ | .own _ | .param _ => true

/-- A SET behaviour that leaves the pending flag and the count to R253 and R254 (R260). -/
def settledSet : SetBehaviour → Bool
  | .agent _ => false
  | .script acts => acts.all leavesFlags
  | .deviceLabel | .startAddress | .serialNumber | .writeField _ | .other _ => true

/-- Only the handlers of R253 and R254 write the pending flag and the count (R260). -/
def settledConfig (c : Config) : Bool :=
  quietConfig c && c.pidTable.all fun e => e.set.all settledSet

/-- The table's handlers keep the contract, and the supported-parameters list fits one reply (R196, R323). -/
def lawfulConfig (c : Config) : Bool :=
  decide ((includedPids c).length ≤ 115)
    && c.pidTable.all fun e =>
      (match e.get with
        | some b => lawfulGet b
        | none => true)
      && (match e.set with
        | some b => lawfulSet b
        | none => true)

/-- The application's calls fit the 16-bit length (R151). -/
def callsFit (c : Config) : Prop :=
  (∀ e ∈ c.frameOutCalls, e.payload.length ≤ 65535) ∧ ∀ e ∈ c.idleCalls, e.payload.length ≤ 65535

/-! Runs and packets. -/

/-- `n` steps in a row. -/
def runSteps : Nat → State → Out
  | 0, s => .next s
  | n + 1, s => andThen (step s) (runSteps n)

/-- The state with these bytes as its next RX events. -/
def withBytes (bs : List Byte) (s : State) : State :=
  { s with input := bs.map .rxByte ++ s.input }

/-- The received payload `buf[0 .. rx_len-1]`, for statements about filled payloads. -/
def payloadOf (s : State) : List Byte := bytesAt s 0 s.rx.len.toNat

/-- The frame in `buf` handed to the application under a label, and what the application then sends (R140). -/
def handedOver (label : Byte) (s : State) : State :=
  { s with
    trace.frameOut := s.trace.frameOut ++ [(label, payloadOf s)]
    trace.tx := s.trace.tx ++ callBytes s.cfg.frameOutCalls }

/-- The four checks of R160, of a byte string: size, start codes, declared length, checksum. -/
def packetPasses (p : List Byte) : Bool :=
  decide (26 ≤ p.length) && decide (p.getD 0 0 = startCode) && decide (p.getD 1 0 = subStartCode)
    && decide ((p.getD 2 0).toNat + 2 = p.length)
    && decide (bytes16 (checksum (p.take (p.length - 2))) = p.drop (p.length - 2))

/-- How the processing of an RDM frame ends: a status, a NACK with a reason, or a handler's invocation. -/
inductive FrameEnd where
  | status (k : StatusKind)
  | nack (reason : Word16)
  | invoke (v : Invocation)
  deriving DecidableEq, Repr

/-- A refusal of the dispatcher: suppressed for a broadcast request, else a NACK (R281). -/
def refusal (bcast : Bool) (reason : Word16) : FrameEnd :=
  if bcast then .status .broadcastNoReply else .nack reason

/-- A packet with another transaction number, its checksum made to match (R92, R95). -/
def retagged (tn : Byte) (p : List Byte) : List Byte :=
  let body := (p.take (p.length - 2)).set 15 tn
  body ++ bytes16 (checksum body)

/-- Two answers that are the same but for the echo of the transaction number, in the second `tn`, and the checksum over it
(R259): two replies with otherwise equal fields, or one status twice. -/
def SameButEcho (c : Config) (tn : Byte) (bs cs : List Byte) : Prop :=
  (∃ f : ReplyFields, bs = replyFrameBytes c.statusOk f ∧ cs = replyFrameBytes c.statusOk { f with tn := tn })
    ∨ ∃ k, bs = statusBytes c k ∧ cs = statusBytes c k

/-- The last table entry that answers a PID, with its index (R183). -/
def lastEntry (c : Config) (pid : Word16) : Option (PidDefinition × Nat) :=
  (c.pidTable.zipIdx.filter fun e => decide (e.1.pid = pid)).getLast?

/-- Items 3 to 13 of R283's priority list, read off the payload. -/
def expectedEnd (c : Config) (st : SettingsStore) (p : List Byte) : FrameEnd :=
  let b := fun i => p.getD i 0
  let bcast := decide (b 5 = 0xFF ∧ b 6 = 0xFF ∧ b 7 = 0xFF ∧ b 8 = 0xFF)
  let sub := be16 (b 18) (b 19)
  if p.length < 26 then .status .tooShort
  else if b 0 ≠ 0xCC ∨ b 1 ≠ 0x01 then .status .badStartCode
  else if (b 2).toNat + 2 ≠ p.length then .status .badLength
  else if bytes16 (checksum (p.take (p.length - 2))) ≠ p.drop (p.length - 2) then .status .badChecksum
  else if bcast = false ∧ [b 3, b 4, b 5, b 6, b 7, b 8] ≠ bytes16 st.estaId ++ bytes32 st.serialNumber then
    .status .wrongDestination
  else if b 20 ≠ 0x20 ∧ b 20 ≠ 0x30 then .status .invalidCommandClass
  else if sub ≠ 0x0000 ∧ sub ≠ 0xFFFF then refusal bcast 9
  else match lastEntry c (be16 (b 21) (b 22)) with
    | none => refusal bcast 0
    | some (e, i) =>
      if b 20 = 0x20 then
        if e.get = none then refusal bcast 5
        else if bcast then .status .broadcastNoReply
        else if sub ≠ 0x0000 then .nack 9
        else if b 23 ≠ e.getArgLen then .nack 1
        else .invoke (.get i)
      else if e.set = none then refusal bcast 5
      else .invoke (.set i bcast)

/-- The fields of the NACK that answers the request `p` (R92, R217). -/
def nackFields (s : State) (p : List Byte) (reason : Word16) : ReplyFields :=
  let b := fun i => p.getD i 0
  { dst := be48 (b 9) (b 10) (b 11) (b 12) (b 13) (b 14)
    src := uidOf s.store
    tn := b 15
    rt := 2
    mc := s.flags.queuedCount
    sub := be16 (b 18) (b 19)
    cc := if b 20 = 0x20 then 0x21 else 0x31
    pid := be16 (b 21) (b 22)
    data := bytes16 reason }

/-- A frame's one outcome between two states: one reply frame and no status, or one status (R285). -/
def OneOutcome (s t : State) : Prop :=
  (∃ f, f.data.length ≤ 231 ∧ t.trace.tx = s.trace.tx ++ replyFrameBytes s.cfg.statusOk f
      ∧ t.trace.statusLog = s.trace.statusLog)
    ∨ ∃ k, t.trace.tx = s.trace.tx ++ statusBytes s.cfg k
        ∧ t.trace.statusLog = s.trace.statusLog ++ [k]

/-- A handler was invoked and logged, and left exactly one outcome and a closed encoder (R189, R191, R196). -/
def Served (v : Invocation) (s t : State) : Prop :=
  OneOutcome s t ∧ t.enc.busy = false ∧ t.enc.done = true
    ∧ t.trace.handlerLog = s.trace.handlerLog ++ [v]

/-- A frame in `buf` that lawful handlers answer: the payload is there, the encoder is closed, and the request carries the
parameter bytes it declares. -/
structure Answerable (s : State) : Prop where
  filled  : PayloadFilled s
  lawful  : lawfulConfig s.cfg = true
  closed  : s.enc.busy = false
  carries : s.rx.len.toNat < 26 ∨ 26 + (byteAt s 23).toNat ≤ s.rx.len.toNat

/-! The invariant. -/

/-- An RX event or a reset (R8, R320, R322): anything but an operation run alone. -/
def Input.isEvent : Input → Bool
  | .rxByte _ | .rxEmpty | .reset | .resetDuring _ _ => true
  | .call _ _ => false

/-- The deframer's registers agree with its position (R21, R24, R31): in a payload the count is below the length, at the
terminator it equals it, `rx_ovf` is the overflow of the length, and unless it is set every counted byte is stored. -/
def Deframing (s : State) : Prop :=
  match s.rx.state with
  | .inPayload =>
    s.rx.cnt.toNat < s.rx.len.toNat ∧ s.rx.ovf = overflowFlag s.cfg s.rx.len ∧
      (s.rx.ovf = false → ∀ i, i < s.rx.cnt.toNat → ∃ b, Memory.read s.buf i = some b)
  | .awaitingEnd =>
    s.rx.cnt = s.rx.len ∧ s.rx.ovf = overflowFlag s.cfg s.rx.len ∧
      (s.rx.ovf = false → ∀ i, i < s.rx.cnt.toNat → ∃ b, Memory.read s.buf i = some b)
  | .preStart | .gotStart | .gotLabel | .gotLengthLow => True

/-- What holds between any two RX events or resets: the buffer is canonical and within its capacity, the deframer's registers
agree, no response is open (R70, R139), and, where only the handlers of R253 and R254 write them, the queued-message count is
the pending flag (R253, R260). -/
structure Inv (s : State) : Prop where
  events   : s.input.all Input.isEvent = true
  bufWf    : Memory.wf s.buf = true
  bufFits  : ∀ c ∈ s.buf, c.1 < s.cfg.frameCap
  deframes : Deframing s
  closed   : s.enc.busy = false
  queue    : settledConfig s.cfg = true → s.flags.queuedCount = if s.flags.labelPending then 1 else 0

end Sys2Proof.Machine
end

