-- ==== Sys2Proof/Certificates/Slice0/Obligations.lean ====
section
/-! DEFINITION. The statements for the provers. Each docstring names the rule of spec/ it formalises; where a clause rests on a
choice of the model, the docstring names the log entry. -/

section
open Sys2Proof Sys2Proof.Machine

/-! Encoding and decoding. -/

/-- Decoding the word of a well-formed instruction in its format gives the instruction back, every operand at every value
(the formats are the table's, their byte layout logs 3, 19, 20). -/
def Obligations.DecodeEncodeRoundTrip : Prop :=
  ∀ i : Instr, i.WellFormed → decode i.format (encode i) = .ok i

/-- A word has one meaning: what decodes is well-formed, of the format it was read in, and its word is that word; only
RX_EMPTY ignores the bits the table leaves free. -/
def Obligations.DecodeIsExact : Prop :=
  ∀ (f : Format) (bs : List Byte) (i : Instr), decode f bs = .ok i →
    i.WellFormed ∧ i.format = f ∧
      (bs = encode i ∨ (i = .rxEmpty ∧ ∃ hi b : Byte, bs = [hi, b] ∧ hi.toNat < 8))

/-- A few words written out from the spec's encodings (R90, R92, R98, R99, R100, R106). -/
def Obligations.SpecWordsDecode : Prop :=
  decode .rxEvent [0x0C, 0xAB] = .ok (.rxInPayload 0xAB)
    ∧ decode .frameMarker [0xE7] = .ok .eom
    ∧ decode .outerLabel [0x52] = .ok .labelRdm
    ∧ decode .outerFrame [0x7E, 0x03, 0x02, 0x00, 0xAA, 0xBB, 0xE7] = .ok (.encode 3 [0xAA, 0xBB])
    ∧ decode .statusFrame [0x7E, 0x52, 0x01, 0x00, 0x03, 0xE7, 0x00] = .ok (.status .badChecksum)
    ∧ decode .rdmCommandClass [0x30] = .ok .ccSet
    ∧ decode .handlerPort [0x02, 0x12, 0x34] = .ok (.sendInt 0x1234)
    ∧ decode .rdmRequest [0x30, 0x00, 0xF0] = .ok .setDmxStartAddress
    ∧ decode .nackReason [0x00, 0x09] = .ok .nrSubDeviceOutOfRange

/-! The step. -/

/-- A received byte runs the event of the current `rx_state` (R8, R20, R21), and is consumed (R62). -/
def Obligations.StepRunsReceivedByte : Prop :=
  ∀ (s : State) (b : Byte) (rest : List Input), s.input = .rxByte b :: rest →
    step s = exec
      (match s.rx.state with
        | .preStart => .rxPreStart b
        | .gotStart => .rxGotStart b
        | .gotLabel => .rxGotLabel b
        | .gotLengthLow => .rxGotLengthLow b
        | .inPayload => .rxInPayload b
        | .awaitingEnd => .rxAwaitingEnd b) { s with input := rest }

/-- A step runs the instruction its input word decodes to, past that input; an empty poll is RX_EMPTY; a word that decodes to
nothing is refused by name (logs 1, 2). -/
def Obligations.StepRunsDecodedInstruction : Prop :=
  ∀ (s : State) (rest : List Input),
    (∀ f bs i, s.input = .call f bs :: rest → decode f bs = .ok i →
      step s = exec i { s with input := rest })
    ∧ (∀ f bs e, s.input = .call f bs :: rest → decode f bs = .error e →
      step s = .refused (.undecodable e))
    ∧ (s.input = .rxEmpty :: rest → step s = exec .rxEmpty { s with input := rest })
    ∧ (s.input = [] → step s = exec .rxEmpty s)

/-- Reset of a running machine, and the state it starts from: `PRE_START`, no response in flight, flags 0, traces empty (R320,
R321). The store persists, less an uncommitted label (R321). The kept inputs, the buffer without values, the handler agent's own
state, TX kept aside and the strobe number are the model's (logs 6, 14, 22, 34); that the power-cycle counter persists with the
rest of the store, nothing counting the power-up, is the model's too (log 35). -/
def Obligations.ResetLeaves : Prop :=
  (∀ (s : State) (rest : List Input), s.input = .reset :: rest → ∃ t, step s = .next t
    ∧ t.rx.state = .preStart
    ∧ t.enc.busy = false ∧ t.enc.remaining = 0 ∧ t.enc.done = false
    ∧ t.flags = ⟨false, false, 0, false⟩
    ∧ t.trace = ⟨[], [], 0, [], []⟩
    ∧ (∀ a, Memory.read t.buf a = none)
    ∧ t.store = { s.store with deviceLabel := s.store.committedLabel }
    ∧ t.cfg = s.cfg ∧ t.input = rest
    ∧ t.agent = [] ∧ t.past = s.past ++ [s.trace.tx] ∧ t.strobes = s.strobes)
  ∧ State.reset.rx.state = .preStart
  ∧ State.reset.enc.busy = false ∧ State.reset.enc.remaining = 0 ∧ State.reset.enc.done = false
  ∧ State.reset.flags = ⟨false, false, 0, false⟩
  ∧ State.reset.trace = ⟨[], [], 0, [], []⟩
  ∧ State.reset.agent = [] ∧ State.reset.past = [] ∧ State.reset.strobes = 0
  ∧ ∀ a, Memory.read State.reset.buf a = none

/-- R322: a reset that strikes an RX event cuts off what the event puts on TX, and the block does not complete it: the host
has seen the first `n` bytes, the block is in `PRE_START` with no response open, and what the store's setters did stands, less
an uncommitted label. That the reset comes after the store's writes, and that `past` keeps the cut stream, is log 22;
that the power-cycle counter stands with the rest of the store is log 35. -/
def Obligations.ResetTruncatesReply : Prop :=
  ∀ (s u : State) (rest : List Input) (n : Nat) (bs : List Byte),
    ((∃ b, s.input = .resetDuring (some b) n :: rest ∧ step { s with input := .rxByte b :: rest } = .next u)
      ∨ (s.input = .resetDuring none n :: rest ∧ step { s with input := .rxEmpty :: rest } = .next u)) →
    u.trace.tx = s.trace.tx ++ bs →
    ∃ t, step s = .next t
      ∧ t.past = u.past ++ [s.trace.tx ++ bs.take n]
      ∧ t.trace = ⟨[], [], 0, [], []⟩
      ∧ t.rx.state = .preStart ∧ t.enc.busy = false ∧ t.enc.done = false
      ∧ t.flags = ⟨false, false, 0, false⟩
      ∧ t.store = { u.store with deviceLabel := u.store.committedLabel }
      ∧ t.cfg = u.cfg ∧ t.input = u.input

/-! The deframer. -/

/-- R130: an empty poll is one idle strobe and nothing else changes, but for what the callbacks do: the store may commit the
deferred label (R261; log 14, which numbers the strobes), the application may call `encode` (R330; log 13). -/
def Obligations.RxEmptyIdles : Prop :=
  ∀ s : State, (s.cfg.idleCalls = [] ∨ s.enc.busy = false) →
    (∀ c ∈ s.cfg.idleCalls, c.payload.length ≤ 65535) →
    ∃ label, (label = s.store.committedLabel ∨ label = s.store.deviceLabel) ∧
      exec .rxEmpty s = .next { s with
        trace.idleLog := s.trace.idleLog + 1
        strobes := s.strobes + 1
        trace.tx := s.trace.tx ++ callBytes s.cfg.idleCalls
        store.committedLabel := label }

/-- R131: SOM starts a frame, every other byte is skipped; nothing else changes. -/
def Obligations.PreStartSeeksSom : Prop :=
  ∀ (s : State) (b : Byte), exec (.rxPreStart b) s =
    .next { s with rx.state := if b = 0x7E then .gotStart else .preStart }

/-- R132, R133 and R134: label, length low byte, length high byte; the count is cleared, the overflow flag computed, and a
zero length goes straight to the terminator. -/
def Obligations.HeaderBytesLoad : Prop :=
  ∀ (s : State) (b : Byte),
    exec (.rxGotStart b) s = .next { s with rx.label := b, rx.state := .gotLabel }
    ∧ exec (.rxGotLabel b) s =
      .next { s with rx.len := s.rx.len.extractLsb' 8 8 ++ b, rx.state := .gotLengthLow }
    ∧ exec (.rxGotLengthLow b) s =
      .next { s with
        rx.len := b ++ s.rx.len.extractLsb' 0 8
        rx.cnt := 0
        rx.ovf := decide ((b ++ s.rx.len.extractLsb' 0 8 : BitVec (8 + 8)).toNat > s.cfg.frameCap)
        rx.state := if (b ++ s.rx.len.extractLsb' 0 8 : BitVec (8 + 8)) = 0 then .awaitingEnd else .inPayload }

/-- R135: a payload byte is stored at `rx_cnt` unless the frame is oversize, and counted; every other cell reads as before. -/
def Obligations.PayloadByteIsStored : Prop :=
  ∀ (s : State) (b : Byte), (s.rx.ovf = true ∨ s.rx.cnt.toNat < s.cfg.frameCap) →
    ∃ t, exec (.rxInPayload b) s = .next t
      ∧ (∀ a, Memory.read t.buf a =
          if s.rx.ovf = false ∧ a = s.rx.cnt.toNat then some b else Memory.read s.buf a)
      ∧ t = { s with
          buf := t.buf
          rx.cnt := s.rx.cnt + 1
          rx.state := if s.rx.cnt + 1 = s.rx.len then .awaitingEnd else .inPayload }

/-- R136: EOM completes a frame that is not oversize, which is then emitted and processed to completion; any other byte, or an
oversize frame, is a discard that changes `rx_state` only. That the byte is consumed (D5), an oversize frame discarded whatever
it is (D4) and the discard silent (D34) are the spec's own decisions (log 25). -/
def Obligations.TerminatorEmitsOrDiscards : Prop :=
  ∀ (s : State) (b : Byte),
    ((b ≠ 0xE7 ∨ s.rx.ovf = true) → exec (.rxAwaitingEnd b) s = .next { s with rx.state := .preStart })
    ∧ (b = 0xE7 → s.rx.ovf = false →
      (∀ t, exec .emitFrame s = .next t →
        exec (.rxAwaitingEnd b) s = .next { t with rx.state := .preStart })
      ∧ ∀ f, exec .emitFrame s = .fault f → exec (.rxAwaitingEnd b) s = .fault f)

/-- The marker rows run as the byte met at its place (R131, R136; log 4; the discards are those of D4, D5 and D34, log 25). -/
def Obligations.MarkerRows : Prop :=
  ∀ s : State,
    exec .som s = .next { s with rx.state := .gotStart }
    ∧ (s.rx.ovf = true → exec .eom s = .next { s with rx.state := .preStart })
    ∧ (s.rx.ovf = false → ∀ t, exec .emitFrame s = .next t →
      exec .eom s = .next { t with rx.state := .preStart })
    ∧ (s.rx.ovf = false → s.rx.label ≠ 0x52 → PayloadFilled s → s.enc.busy = false →
      (∀ c ∈ s.cfg.frameOutCalls, c.payload.length ≤ 65535) →
      exec .eom s = .next { handedOver s.rx.label s with enc.done := false, rx.state := .preStart })

/-- R137: an oversize frame passes through the deframer, whatever byte stands at its end, and leaves nothing but the
deframer's own registers: no byte stored, no output of any kind. That the frame is swallowed silently is the spec's own choice
(D4). -/
def Obligations.OversizeFrameIsSwallowed : Prop :=
  ∀ (s : State) (label : Byte) (len : Word16) (payload : List Byte) (b : Byte),
    s.rx.state = .preStart → s.cfg.frameCap < len.toNat → payload.length = len.toNat →
    runSteps (len.toNat + 5)
      (withBytes ([0x7E, label, len.extractLsb' 0 8, len.extractLsb' 8 8] ++ payload ++ [b]) s)
      = .next { s with rx := ⟨.preStart, label, len, len, true⟩ }

/-- R152, first half: the bytes of a frame that fits the buffer bring the deframer to the terminator with exactly that label
and payload, nothing but its registers and the payload's cells changed; the last byte emits it and returns to `PRE_START`. -/
def Obligations.EncodedFrameIsDeframed : Prop :=
  ∀ (s : State) (label : Byte) (payload : List Byte),
    s.rx.state = .preStart → payload.length ≤ s.cfg.frameCap → payload.length ≤ 65535 →
    ∃ u, runSteps (payload.length + 4) (withBytes (frameBytes label payload) s) = .next u
      ∧ u = { s with input := .rxByte 0xE7 :: s.input, rx := u.rx, buf := u.buf }
      ∧ u.rx = ⟨.awaitingEnd, label, BitVec.ofNat 16 payload.length, BitVec.ofNat 16 payload.length, false⟩
      ∧ payloadOf u = payload
      ∧ (∀ a, payload.length ≤ a → Memory.read u.buf a = Memory.read s.buf a)
      ∧ ∀ t, exec .emitFrame { u with input := s.input } = .next t →
          step u = .next { t with rx.state := .preStart }

/-- R152, second half: bytes that lead from `PRE_START` to an emission without passing `PRE_START` again are the encoding of
the frame that is emitted. -/
def Obligations.DeframedBytesAreEncoding : Prop :=
  ∀ (s u : State) (bs : List Byte), s.rx.state = .preStart →
    runSteps bs.length (withBytes (bs ++ [0xE7]) s) = .next u →
    (∀ k v, 0 < k → k ≤ bs.length → runSteps k (withBytes (bs ++ [0xE7]) s) = .next v →
      v.rx.state ≠ .preStart) →
    u.rx.state = .awaitingEnd → u.rx.ovf = false →
    bs ++ [0xE7] = frameBytes u.rx.label (payloadOf u)

/-! Emission and routing. -/

/-- R138 and R140: `e_done` is cleared; an RDM frame goes to `ProcessRdm`, any other is handed to the application unchanged
and the block does nothing else with it. What the application then encodes is the configuration's (log 13). -/
def Obligations.FramesAreRouted : Prop :=
  ∀ s : State,
    (s.rx.label = 82 → exec .emitFrame s = exec .processRdm { s with enc.done := false })
    ∧ (PayloadFilled s → (∀ c ∈ s.cfg.frameOutCalls, c.payload.length ≤ 65535) →
      (s.cfg.frameOutCalls = [] ∨ s.enc.busy = false) →
      exec .frameOut s = .next (handedOver s.rx.label s)
      ∧ (s.rx.label ≠ 82 →
        exec .emitFrame s = .next { handedOver s.rx.label s with enc.done := false }
        ∧ (s.rx.ovf = false → exec (.rxAwaitingEnd 0xE7) s =
          .next { handedOver s.rx.label s with enc.done := false, rx.state := .preStart })))

/-- The label rows: the frame in `buf` routed under that label (R99, R139, R140; log 4). -/
def Obligations.LabelRowsRoute : Prop :=
  ∀ s : State,
    exec .labelRdm s = exec .processRdm { s with enc.done := false }
    ∧ (PayloadFilled s → (∀ c ∈ s.cfg.frameOutCalls, c.payload.length ≤ 65535) →
      (s.cfg.frameOutCalls = [] ∨ s.enc.busy = false) →
      exec .labelParameters s = .next { handedOver 3 s with enc.done := false }
      ∧ exec .labelDmxData s = .next { handedOver 6 s with enc.done := false }
      ∧ exec .labelSerialNumber s = .next { handedOver 10 s with enc.done := false }
      ∧ exec .labelManufacturer s = .next { handedOver 77 s with enc.done := false }
      ∧ exec .labelName s = .next { handedOver 78 s with enc.done := false }
      ∧ ∀ l, (Instr.labelOther l).WellFormed →
        exec (.labelOther l) s = .next { handedOver l s with enc.done := false })

/-- Every RDM frame that carries the parameter bytes it declares is answered where the handlers are lawful, whatever else its
bytes: processing completes with exactly one outcome (R139, R196, R285; lawful handlers keep the contract, logs 11, 12). -/
def Obligations.EveryLawfulFrameIsAnswered : Prop :=
  ∀ s : State, Answerable s → ∃ t, exec .labelRdm s = .next t
    ∧ OneOutcome s t ∧ t.enc.busy = false ∧ t.enc.done = true
    ∧ (s.enc.done = false → exec .processRdm s = .next t)
    ∧ (s.rx.label = 82 → exec .emitFrame s = .next t
      ∧ (s.rx.ovf = false →
        exec (.rxAwaitingEnd 0xE7) s = .next { t with rx.state := .preStart }
        ∧ exec .eom s = .next { t with rx.state := .preStart }))

/-- R285: in every run that does not fault, with whatever handlers, an RDM frame produces exactly one reply frame or exactly
one status, and leaves the encoder closed. -/
def Obligations.ExactlyOneOutcome : Prop :=
  ∀ s t : State, s.enc.busy = false → exec .labelRdm s = .next t →
    OneOutcome s t ∧ t.enc.busy = false ∧ t.enc.done = true

/-- R199 (with the spec's decision D24): a broadcast request gets no reply frame, whatever its PID, its class and its handlers:
TX grows by a status only. A `startResponse` while `c_bcast = 1` stops with `ReplyToBroadcast`. -/
def Obligations.BroadcastGetsNoReply : Prop :=
  (∀ s t : State, s.enc.busy = false →
    (∀ i, 5 ≤ i → i ≤ 8 → Memory.read s.buf i = some 0xFF) →
    exec .labelRdm s = .next t →
    ∃ k, t.trace.tx = s.trace.tx ++ statusBytes s.cfg k ∧ t.trace.statusLog = s.trace.statusLog ++ [k])
  ∧ ∀ (s : State) (rt pdl cc : Byte) (pid : Word16), Ready s → s.ctx.bcast = true →
    exec (.startResponse rt pdl cc pid) s = .fault .replyToBroadcast

/-- R283, items 3 to 13, with R284 and R287: the first failing check in R283's order decides how the frame ends, and a frame
that ends before a handler runs has no effect but that outcome. That the destination comes after the checksum (D8) and the
command class before the sub-device (D9) are the spec's own decisions (log 25). -/
def Obligations.FirstFailureDecides : Prop :=
  ∀ s : State, PayloadFilled s → Ready s →
    match expectedEnd s.cfg s.store (payloadOf s) with
    | .status k => ∃ t, exec .processRdm s = .next t
        ∧ t = { s with val := t.val, disp := t.disp, ctx := t.ctx, enc := { s.enc with done := true }
                       trace := { s.trace with
                          tx := s.trace.tx ++ statusBytes s.cfg k
                          statusLog := s.trace.statusLog ++ [k] } }
    | .nack r => ∃ t, exec .processRdm s = .next t
        ∧ t = { s with val := t.val, disp := t.disp, ctx := t.ctx, enc := t.enc
                       trace := { s.trace with
                          tx := s.trace.tx
                            ++ replyFrameBytes s.cfg.statusOk (nackFields s (payloadOf s) r) } }
        ∧ t.enc.busy = false ∧ t.enc.done = true
    | .invoke v => ∀ t, exec .processRdm s = .next t →
        t.trace.handlerLog = s.trace.handlerLog ++ [v]

/-! The validator. -/

/-- R161. -/
def Obligations.SizeCheck : Prop :=
  ∀ s : State,
    (26 ≤ s.val.size.toNat → exec .validateSize s = .next s)
    ∧ (s.val.size.toNat < 26 → Ready s →
      exec .validateSize s = .next (withStatus .tooShort { s with val.verdict := .tooShort }))

/-- R162. -/
def Obligations.StartCodeCheck : Prop :=
  ∀ s : State, Readable s 2 →
    (byteAt s 0 = 0xCC → byteAt s 1 = 0x01 → exec .validateStartCodes s = .next s)
    ∧ ((byteAt s 0 ≠ 0xCC ∨ byteAt s 1 ≠ 0x01) → Ready s →
      exec .validateStartCodes s =
        .next (withStatus .badStartCode { s with val.verdict := .badStartCode }))

/-- The code rows of a request: the start-code rows are the two halves of check 2 (R162), and a response class met in a request
is rejected (R100, R181); log 4. -/
def Obligations.RequestCodeRows : Prop :=
  ∀ s : State,
    (Readable s 2 →
      (byteAt s 0 = 0xCC → exec .rdmSc s = .next s)
      ∧ (byteAt s 0 ≠ 0xCC → Ready s →
        exec .rdmSc s = .next (withStatus .badStartCode { s with val.verdict := .badStartCode }))
      ∧ (byteAt s 1 = 0x01 → exec .rdmSubSc s = .next s)
      ∧ (byteAt s 1 ≠ 0x01 → Ready s →
        exec .rdmSubSc s = .next (withStatus .badStartCode { s with val.verdict := .badStartCode })))
    ∧ (Ready s →
      exec .ccGetResponse s = .next (withStatus .invalidCommandClass s)
      ∧ exec .ccSetResponse s = .next (withStatus .invalidCommandClass s))

/-- R163: the length byte is compared with `size - 2` as integers. -/
def Obligations.LengthCheck : Prop :=
  ∀ s : State, Readable s 3 →
    ((byteAt s 2).toNat + 2 = s.val.size.toNat → exec .validateLength s = .next s)
    ∧ ((byteAt s 2).toNat + 2 ≠ s.val.size.toNat → Ready s →
      exec .validateLength s = .next (withStatus .badLength { s with val.verdict := .badLength }))

/-- R164: the sum of all bytes but the last two against those two. -/
def Obligations.ChecksumCheck : Prop :=
  ∀ (s : State) (n : Nat), s.val.size.toNat = n + 2 → Readable s (n + 2) →
    (bytes16 (checksum (bytesAt s 0 n)) = [byteAt s n, byteAt s (n + 1)] →
      exec .validateChecksum s = .next { s with val.sum := checksum (bytesAt s 0 n) })
    ∧ (bytes16 (checksum (bytesAt s 0 n)) ≠ [byteAt s n, byteAt s (n + 1)] → Ready s →
      exec .validateChecksum s = .next (withStatus .badChecksum
        { s with val.sum := checksum (bytesAt s 0 n), val.verdict := .badChecksum }))

/-- R166: bytes 5 to 8 only. -/
def Obligations.BroadcastIsBytes5To8 : Prop :=
  ∀ s : State, Readable s 9 →
    exec .detectBroadcast s = .next { s with
      val.isBroadcast :=
        decide (byteAt s 5 = 0xFF ∧ byteAt s 6 = 0xFF ∧ byteAt s 7 = 0xFF ∧ byteAt s 8 = 0xFF) }

/-- R167 and R168: a packet is to us if it is broadcast or its six destination bytes are the UID's; any other is reported and
dropped. -/
def Obligations.DestinationMatch : Prop :=
  ∀ s : State,
    (Readable s 9 → exec .matchDestination s = .next { s with
      val.toUs := decide (s.val.isBroadcast = true
        ∨ bytesAt s 3 6 = bytes16 s.store.estaId ++ bytes32 s.store.serialNumber) })
    ∧ (s.val.toUs = true → exec .wrongDestination s = .next s)
    ∧ (s.val.toUs = false → Ready s → exec .wrongDestination s = .next (withStatus .wrongDestination s))

/-- R169: changing one byte before the checksum of a packet that passes the four checks gets it rejected, by the check that
covers the byte (the spec derives the law from R161 to R164). -/
def Obligations.MutationIsRejected : Prop :=
  ∀ (s : State) (j : Nat) (v : Byte), PayloadFilled s → Ready s →
    packetPasses (payloadOf s) = true → j + 3 ≤ s.rx.len.toNat → v ≠ byteAt s j →
    ∃ t k w, exec .processRdm { s with buf := Memory.write s.buf j v } = .next t
      ∧ (k, w) = (if j < 2 then (StatusKind.badStartCode, Verdict.badStartCode)
          else if j = 2 then (StatusKind.badLength, Verdict.badLength)
          else (StatusKind.badChecksum, Verdict.badChecksum))
      ∧ t.val.verdict = w
      ∧ t.trace = { s.trace with
          tx := s.trace.tx ++ statusBytes s.cfg k
          statusLog := s.trace.statusLog ++ [k] }

/-! The dispatcher. -/

/-- R181: only GET and SET pass. -/
def Obligations.CommandClassCheck : Prop :=
  ∀ s : State, Readable s 21 →
    ((byteAt s 20 = 0x20 ∨ byteAt s 20 = 0x30) →
      exec .dispatchCcCheck s = .next { s with disp.cc := byteAt s 20 })
    ∧ (byteAt s 20 ≠ 0x20 → byteAt s 20 ≠ 0x30 → Ready s →
      exec .dispatchCcCheck s =
        .next (withStatus .invalidCommandClass { s with disp.cc := byteAt s 20 }))

/-- R182: sub-devices other than 0 and `0xFFFF` are refused with reason 9. -/
def Obligations.SubDeviceCheck : Prop :=
  ∀ (s : State) (sub : Word16), Readable s 20 → sub = be16 (byteAt s 18) (byteAt s 19) →
    ((sub = 0x0000 ∨ sub = 0xFFFF) →
      exec .dispatchSubdeviceRange s = .next { s with disp.sub := sub })
    ∧ (sub ≠ 0x0000 → sub ≠ 0xFFFF →
      exec .dispatchSubdeviceRange s =
        exec (.nackOrBroadcast s.val.isBroadcast 9) { s with disp.sub := sub })

/-- R183: `d_found` says whether an entry has the PID, and `d_idx` is then the largest matching index. That `d_idx` is kept
where nothing matches is log 30. -/
def Obligations.LookupTakesLastMatch : Prop :=
  ∀ (s : State) (pid : Word16), Readable s 23 → pid = be16 (byteAt s 21) (byteAt s 22) →
    ∃ t, exec .dispatchPidLookup s = .next t
      ∧ t = { s with disp := { s.disp with pid := pid, found := t.disp.found, idx := t.disp.idx } }
      ∧ (t.disp.found = true ↔ ∃ e ∈ s.cfg.pidTable, e.pid = pid)
      ∧ (t.disp.found = true → ∃ e, s.cfg.pidTable[t.disp.idx]? = some e ∧ e.pid = pid)
      ∧ (t.disp.found = true → ∀ (j : Nat) e, t.disp.idx < j → s.cfg.pidTable[j]? = some e → e.pid ≠ pid)
      ∧ (t.disp.found = false → t.disp.idx = s.disp.idx)

/-- R184, R185 and R190: an unknown PID is refused with reason 0; a known one without a handler for the class with reason 5. -/
def Obligations.MissingHandlersAreRefused : Prop :=
  ∀ s : State,
    (s.disp.found = true → exec .dispatchUnknownPid s = .next s)
    ∧ (s.disp.found = false →
      exec .dispatchUnknownPid s = exec (.nackOrBroadcast s.val.isBroadcast 0) s)
    ∧ ∀ e, s.cfg.pidTable[s.disp.idx]? = some e →
      (e.get.isSome = true → exec .dispatchGetNoHandler s = .next s)
      ∧ (e.get = none →
        exec .dispatchGetNoHandler s = exec (.nackOrBroadcast s.val.isBroadcast 5) s)
      ∧ (e.set.isSome = true → exec .dispatchSetNoHandler s = .next s)
      ∧ (e.set = none →
        exec .dispatchSetNoHandler s = exec (.nackOrBroadcast s.val.isBroadcast 5) s)

/-- R186, R187 and R188: a broadcast GET gets no reply and ends in the status `BroadcastNoReply`, which is the spec's own
decision D33 (log 25); a GET of another sub-device is refused with reason 9, a wrong declared length with reason 1. -/
def Obligations.GetChecks : Prop :=
  ∀ s : State,
    (s.val.isBroadcast = false → exec .dispatchGetBroadcast s = .next s)
    ∧ (s.val.isBroadcast = true → Ready s →
      exec .dispatchGetBroadcast s = .next (withStatus .broadcastNoReply s))
    ∧ (s.disp.sub = 0x0000 → exec .dispatchGetSubdevice s = .next s)
    ∧ (s.disp.sub ≠ 0x0000 → exec .dispatchGetSubdevice s = exec (.sendNack 9) s)
    ∧ ∀ e, s.cfg.pidTable[s.disp.idx]? = some e → Readable s 24 →
      (byteAt s 23 = e.getArgLen →
        exec .dispatchGetArgSize s = .next { s with disp.pdl := byteAt s 23 })
      ∧ (byteAt s 23 ≠ e.getArgLen →
        exec .dispatchGetArgSize s = exec (.sendNack 1) { s with disp.pdl := byteAt s 23 })

/-- The class rows run the GET path R185 to R189 and the SET path R190, R191 for the entry the lookup found, stopping at the
first refusal (log 4). -/
def Obligations.ClassRowsRunTheirPath : Prop :=
  ∀ (s : State) (e : PidDefinition), s.cfg.pidTable[s.disp.idx]? = some e → Readable s 24 →
    (e.get = none → exec .ccGet s = exec .dispatchGetNoHandler s)
    ∧ (e.get.isSome = true → s.val.isBroadcast = true → exec .ccGet s = exec .dispatchGetBroadcast s)
    ∧ (e.get.isSome = true → s.val.isBroadcast = false → s.disp.sub ≠ 0x0000 →
      exec .ccGet s = exec .dispatchGetSubdevice s)
    ∧ (e.get.isSome = true → s.val.isBroadcast = false → s.disp.sub = 0x0000 →
      byteAt s 23 ≠ e.getArgLen → exec .ccGet s = exec .dispatchGetArgSize s)
    ∧ (e.get.isSome = true → s.val.isBroadcast = false → s.disp.sub = 0x0000 →
      byteAt s 23 = e.getArgLen →
      exec .ccGet s = exec .dispatchGetInvoke { s with disp.pdl := byteAt s 23 })
    ∧ (e.set = none → exec .ccSet s = exec .dispatchSetNoHandler s)
    ∧ (e.set.isSome = true → exec .ccSet s = exec .dispatchSetInvoke s)

/-- R189, R191 and R196: for a request that carries the parameter bytes it declares, a lawful handler is invoked, logged, and
produces exactly one outcome; the class rows reach it too (logs 4, 11). -/
def Obligations.LawfulHandlersComplete : Prop :=
  ∀ (s : State) (e : PidDefinition), s.cfg.pidTable[s.disp.idx]? = some e → Ready s →
    (includedPids s.cfg).length ≤ 115 →
    Readable s (24 + (byteAt s 23).toNat) → 26 + (byteAt s 23).toNat ≤ s.val.size.toNat →
    (∀ b, e.get = some b → lawfulGet b = true → s.ctx.bcast = false →
      (∃ t, exec .dispatchGetInvoke s = .next t ∧ Served (.get s.disp.idx) s t)
      ∧ (s.val.isBroadcast = false → s.disp.sub = 0x0000 → byteAt s 23 = e.getArgLen →
        ∃ t, exec .ccGet s = .next t ∧ Served (.get s.disp.idx) s t))
    ∧ (∀ b, e.set = some b → lawfulSet b = true → s.ctx.bcast = s.val.isBroadcast →
      ∃ t, exec .dispatchSetInvoke s = .next t ∧ exec .ccSet s = .next t
        ∧ Served (.set s.disp.idx s.val.isBroadcast) s t)

/-- The frame of an invocation and of a whole RDM frame: a handler leaves everything but the encoder, the flags, the agent's
own state, the store, TX and the two logs as it was; where the table's GETs keep R259, a GET handler leaves the agent's state
and the store too, and the flags unless a result is pending (R259, R260); processing a frame also loads the validator's and the
dispatcher's registers and the `ResponseContext`. -/
def Obligations.InvocationFrame : Prop :=
  ∀ (i : Instr) (s t : State), exec i s = .next t →
    (i ∈ [.dispatchGetInvoke, .dispatchSetInvoke, .ccGet, .ccSet] →
      t = { s with
        disp.pdl := t.disp.pdl
        enc := t.enc
        flags := t.flags
        agent := t.agent
        store := t.store
        trace := { s.trace with
          tx := t.trace.tx, statusLog := t.trace.statusLog, handlerLog := t.trace.handlerLog } })
    ∧ (i ∈ [.dispatchGetInvoke, .ccGet] → quietConfig s.cfg = true →
      t.store = s.store ∧ t.agent = s.agent ∧ (s.flags.labelPending = false → t.flags = s.flags))
    ∧ (i ∈ [.processRdm, .labelRdm] →
      t = { s with
        val := t.val
        disp := t.disp
        ctx := t.ctx
        enc := t.enc
        flags := t.flags
        agent := t.agent
        store := t.store
        trace := { s.trace with
          tx := t.trace.tx, statusLog := t.trace.statusLog, handlerLog := t.trace.handlerLog } })

/-! The response encoder. -/

/-- `startResponse`, R211 with R222: the outer header and the status marker, then the 24 header bytes, whose sum is left in
`e_sum`. The request's fields come from the `ResponseContext` (R30, log 17); a non-zero marker is not accumulated (log 27). -/
def Obligations.StartResponseBytes : Prop :=
  ∀ (s : State) (rt pdl cc : Byte) (pid : Word16) (header : List Byte),
    Ready s → s.ctx.bcast = false → pdl.toNat ≤ 231 →
    header = [0xCC, 0x01, 24 + pdl] ++ bytes48 s.ctx.dst
      ++ (bytes16 s.store.estaId ++ bytes32 s.store.serialNumber)
      ++ [s.ctx.tn, rt, s.flags.queuedCount] ++ bytes16 s.ctx.sub ++ [cc] ++ bytes16 pid ++ [pdl] →
    exec (.startResponse rt pdl cc pid) s = .next { s with
      trace.tx := s.trace.tx
        ++ [0x7E, 82, BitVec.ofNat 8 ((27 + pdl.toNat) % 256), BitVec.ofNat 8 ((27 + pdl.toNat) / 256),
            s.cfg.statusOk] ++ header
      enc := { sum := checksum header, busy := true, remaining := pdl.setWidth 9, done := false } }

/-- R212, R213 and R214: 1, 2 or 4 bytes, most significant first, each accumulated and counted. -/
def Obligations.SendsAreBigEndian : Prop :=
  ∀ s : State, s.enc.busy = true →
    (∀ v : Byte, 1 ≤ s.enc.remaining.toNat → exec (.sendByte v) s = .next { s with
      trace.tx := s.trace.tx ++ [v]
      enc.sum := s.enc.sum + v.setWidth 16
      enc.remaining := s.enc.remaining - 1 })
    ∧ (∀ v : Word16, 2 ≤ s.enc.remaining.toNat → exec (.sendInt v) s = .next { s with
      trace.tx := s.trace.tx ++ [v.extractLsb' 8 8, v.extractLsb' 0 8]
      enc.sum := s.enc.sum + (v.extractLsb' 8 8).setWidth 16 + (v.extractLsb' 0 8).setWidth 16
      enc.remaining := s.enc.remaining - 2 })
    ∧ (∀ v : Word32, 4 ≤ s.enc.remaining.toNat → exec (.sendLong v) s = .next { s with
      trace.tx := s.trace.tx
        ++ [v.extractLsb' 24 8, v.extractLsb' 16 8, v.extractLsb' 8 8, v.extractLsb' 0 8]
      enc.sum := s.enc.sum + (v.extractLsb' 24 8).setWidth 16 + (v.extractLsb' 16 8).setWidth 16
        + (v.extractLsb' 8 8).setWidth 16 + (v.extractLsb' 0 8).setWidth 16
      enc.remaining := s.enc.remaining - 4 })

/-- R215: the checksum high byte then low byte, the terminator; the response is closed and is the frame's outcome. -/
def Obligations.EndResponseCloses : Prop :=
  ∀ s : State, s.enc.busy = true → s.enc.remaining = 0 →
    exec .endResponse s = .next { s with
      trace.tx := s.trace.tx ++ [s.enc.sum.extractLsb' 8 8, s.enc.sum.extractLsb' 0 8, 0xE7]
      enc.busy := false
      enc.done := true }

/-- R216, R217 and R218: each convenience operation is the whole reply to the request, with its type and parameter data, and
is the sequence of primitives the rule gives. -/
def Obligations.ConvenienceReplies : Prop :=
  ∀ s : State, Ready s → s.ctx.bcast = false →
    exec .sendEmptyAck s = .next (answered 0 [] s)
    ∧ exec .sendEmptyAck s
      = andThen (exec (.startResponse 0 0 s.ctx.cc s.ctx.pid) s) (exec .endResponse)
    ∧ (∀ r : Word16, exec (.sendNack r) s = .next (answered 2 (bytes16 r) s)
      ∧ exec (.sendNack r) s = andThen (exec (.startResponse 2 2 s.ctx.cc s.ctx.pid) s) fun t =>
        andThen (exec (.sendInt r) t) (exec .endResponse))
    ∧ ∀ d : Word16, exec (.sendAckTimer d) s = .next (answered 1 (bytes16 d) s)
      ∧ exec (.sendAckTimer d) s = andThen (exec (.startResponse 1 2 s.ctx.cc s.ctx.pid) s) fun t =>
        andThen (exec (.sendInt d) t) (exec .endResponse)

/-- R219 and R220: a suppressed reply is the status `BroadcastNoReply`, otherwise a NACK is sent; a status report that is not
that of a broadcast request, and a reply to one, are contract violations (the spec's decisions D14, D24). -/
def Obligations.SuppressedReplies : Prop :=
  ∀ (s : State) (r : Word16),
    exec (.nackOrBroadcast false r) s = exec (.sendNack r) s
    ∧ (s.ctx.bcast = true → Ready s →
      exec (.nackOrBroadcast true r) s = .next (withStatus .broadcastNoReply s)
      ∧ exec (.reportStatus .broadcastNoReply) s = .next (withStatus .broadcastNoReply s)
      ∧ exec (.nackOrBroadcast false r) s = .fault .replyToBroadcast)
    ∧ (s.ctx.bcast = false → Ready s →
      exec (.nackOrBroadcast false r) s = .next (answered 2 (bytes16 r) s))
    ∧ (s.ctx.bcast = false → exec (.nackOrBroadcast true r) s = .fault .badStatusReport)
    ∧ ∀ k, (k ≠ .broadcastNoReply ∨ s.ctx.bcast = false) →
      exec (.reportStatus k) s = .fault .badStatusReport

/-- R290, the one operation behind every status: the log entry, the status frame with the code of R280 unless the kind is
configured silent, and the outcome. The six TX bytes are the spec's own reading (D10). -/
def Obligations.StatusIsTaken : Prop :=
  ∀ (s : State) (k : StatusKind) (code : Byte), Ready s →
    code = (match k with
      | .tooShort | .badStartCode | .badLength => s.cfg.statusFailed
      | .badChecksum => s.cfg.statusFailedChecksum
      | .wrongDestination => s.cfg.statusInvalidDestination
      | .invalidCommandClass => s.cfg.statusInvalidCommand
      | .broadcastNoReply => s.cfg.statusBroadcast) →
    exec (.status k) s = .next { s with
      trace.statusLog := s.trace.statusLog ++ [k]
      trace.tx := s.trace.tx ++
        (if k ∈ s.cfg.silentKinds then [] else [0x7E, 82, 0x01, 0x00, code, 0xE7])
      enc.done := true }

/-- R224: each misuse of the encoder stops with its named fault (the spec's decision D14). Where several apply the order is the
model's (log 16). -/
def Obligations.MisuseFaults : Prop :=
  ∀ s : State,
    (s.enc.busy = true →
      (∀ rt pdl cc pid, exec (.startResponse rt pdl cc pid) s = .fault .encoderBusy)
      ∧ (∀ k, exec (.status k) s = .fault .encoderBusy)
      ∧ (∀ v, s.enc.remaining.toNat < 1 → exec (.sendByte v) s = .fault .paramOverrun)
      ∧ (∀ v, s.enc.remaining.toNat < 2 → exec (.sendInt v) s = .fault .paramOverrun)
      ∧ (∀ v, s.enc.remaining.toNat < 4 → exec (.sendLong v) s = .fault .paramOverrun)
      ∧ (s.enc.remaining ≠ 0 → exec .endResponse s = .fault .paramUnderrun))
    ∧ (s.enc.busy = false →
      (∀ v, exec (.sendByte v) s = .fault .noResponseOpen)
      ∧ (∀ v, exec (.sendInt v) s = .fault .noResponseOpen)
      ∧ (∀ v, exec (.sendLong v) s = .fault .noResponseOpen)
      ∧ exec .endResponse s = .fault .noResponseOpen)
    ∧ (s.enc.busy = false → s.enc.done = true →
      (∀ rt pdl cc pid, exec (.startResponse rt pdl cc pid) s = .fault .secondOutcome)
      ∧ ∀ k, exec (.status k) s = .fault .secondOutcome)
    ∧ (Ready s → s.ctx.bcast = true → ∀ rt pdl cc pid,
      exec (.startResponse rt pdl cc pid) s = .fault .replyToBroadcast)
    ∧ (Ready s → s.ctx.bcast = false → ∀ rt pdl cc pid, 231 < pdl.toNat →
      exec (.startResponse rt pdl cc pid) s = .fault .pdlTooLong)
    ∧ (∀ low, exec (.handlerReservedAB low) s = .fault .badHandlerCommand)
    ∧ (∀ low, exec (.handlerReservedCF low) s = .fault .badHandlerCommand)
    ∧ ∀ k, (k ≠ .broadcastNoReply ∨ s.ctx.bcast = false) →
      exec (.reportStatus k) s = .fault .badStatusReport

/-- The reserved handler-port codes `0xA` to `0xF` stop with `BadHandlerCommand` on every path (R106). -/
def Obligations.ReservedPortCodesStop : Prop :=
  ∀ (s : State) (code : Byte), 10 ≤ code.toNat → code.toNat ≤ 15 →
    ∃ i, decode .handlerPort [code] = .ok i ∧ exec i s = .fault .badHandlerCommand

/-- R150 and R151: the framed bytes go out, nothing else changes; a payload beyond 16 bits of length stops, and so does a call
while a response is open (R330), which is tested first (log 16). -/
def Obligations.EncodeFrames : Prop :=
  ∀ (s : State) (label : Byte) (payload : List Byte),
    (s.enc.busy = false → payload.length ≤ 65535 →
      exec (.encode label payload) s = .next { s with
        trace.tx := s.trace.tx ++ [0x7E, label, BitVec.ofNat 8 (payload.length % 256),
          BitVec.ofNat 8 (payload.length / 256)] ++ payload ++ [0xE7] })
    ∧ (s.enc.busy = false → 65535 < payload.length →
      exec (.encode label payload) s = .fault .encodeTooLong)
    ∧ (s.enc.busy = true → exec (.encode label payload) s = .fault .encoderBusy)

/-- REPLY: the reply frame of R97 in its order, with the packet of R92 and the checksum of R95; its lengths are those of
R223. That REPLY needs a ready encoder is the encoder's own requirement (R224). -/
def Obligations.ReplyFrameLayout : Prop :=
  ∀ (s : State) (f : ReplyFields) (packet : List Byte),
    Ready s → s.ctx.bcast = false → f.data.length ≤ 231 →
    packet = [0xCC, 0x01, BitVec.ofNat 8 (24 + f.data.length)] ++ bytes48 f.dst ++ bytes48 f.src
      ++ [f.tn, f.rt, f.mc] ++ bytes16 f.sub ++ [f.cc] ++ bytes16 f.pid
      ++ [BitVec.ofNat 8 f.data.length] ++ f.data →
    packet.length = 24 + f.data.length
    ∧ (replyFrameBytes s.cfg.statusOk f).length = 32 + f.data.length
    ∧ exec (.reply f) s = .next { s with
      trace.tx := s.trace.tx
        ++ [0x7E, 82, BitVec.ofNat 8 ((27 + f.data.length) % 256),
            BitVec.ofNat 8 ((27 + f.data.length) / 256), s.cfg.statusOk]
        ++ packet ++ bytes16 (checksum packet) ++ [0xE7]
      enc := { sum := checksum packet, busy := false, remaining := 0, done := true } }

/-- R225: a reply frame, fed back to a deframer with room for it, comes out as one frame under label 82 that begins with the
status-ok marker and goes on with a packet the four checks pass, the machine's own checks among them. -/
def Obligations.RepliesAreWellFormed : Prop :=
  ∀ (s : State) (ok : Byte) (f : ReplyFields), f.data.length ≤ 231 →
    s.rx.state = .preStart → 27 + f.data.length ≤ s.cfg.frameCap →
    ∃ u p, runSteps (31 + f.data.length) (withBytes (replyFrameBytes ok f) s) = .next u
      ∧ u.input = .rxByte 0xE7 :: s.input
      ∧ u.rx.state = .awaitingEnd ∧ u.rx.label = 82 ∧ u.rx.ovf = false
      ∧ payloadOf u = ok :: p ∧ packetPasses p = true
      ∧ ∀ v : State, v.val.size.toNat = p.length → Readable v p.length → bytesAt v 0 p.length = p →
        exec .validateSize v = .next v ∧ exec .validateStartCodes v = .next v
        ∧ exec .validateLength v = .next v
        ∧ ∃ sum, exec .validateChecksum v = .next { v with val.sum := sum }

/-- The rows of the codes the block sends: a response type is one accumulated byte, a NACK reason the NACK with that reason,
`STATUS_OK` the marker (accumulated only if zero, R222), another status code one status frame (R98, R101, R102, R103, R217; logs
4, 21, 27). That the response types and `STATUS_OK`, run alone, go out uncounted whatever `e_busy` is, is log 36. -/
def Obligations.SentCodeRows : Prop :=
  ∀ s : State,
    exec .rtAck s = .next { s with trace.tx := s.trace.tx ++ [0] }
    ∧ exec .rtAckTimer s =
      .next { s with trace.tx := s.trace.tx ++ [1], enc.sum := s.enc.sum + 1 }
    ∧ exec .rtNack s = .next { s with trace.tx := s.trace.tx ++ [2], enc.sum := s.enc.sum + 2 }
    ∧ (Ready s → s.ctx.bcast = false →
      exec .nrUnknownPid s = .next (answered 2 [0x00, 0x00] s)
      ∧ exec .nrFormatError s = .next (answered 2 [0x00, 0x01] s)
      ∧ exec .nrUnsupportedCommandClass s = .next (answered 2 [0x00, 0x05] s)
      ∧ exec .nrDataOutOfRange s = .next (answered 2 [0x00, 0x06] s)
      ∧ exec .nrSubDeviceOutOfRange s = .next (answered 2 [0x00, 0x09] s))
    ∧ exec .statusOk s = .next { s with trace.tx := s.trace.tx ++ [s.cfg.statusOk] }
    ∧ (s.enc.busy = false →
      exec .statusBroadcast s = .next { s with
        trace.tx := s.trace.tx ++ [0x7E, 82, 1, 0, s.cfg.statusBroadcast, 0xE7] }
      ∧ exec .statusFailed s = .next { s with
        trace.tx := s.trace.tx ++ [0x7E, 82, 1, 0, s.cfg.statusFailed, 0xE7] }
      ∧ exec .statusFailedChecksum s = .next { s with
        trace.tx := s.trace.tx ++ [0x7E, 82, 1, 0, s.cfg.statusFailedChecksum, 0xE7] }
      ∧ exec .statusInvalidDestination s = .next { s with
        trace.tx := s.trace.tx ++ [0x7E, 82, 1, 0, s.cfg.statusInvalidDestination, 0xE7] }
      ∧ exec .statusInvalidCommand s = .next { s with
        trace.tx := s.trace.tx ++ [0x7E, 82, 1, 0, s.cfg.statusInvalidCommand, 0xE7] })

/-! The handlers the spec settles. -/

/-- R252: an ACK whose data is the included PIDs in table order, two bytes each; more than 115 do not fit one reply. -/
def Obligations.SupportedParametersReply : Prop :=
  ∀ (s : State) (pids : List Word16),
    pids = (s.cfg.pidTable.filter fun e => e.included).map (fun e => e.pid) →
    Ready s → s.ctx.bcast = false →
    (pids.length ≤ 115 →
      exec .getSupportedParameters s = .next (answered 0 (pids.flatMap bytes16) s))
    ∧ (115 < pids.length → exec .getSupportedParameters s = .fault .pdlTooLong)

/-- R253: an over-long label is a format error; otherwise the label is stored, a broadcast ends in `BroadcastNoReply`, and a
unicast gets an ACK_TIMER with the message count as it was, after which the result is pending and counted once. The order of the
reply and the flags, that count, and nothing pending after a broadcast are the spec's own decision D22 (log 25). -/
def Obligations.DeviceLabelSetIsDeferred : Prop :=
  ∀ (s : State) (pdl : Nat), Readable s 24 → pdl = (byteAt s 23).toNat →
    (s.cfg.labelMax < pdl →
      exec .setDeviceLabel s = exec (.nackOrBroadcast s.val.isBroadcast 1) s)
    ∧ (pdl ≤ s.cfg.labelMax → Readable s (24 + pdl) → 26 + pdl ≤ s.val.size.toNat → Ready s →
      s.ctx.bcast = s.val.isBroadcast →
      (s.val.isBroadcast = true → exec .setDeviceLabel s =
        .next (withStatus .broadcastNoReply { s with store.deviceLabel := bytesAt s 24 pdl }))
      ∧ (s.val.isBroadcast = false → exec .setDeviceLabel s =
        .next { answered 1 (bytes16 s.cfg.labelAckDelay) { s with store.deviceLabel := bytesAt s 24 pdl } with
          flags := { s.flags with
            labelPending := true
            queuedCount := if s.flags.labelPending then s.flags.queuedCount else s.flags.queuedCount + 1 } }))

/-- R254 and R255: while a result is pending, the flags change first and the reply is an empty SET_RESPONSE ACK of the
device-label PID with the lowered count; otherwise an empty GET_RESPONSE ACK of the status-messages PID. The two rows carry one
request, and the pending flag selects (log 24); the order of the flags
and the reply and the replies' fields are the spec's own choices (D22, D23). -/
def Obligations.QueuedMessageReplies : Prop :=
  ∀ (s : State) (i : Instr), (i = .getQueuedMessagePending ∨ i = .getQueuedMessageIdle) →
    Ready s → s.ctx.bcast = false →
    (s.flags.labelPending = true → exec i s = .next (replied
      { dst := s.ctx.dst, src := s.store.estaId ++ s.store.serialNumber, tn := s.ctx.tn, rt := 0,
        mc := s.flags.queuedCount - 1, sub := s.ctx.sub, cc := 0x31, pid := s.cfg.pidDeviceLabel, data := [] }
      { s with flags := { s.flags with
          labelPending := false
          queuedCount := s.flags.queuedCount - 1
          lastMessageSent := true } }))
    ∧ (s.flags.labelPending = false → exec i s = .next (replied
      { dst := s.ctx.dst, src := s.store.estaId ++ s.store.serialNumber, tn := s.ctx.tn, rt := 0,
        mc := s.flags.queuedCount, sub := s.ctx.sub, cc := 0x21, pid := s.cfg.pidStatusMessages, data := [] }
      s))

/-- R256: length 2, value from 1 to `START_ADDRESS_MAX`, stored and acknowledged (or silent); a request that carries fewer
bytes than it declares faults. -/
def Obligations.StartAddressSet : Prop :=
  ∀ (s : State) (v : Word16), Readable s 24 →
    (byteAt s 23 ≠ 2 → exec .setDmxStartAddress s = exec (.nackOrBroadcast s.val.isBroadcast 1) s)
    ∧ (byteAt s 23 = 2 → s.val.size.toNat < 28 → Readable s s.val.size.toNat →
      exec .setDmxStartAddress s = .fault .bufOutOfBounds)
    ∧ (byteAt s 23 = 2 → 28 ≤ s.val.size.toNat → Readable s 26 → v = be16 (byteAt s 24) (byteAt s 25) →
      ((v = 0 ∨ s.cfg.startAddressMax < v.toNat) →
        exec .setDmxStartAddress s = exec (.nackOrBroadcast s.val.isBroadcast 6) s)
      ∧ (v ≠ 0 → v.toNat ≤ s.cfg.startAddressMax → Ready s → s.ctx.bcast = s.val.isBroadcast →
        exec .setDmxStartAddress s = .next
          (if s.val.isBroadcast then withStatus .broadcastNoReply { s with store.startAddress := v }
            else answered 0 [] { s with store.startAddress := v })))

/-- R257: length 4, every value but all ones; the reply already carries the new serial number in its source UID. The two NACK
reasons are the spec's own decision D30 (log 25). -/
def Obligations.SerialNumberSet : Prop :=
  ∀ (s : State) (v : Word32), Readable s 24 →
    (byteAt s 23 ≠ 4 → exec .setSerialNumber s = exec (.nackOrBroadcast s.val.isBroadcast 1) s)
    ∧ (byteAt s 23 = 4 → 30 ≤ s.val.size.toNat → Readable s 28 →
      v = be32 (byteAt s 24) (byteAt s 25) (byteAt s 26) (byteAt s 27) →
      (v = 0xFFFFFFFF →
        exec .setSerialNumber s = exec (.nackOrBroadcast s.val.isBroadcast 6) s)
      ∧ (v ≠ 0xFFFFFFFF → Ready s → s.ctx.bcast = s.val.isBroadcast →
        exec .setSerialNumber s = .next
          (if s.val.isBroadcast then withStatus .broadcastNoReply { s with store.serialNumber := v }
            else replied
              { dst := s.ctx.dst, src := s.store.estaId ++ v, tn := s.ctx.tn, rt := 0,
                mc := s.flags.queuedCount, sub := s.ctx.sub, cc := s.ctx.cc, pid := s.ctx.pid, data := [] }
              { s with store.serialNumber := v })))

/-- R259: where the table's GETs keep it, a GET writes no store value and nothing of the agent's own, and no flag unless it
fetches a pending result; where the flags stand, the same request again gets the same bytes, whatever label was committed in
between (R261), and a packet that passes the four checks, sent again under another transaction number, gets the same answer but
for its echo and the checksum over it. The answers of handlers not in the source are functions of what R259 names (log 11). -/
def Obligations.GetIsIdempotent : Prop :=
  ∀ s t : State, quietConfig s.cfg = true → PayloadFilled s → s.enc.busy = false → byteAt s 20 = 0x20 →
    exec .labelRdm s = .next t →
    t.store = s.store ∧ t.agent = s.agent
    ∧ (s.flags.labelPending = false → t.flags = s.flags)
    ∧ (t.flags = s.flags → ∃ bs, t.trace.tx = s.trace.tx ++ bs ∧
      ∀ committed, ∃ u, exec .labelRdm { t with store.committedLabel := committed } = .next u
        ∧ u.trace.tx = t.trace.tx ++ bs ∧ u.flags = s.flags ∧ u.agent = s.agent
        ∧ u.store = { s.store with committedLabel := committed })
    ∧ (t.flags = s.flags → packetPasses (payloadOf s) = true → ∃ bs, t.trace.tx = s.trace.tx ++ bs ∧
      ∀ (committed : List Byte) (tn : Byte) (v : State),
        v = { t with store.committedLabel := committed, buf := v.buf } → PayloadFilled v →
        payloadOf v = retagged tn (payloadOf s) →
        ∃ u cs, exec .labelRdm v = .next u ∧ u.trace.tx = v.trace.tx ++ cs ∧ SameButEcho s.cfg tn bs cs
          ∧ u.flags = s.flags ∧ u.agent = s.agent ∧ u.store = v.store)

/-! The whole machine. -/

/-- R39, R60, R70 and R77: no operation changes the configuration (the PID table among it), the pending inputs or what earlier
resets cut off; only RX_EMPTY strobes, once; the outputs only grow; only a payload byte writes `buf`; only the RX events, and
the marker rows that stand for two of them, write the deframer's registers. -/
def Obligations.OnlyItsOwnWriter : Prop :=
  ∀ (i : Instr) (s t : State), exec i s = .next t →
    t.cfg = s.cfg ∧ t.input = s.input
    ∧ t.trace.idleLog = s.trace.idleLog + (if i = .rxEmpty then 1 else 0)
    ∧ t.past = s.past ∧ t.strobes = s.strobes + (if i = .rxEmpty then 1 else 0)
    ∧ s.trace.tx <+: t.trace.tx ∧ s.trace.statusLog <+: t.trace.statusLog
    ∧ s.trace.frameOut <+: t.trace.frameOut ∧ s.trace.handlerLog <+: t.trace.handlerLog
    ∧ ((∀ b, i ≠ .rxInPayload b) → t.buf = s.buf)
    ∧ (i.format ≠ .rxEvent → i.format ≠ .frameMarker → t.rx = s.rx)

/-- R260: the handler flags, the agent's own state and the store are written only inside a handler's invocation, but for the
deferred commit of the label at an idle strobe (R261). -/
def Obligations.OnlyHandlersWriteFlags : Prop :=
  ∀ (i : Instr) (s t : State), i.WellFormed → exec i s = .next t →
    (t.flags ≠ s.flags ∨ t.agent ≠ s.agent ∨ t.store ≠ s.store) →
    i ∈ [.rxEmpty, .eom, .labelRdm, .emitFrame, .processRdm, .ccGet, .ccSet, .dispatchGetInvoke,
         .dispatchSetInvoke, .setDeviceLabel, .getQueuedMessagePending, .getQueuedMessageIdle,
         .setDmxStartAddress, .setSerialNumber]
      ∨ i = .rxAwaitingEnd 0xE7

/-- The invariant holds right after reset. -/
def Obligations.InvAtReset : Prop := Inv State.reset

/-- Every RX event and every reset keeps the invariant: canonical buffer within capacity (R68), deframer registers that agree
with the position (R21, R24, R31), no response open between events (R70), the queued count equal to the pending flag where only
the handlers of R253 and R254 write them (R253, R260). -/
def Obligations.InvKept : Prop :=
  ∀ s t : State, Inv s → step s = .next t → Inv t

end
end

