-- ==== Sys2Proof/Laws/Bytes.lean ====
section
/-! SUPPORT. Byte order: assembling bytes and taking a word apart undo each other, at 2, 4 and 6 bytes. -/

namespace Sys2Proof.Machine

/-- Appending bits is multiplying and adding. -/
theorem toNat_append_byte {n : Nat} (x : BitVec n) (b : Byte) :
    (x ++ b).toNat = x.toNat * 256 + b.toNat := by
  rw [BitVec.toNat_append, ← Nat.shiftLeft_add_eq_or_of_lt b.isLt, Nat.shiftLeft_eq]

theorem be16_toNat (a b : Byte) : (be16 a b).toNat = a.toNat * 256 + b.toNat :=
  toNat_append_byte a b

theorem be32_toNat (a b c d : Byte) :
    (be32 a b c d).toNat = ((a.toNat * 256 + b.toNat) * 256 + c.toNat) * 256 + d.toNat := by
  have h : (be32 a b c d).toNat = (a ++ b ++ c).toNat * 256 + d.toNat := toNat_append_byte _ d
  rw [h, toNat_append_byte, toNat_append_byte]

theorem be48_toNat (a b c d e f : Byte) :
    (be48 a b c d e f).toNat
      = ((((a.toNat * 256 + b.toNat) * 256 + c.toNat) * 256 + d.toNat) * 256 + e.toNat) * 256
        + f.toNat := by
  have h : (be48 a b c d e f).toNat = (a ++ b ++ c ++ d ++ e).toNat * 256 + f.toNat :=
    toNat_append_byte _ f
  rw [h, toNat_append_byte, toNat_append_byte, toNat_append_byte, toNat_append_byte]

theorem extract_toNat {n : Nat} (w : BitVec n) (k : Nat) :
    (w.extractLsb' k 8).toNat = w.toNat / 2 ^ k % 256 := by
  rw [BitVec.extractLsb'_toNat, Nat.shiftRight_eq_div_pow]

theorem be16_hi (a b : Byte) : hiByte (be16 a b) = a := by
  apply BitVec.eq_of_toNat_eq
  rw [hiByte, extract_toNat, be16_toNat]
  have := a.isLt; have := b.isLt
  omega

theorem be16_lo (a b : Byte) : loByte (be16 a b) = b := by
  apply BitVec.eq_of_toNat_eq
  rw [loByte, extract_toNat, be16_toNat]
  have := b.isLt
  omega

theorem bytes16_be16 (a b : Byte) : bytes16 (be16 a b) = [a, b] := by
  rw [bytes16, be16_hi, be16_lo]

theorem be16_bytes16 (w : Word16) : be16 (hiByte w) (loByte w) = w := by
  apply BitVec.eq_of_toNat_eq
  rw [be16_toNat, hiByte, loByte, extract_toNat, extract_toNat]
  have := w.isLt
  omega

theorem bytes32_be32 (a b c d : Byte) : bytes32 (be32 a b c d) = [a, b, c, d] := by
  have := a.isLt; have := b.isLt; have := c.isLt; have := d.isLt
  simp only [bytes32, List.cons.injEq, and_true]
  refine ⟨?_, ?_, ?_, ?_⟩ <;>
    (apply BitVec.eq_of_toNat_eq; rw [extract_toNat, be32_toNat]; omega)

theorem be32_bytes32 (w : Word32) :
    be32 (w.extractLsb' 24 8) (w.extractLsb' 16 8) (w.extractLsb' 8 8) (w.extractLsb' 0 8) = w := by
  have := w.isLt
  apply BitVec.eq_of_toNat_eq
  rw [be32_toNat]
  simp only [extract_toNat]
  omega

theorem bytes48_be48 (a b c d e f : Byte) : bytes48 (be48 a b c d e f) = [a, b, c, d, e, f] := by
  have := a.isLt; have := b.isLt; have := c.isLt; have := d.isLt; have := e.isLt; have := f.isLt
  simp only [bytes48, List.cons.injEq, and_true]
  refine ⟨?_, ?_, ?_, ?_, ?_, ?_⟩ <;>
    (apply BitVec.eq_of_toNat_eq; rw [extract_toNat, be48_toNat]; omega)

theorem be48_bytes48 (w : Uid) :
    be48 (w.extractLsb' 40 8) (w.extractLsb' 32 8) (w.extractLsb' 24 8) (w.extractLsb' 16 8)
      (w.extractLsb' 8 8) (w.extractLsb' 0 8) = w := by
  have := w.isLt
  apply BitVec.eq_of_toNat_eq
  rw [be48_toNat]
  simp only [extract_toNat]
  omega

/-- Six bytes determine a UID. -/
theorem bytes48_inj {u v : Uid} (h : bytes48 u = bytes48 v) : u = v := by
  simp only [bytes48, List.cons.injEq, and_true] at h
  obtain ⟨h1, h2, h3, h4, h5, h6⟩ := h
  rw [← be48_bytes48 u, ← be48_bytes48 v, h1, h2, h3, h4, h5, h6]

/-- The UID's bytes are the manufacturer id's, then the serial number's (R35). -/
theorem bytes48_uidOf (st : SettingsStore) :
    bytes48 (uidOf st) = bytes16 st.estaId ++ bytes32 st.serialNumber := by
  have e : (uidOf st).toNat = st.estaId.toNat * 2 ^ 32 + st.serialNumber.toNat := by
    rw [uidOf, BitVec.toNat_append, ← Nat.shiftLeft_add_eq_or_of_lt st.serialNumber.isLt,
      Nat.shiftLeft_eq]
  have := st.estaId.isLt; have := st.serialNumber.isLt
  simp only [bytes48, bytes16, bytes32, hiByte, loByte, List.cons_append, List.nil_append,
    List.cons.injEq, and_true]
  refine ⟨?_, ?_, ?_, ?_, ?_, ?_⟩ <;>
    (apply BitVec.eq_of_toNat_eq; simp only [extract_toNat, e]; omega)

/-- Four bytes read big-endian. -/
theorem ofNat_four (a b c d : Byte) : BitVec.ofNat 32 (natOfBytes [a, b, c, d]) = be32 a b c d := by
  apply BitVec.eq_of_toNat_eq
  rw [be32_toNat]
  have := a.isLt; have := b.isLt; have := c.isLt; have := d.isLt
  simp [natOfBytes]
  omega

/-- Six bytes read big-endian. -/
theorem ofNat_six (a b c d e f : Byte) :
    BitVec.ofNat 48 (natOfBytes [a, b, c, d, e, f]) = be48 a b c d e f := by
  apply BitVec.eq_of_toNat_eq
  rw [be48_toNat]
  have := a.isLt; have := b.isLt; have := c.isLt; have := d.isLt; have := e.isLt; have := f.isLt
  simp [natOfBytes]
  omega

/-- The destination match compares the six bytes (R167). -/
theorem matchesUid_bytes (st : SettingsStore) (a b c d e f : Byte) :
    matchesUid st (be48 a b c d e f)
      = decide ([a, b, c, d, e, f] = bytes16 st.estaId ++ bytes32 st.serialNumber) := by
  rw [← bytes48_uidOf, ← bytes48_be48, matchesUid]
  exact decide_eq_decide.2 ⟨fun h => by rw [h], fun h => bytes48_inj h⟩

/-- The broadcast test compares four bytes (R166). -/
theorem broadcastFlag_bytes (a b c d : Byte) :
    broadcastFlag (be32 a b c d) = decide (a = 0xFF ∧ b = 0xFF ∧ c = 0xFF ∧ d = 0xFF) := by
  refine decide_eq_decide.2 ⟨fun h => ?_, ?_⟩
  · have := congrArg bytes32 h
    rw [bytes32_be32] at this
    simpa [bytes32] using this
  · rintro ⟨rfl, rfl, rfl, rfl⟩
    rfl

end Sys2Proof.Machine
end

