-- ==== Sys2Proof/Laws/Memory.lean ====
section
/-! SUPPORT. The frame buffer: a read after a write, and the canonical form kept by every write. -/

namespace Sys2Proof.Machine

@[simp] theorem Memory.read_nil (a : Nat) : Memory.read [] a = none := rfl

theorem Memory.read_write_same (m : Memory) (a : Nat) (v : Byte) :
    Memory.read (Memory.write m a v) a = some v := by
  induction m with
  | nil => simp [Memory.write, Memory.read]
  | cons c m ih =>
    obtain ⟨b, w⟩ := c
    simp only [Memory.write]
    split
    · simp [Memory.read]
    · split
      · simp [Memory.read]
      · rename_i _ hne
        simp [Memory.read, Ne.symm hne, ih]

theorem Memory.read_write_other (m : Memory) (a b : Nat) (v : Byte) (h : b ≠ a) :
    Memory.read (Memory.write m a v) b = Memory.read m b := by
  induction m with
  | nil => simp [Memory.write, Memory.read, Ne.symm h]
  | cons c m ih =>
    obtain ⟨x, w⟩ := c
    simp only [Memory.write]
    split
    · simp [Memory.read, Ne.symm h]
    · split
      · rename_i _ hax
        subst hax
        simp [Memory.read, Ne.symm h]
      · simp [Memory.read, ih]

theorem Memory.read_write (m : Memory) (a b : Nat) (v : Byte) :
    Memory.read (Memory.write m a v) b = if b = a then some v else Memory.read m b := by
  split
  · next h => subst h; exact Memory.read_write_same m b v
  · next h => exact Memory.read_write_other m a b v h

theorem Memory.above_write {m : Memory} {x a : Nat} (v : Byte) (hx : x < a)
    (hm : Memory.above x m = true) : Memory.above x (Memory.write m a v) = true := by
  induction m with
  | nil => simp [Memory.write, Memory.above, hx]
  | cons c m ih =>
    obtain ⟨b, w⟩ := c
    simp only [Memory.above, List.all_cons, Bool.and_eq_true, decide_eq_true_eq] at hm ih
    simp only [Memory.write]
    split
    · simp [Memory.above, hx, hm.1]
      simpa using hm.2
    · split
      · simp [Memory.above, hx]
        simpa using hm.2
      · simp only [Memory.above, List.all_cons, Bool.and_eq_true, decide_eq_true_eq]
        exact ⟨hm.1, ih hm.2⟩

theorem Memory.above_of_lt {m : Memory} {a b : Nat} (h : a < b) (hm : Memory.above b m = true) :
    Memory.above a m = true := by
  simp only [Memory.above, List.all_eq_true, decide_eq_true_eq] at hm ⊢
  exact fun c hc => Nat.lt_trans h (hm c hc)

/-- A write keeps the canonical form. -/
theorem Memory.wf_write {m : Memory} (a : Nat) (v : Byte) (h : Memory.wf m = true) :
    Memory.wf (Memory.write m a v) = true := by
  induction m with
  | nil => simp [Memory.write, Memory.wf, Memory.above]
  | cons c m ih =>
    obtain ⟨b, w⟩ := c
    simp only [Memory.wf, Bool.and_eq_true] at h
    simp only [Memory.write]
    split
    · next hlt =>
      simp only [Memory.wf, Bool.and_eq_true]
      refine ⟨?_, h⟩
      simp only [Memory.above, List.all_cons, Bool.and_eq_true, decide_eq_true_eq]
      exact ⟨hlt, Memory.above_of_lt hlt h.1⟩
    · split
      · next heq =>
        subst heq
        simpa [Memory.wf] using h
      · simp only [Memory.wf, Bool.and_eq_true]
        exact ⟨Memory.above_write v (by omega) h.1, ih h.2⟩

/-- A write adds no offset but its own. -/
theorem Memory.mem_write (m : Memory) (a : Nat) (v : Byte) : ∀ c ∈ Memory.write m a v, c.1 =
    a ∨ c ∈ m := by
  induction m with
  | nil => intro c hc; simp [Memory.write] at hc; simp [hc]
  | cons x m ih =>
    obtain ⟨b, w⟩ := x
    intro c hc
    simp only [Memory.write] at hc
    split at hc
    · simp at hc; rcases hc with rfl | rfl | h <;> simp [*]
    · split at hc
      · simp at hc; rcases hc with rfl | h <;> simp [*]
      · simp at hc; rcases hc with rfl | h
        · simp
        · rcases ih c h with h | h <;> simp [h]

end Sys2Proof.Machine
end

