-- ==== Sys2Proof/Laws/State.lean ====
section
/-! SUPPORT. One lemma per field per named update of the state, each true by `rfl`. -/

namespace Sys2Proof.Machine

/-! `tx` -/
@[simp] theorem tx_cfg (bs : List Byte) (s : State) : (tx bs s).cfg = s.cfg := rfl
@[simp] theorem tx_input (bs : List Byte) (s : State) : (tx bs s).input = s.input := rfl
@[simp] theorem tx_rx (bs : List Byte) (s : State) : (tx bs s).rx = s.rx := rfl
@[simp] theorem tx_buf (bs : List Byte) (s : State) : (tx bs s).buf = s.buf := rfl
@[simp] theorem tx_val (bs : List Byte) (s : State) : (tx bs s).val = s.val := rfl
@[simp] theorem tx_disp (bs : List Byte) (s : State) : (tx bs s).disp = s.disp := rfl
@[simp] theorem tx_enc (bs : List Byte) (s : State) : (tx bs s).enc = s.enc := rfl
@[simp] theorem tx_ctx (bs : List Byte) (s : State) : (tx bs s).ctx = s.ctx := rfl
@[simp] theorem tx_flags (bs : List Byte) (s : State) : (tx bs s).flags = s.flags := rfl
@[simp] theorem tx_store (bs : List Byte) (s : State) : (tx bs s).store = s.store := rfl
@[simp] theorem tx_agent (bs : List Byte) (s : State) : (tx bs s).agent = s.agent := rfl
@[simp] theorem tx_past (bs : List Byte) (s : State) : (tx bs s).past = s.past := rfl
@[simp] theorem tx_strobes (bs : List Byte) (s : State) : (tx bs s).strobes = s.strobes := rfl
@[simp] theorem tx_trace (bs : List Byte) (s : State) : (tx bs s).trace = { s.trace with tx := s.trace.tx ++ bs } := rfl

/-! `txAcc` -/
@[simp] theorem txAcc_cfg (b : Byte) (s : State) : (txAcc b s).cfg = s.cfg := rfl
@[simp] theorem txAcc_input (b : Byte) (s : State) : (txAcc b s).input = s.input := rfl
@[simp] theorem txAcc_rx (b : Byte) (s : State) : (txAcc b s).rx = s.rx := rfl
@[simp] theorem txAcc_buf (b : Byte) (s : State) : (txAcc b s).buf = s.buf := rfl
@[simp] theorem txAcc_val (b : Byte) (s : State) : (txAcc b s).val = s.val := rfl
@[simp] theorem txAcc_disp (b : Byte) (s : State) : (txAcc b s).disp = s.disp := rfl
@[simp] theorem txAcc_enc (b : Byte) (s : State) : (txAcc b s).enc = { s.enc with sum := sumByte s.enc.sum b } := rfl
@[simp] theorem txAcc_ctx (b : Byte) (s : State) : (txAcc b s).ctx = s.ctx := rfl
@[simp] theorem txAcc_flags (b : Byte) (s : State) : (txAcc b s).flags = s.flags := rfl
@[simp] theorem txAcc_store (b : Byte) (s : State) : (txAcc b s).store = s.store := rfl
@[simp] theorem txAcc_agent (b : Byte) (s : State) : (txAcc b s).agent = s.agent := rfl
@[simp] theorem txAcc_past (b : Byte) (s : State) : (txAcc b s).past = s.past := rfl
@[simp] theorem txAcc_strobes (b : Byte) (s : State) : (txAcc b s).strobes = s.strobes := rfl
@[simp] theorem txAcc_trace (b : Byte) (s : State) : (txAcc b s).trace = { s.trace with tx := s.trace.tx ++ [b] } := rfl

/-! `withStatus` -/
@[simp] theorem withStatus_cfg (k : StatusKind) (s : State) : (withStatus k s).cfg = s.cfg := rfl
@[simp] theorem withStatus_input (k : StatusKind) (s : State) : (withStatus k s).input = s.input := rfl
@[simp] theorem withStatus_rx (k : StatusKind) (s : State) : (withStatus k s).rx = s.rx := rfl
@[simp] theorem withStatus_buf (k : StatusKind) (s : State) : (withStatus k s).buf = s.buf := rfl
@[simp] theorem withStatus_val (k : StatusKind) (s : State) : (withStatus k s).val = s.val := rfl
@[simp] theorem withStatus_disp (k : StatusKind) (s : State) : (withStatus k s).disp = s.disp := rfl
@[simp] theorem withStatus_enc (k : StatusKind) (s : State) : (withStatus k s).enc = { s.enc with done := true } := rfl
@[simp] theorem withStatus_ctx (k : StatusKind) (s : State) : (withStatus k s).ctx = s.ctx := rfl
@[simp] theorem withStatus_flags (k : StatusKind) (s : State) : (withStatus k s).flags = s.flags := rfl
@[simp] theorem withStatus_store (k : StatusKind) (s : State) : (withStatus k s).store = s.store := rfl
@[simp] theorem withStatus_agent (k : StatusKind) (s : State) : (withStatus k s).agent = s.agent := rfl
@[simp] theorem withStatus_past (k : StatusKind) (s : State) : (withStatus k s).past = s.past := rfl
@[simp] theorem withStatus_strobes (k : StatusKind) (s : State) : (withStatus k s).strobes = s.strobes := rfl
@[simp] theorem withStatus_trace (k : StatusKind) (s : State) : (withStatus k s).trace = 
      { s.trace with
        statusLog := s.trace.statusLog ++ [k]
        tx := s.trace.tx ++ (if onWire s.cfg k then statusFrameBytes (statusCodeOf s.cfg k) else []) } := rfl

/-! `putCounted` -/
@[simp] theorem putCounted_cfg (v : Byte) (s : State) : (putCounted v s).cfg = s.cfg := rfl
@[simp] theorem putCounted_input (v : Byte) (s : State) : (putCounted v s).input = s.input := rfl
@[simp] theorem putCounted_rx (v : Byte) (s : State) : (putCounted v s).rx = s.rx := rfl
@[simp] theorem putCounted_buf (v : Byte) (s : State) : (putCounted v s).buf = s.buf := rfl
@[simp] theorem putCounted_val (v : Byte) (s : State) : (putCounted v s).val = s.val := rfl
@[simp] theorem putCounted_disp (v : Byte) (s : State) : (putCounted v s).disp = s.disp := rfl
@[simp] theorem putCounted_enc (v : Byte) (s : State) : (putCounted v s).enc = 
      { s.enc with sum := sumByte s.enc.sum v, remaining := s.enc.remaining - 1 } := rfl
@[simp] theorem putCounted_ctx (v : Byte) (s : State) : (putCounted v s).ctx = s.ctx := rfl
@[simp] theorem putCounted_flags (v : Byte) (s : State) : (putCounted v s).flags = s.flags := rfl
@[simp] theorem putCounted_store (v : Byte) (s : State) : (putCounted v s).store = s.store := rfl
@[simp] theorem putCounted_agent (v : Byte) (s : State) : (putCounted v s).agent = s.agent := rfl
@[simp] theorem putCounted_past (v : Byte) (s : State) : (putCounted v s).past = s.past := rfl
@[simp] theorem putCounted_strobes (v : Byte) (s : State) : (putCounted v s).strobes = s.strobes := rfl
@[simp] theorem putCounted_trace (v : Byte) (s : State) : (putCounted v s).trace = { s.trace with tx := s.trace.tx ++ [v] } := rfl

/-! `resetBlock` -/
@[simp] theorem resetBlock_cfg (s : State) : (resetBlock s).cfg = s.cfg := rfl
@[simp] theorem resetBlock_input (s : State) : (resetBlock s).input = s.input := rfl
@[simp] theorem resetBlock_rx (s : State) : (resetBlock s).rx = RxRegs.reset := rfl
@[simp] theorem resetBlock_buf (s : State) : (resetBlock s).buf = [] := rfl
@[simp] theorem resetBlock_val (s : State) : (resetBlock s).val = ValRegs.reset := rfl
@[simp] theorem resetBlock_disp (s : State) : (resetBlock s).disp = DispRegs.reset := rfl
@[simp] theorem resetBlock_enc (s : State) : (resetBlock s).enc = EncRegs.reset := rfl
@[simp] theorem resetBlock_ctx (s : State) : (resetBlock s).ctx = ResponseContext.reset := rfl
@[simp] theorem resetBlock_flags (s : State) : (resetBlock s).flags = flagsReset := rfl
@[simp] theorem resetBlock_store (s : State) : (resetBlock s).store = { s.store with deviceLabel := s.store.committedLabel } := rfl
@[simp] theorem resetBlock_agent (s : State) : (resetBlock s).agent = [] := rfl
@[simp] theorem resetBlock_trace (s : State) : (resetBlock s).trace = Traces.reset := rfl
@[simp] theorem resetBlock_past (s : State) : (resetBlock s).past = s.past ++ [s.trace.tx] := rfl
@[simp] theorem resetBlock_strobes (s : State) : (resetBlock s).strobes = s.strobes := rfl

/-! `goState` -/
@[simp] theorem goState_cfg (st : RxState) (s : State) : (goState st s).cfg = s.cfg := rfl
@[simp] theorem goState_input (st : RxState) (s : State) : (goState st s).input = s.input := rfl
@[simp] theorem goState_rx (st : RxState) (s : State) : (goState st s).rx = { s.rx with state := st } := rfl
@[simp] theorem goState_buf (st : RxState) (s : State) : (goState st s).buf = s.buf := rfl
@[simp] theorem goState_val (st : RxState) (s : State) : (goState st s).val = s.val := rfl
@[simp] theorem goState_disp (st : RxState) (s : State) : (goState st s).disp = s.disp := rfl
@[simp] theorem goState_enc (st : RxState) (s : State) : (goState st s).enc = s.enc := rfl
@[simp] theorem goState_ctx (st : RxState) (s : State) : (goState st s).ctx = s.ctx := rfl
@[simp] theorem goState_flags (st : RxState) (s : State) : (goState st s).flags = s.flags := rfl
@[simp] theorem goState_store (st : RxState) (s : State) : (goState st s).store = s.store := rfl
@[simp] theorem goState_agent (st : RxState) (s : State) : (goState st s).agent = s.agent := rfl
@[simp] theorem goState_past (st : RxState) (s : State) : (goState st s).past = s.past := rfl
@[simp] theorem goState_strobes (st : RxState) (s : State) : (goState st s).strobes = s.strobes := rfl
@[simp] theorem goState_trace (st : RxState) (s : State) : (goState st s).trace = s.trace := rfl

end Sys2Proof.Machine
end

