-- ==== Sys2Proof/Laws/Ops.lean ====
section
/-! SUPPORT. What each shared operation can do, said once: sequencing, TX, the encoder in closed form, statuses, and reads of
the frame under processing. -/

namespace Sys2Proof.Machine

/-! Sequencing. -/

@[simp] theorem andThen_next (s : State) (k : State → Out) : andThen (.next s) k = k s := rfl
@[simp] theorem andThen_fault (f : Fault) (k : State → Out) : andThen (.fault f) k = .fault f := rfl
@[simp] theorem andThen_refused (r : Refusal) (k : State → Out) :
    andThen (.refused r) k = .refused r := rfl

/-- If a sequence answers a next state, both halves did. -/
theorem andThen_eq_next {o : Out} {k : State → Out} {t : State} (h : andThen o k = .next t) :
    ∃ s, o = .next s ∧ k s = .next t := by
  cases o with
  | next s => exact ⟨s, rfl, h⟩
  | fault f => simp at h
  | refused r => simp at h

theorem andThen_assoc (o : Out) (k l : State → Out) :
    andThen (andThen o k) l = andThen o fun s => andThen (k s) l := by
  cases o <;> rfl

@[simp] theorem withRead_ok {α : Type} (a : α) (k : α → Out) : withRead (.ok a) k = k a := rfl
@[simp] theorem withRead_error {α : Type} (f : Fault) (k : α → Out) :
    withRead (.error f) k = .fault f := rfl

theorem withRead_eq_next {α : Type} {r : Except Fault α} {k : α → Out} {t : State}
    (h : withRead r k = .next t) : ∃ a, r = .ok a ∧ k a = .next t := by
  cases r with
  | ok a => exact ⟨a, rfl, h⟩
  | error f => simp at h

@[simp] theorem Flow.andThen_go (s : State) (k : State → Flow) : (Flow.go s).andThen k = k s := rfl
@[simp] theorem Flow.andThen_stop (o : Out) (k : State → Flow) :
    (Flow.stop o).andThen k = .stop o := rfl
@[simp] theorem Flow.out_go (s : State) : (Flow.go s).out = .next s := rfl
@[simp] theorem Flow.out_stop (o : Out) : (Flow.stop o).out = o := rfl
@[simp] theorem Flow.withRead_ok {α : Type} (a : α) (k : α → Flow) :
    Flow.withRead (.ok a) k = k a := rfl
@[simp] theorem Flow.withRead_error {α : Type} (f : Fault) (k : α → Flow) :
    Flow.withRead (.error f) k = .stop (.fault f) := rfl

/-- If a step of the pipeline answers a next state, it went on there or stopped there. -/
theorem Flow.out_eq_next {f : Flow} {t : State} (h : f.out = .next t) :
    f = .go t ∨ f = .stop (.next t) := by
  cases f with
  | go s => left; simpa using h
  | stop o => right; simpa using h

@[simp] theorem unlessFault_none (o : Out) : unlessFault none o = o := rfl
@[simp] theorem unlessFault_some (f : Fault) (o : Out) : unlessFault (some f) o = .fault f := rfl

theorem unlessFault_eq_next {r : Option Fault} {o : Out} {t : State}
    (h : unlessFault r o = .next t) : r = none ∧ o = .next t := by
  cases r with
  | none => exact ⟨rfl, h⟩
  | some f => simp at h

/-! Sums. -/

theorem checksum_eq_foldl (bs : List Byte) : checksum bs = bs.foldl sumByte 0 := rfl

theorem foldl_sumByte (bs : List Byte) (acc : Word16) :
    bs.foldl sumByte acc = acc + checksum bs := by
  rw [checksum_eq_foldl]
  induction bs generalizing acc with
  | nil => simp
  | cons b bs ih =>
    rw [List.foldl_cons, List.foldl_cons, ih (sumByte acc b), ih (sumByte 0 b)]
    simp [sumByte, BitVec.add_assoc]

@[simp] theorem checksum_nil : checksum [] = 0 := rfl

@[simp] theorem checksum_cons (b : Byte) (bs : List Byte) :
    checksum (b :: bs) = b.setWidth 16 + checksum bs := by
  rw [checksum_eq_foldl, List.foldl_cons, foldl_sumByte]
  simp [sumByte]

@[simp] theorem checksum_append (as bs : List Byte) :
    checksum (as ++ bs) = checksum as + checksum bs := by
  induction as with
  | nil => simp
  | cons a as ih => simp [ih, BitVec.add_assoc]

/-! TX. -/

theorem txAccAll_eq (bs : List Byte) (s : State) :
    txAccAll bs s =
      { s with trace.tx := s.trace.tx ++ bs, enc.sum := s.enc.sum + checksum bs } := by
  induction bs generalizing s with
  | nil => simp [txAccAll]
  | cons b bs ih =>
    rw [txAccAll, ih]
    simp [sumByte, BitVec.add_assoc]

/-- The marker goes on TX and adds nothing to the sum (R222). -/
theorem statusMarker_eq (s : State) : statusMarker s = tx [s.cfg.statusOk] s := by
  unfold statusMarker
  split
  · next h => simp [txAcc, tx, sumByte, h]
  · rfl

/-! The encoder in closed form. -/

/-- The state after `startResponse` with header fields `f` and `pdl` parameter bytes owed. -/
def opened (f : ReplyFields) (pdl : Nat) (s : State) : State :=
  { s with
    trace.tx := s.trace.tx ++ frameHeader rdmLabel (27 + pdl) ++ [s.cfg.statusOk] ++ packetHeader f pdl
    enc := { s.enc with
      sum := checksum (packetHeader f pdl), busy := true, remaining := BitVec.ofNat 9 pdl } }

theorem openReply_eq (f : ReplyFields) (pdl : Nat) (s : State) :
    openReply f pdl s = unlessFault (openFault s pdl) (.next (opened f pdl s)) := by
  simp [openReply, txAccAll_eq, statusMarker_eq, opened, tx]

/-- The state after `n` of the owed bytes have been sent. -/
def filled (bs : List Byte) (s : State) : State :=
  { s with
    trace.tx := s.trace.tx ++ bs
    enc := { s.enc with
      sum := s.enc.sum + checksum bs, remaining := s.enc.remaining - BitVec.ofNat 9 bs.length } }

theorem sub_sub_ofNat (r : BitVec 9) (n : Nat) :
    r - 1 - BitVec.ofNat 9 n = r - BitVec.ofNat 9 (n + 1) := by
  apply BitVec.eq_of_toNat_eq
  simp [BitVec.toNat_sub, BitVec.toNat_ofNat]
  omega

/-- The count of owed bytes goes down by one while it is not zero. -/
theorem remaining_pred {r : BitVec 9} (h : 1 ≤ r.toNat) : (r - 1).toNat = r.toNat - 1 := by
  have := r.isLt
  simp [BitVec.toNat_sub]
  omega

theorem putBytes_eq (bs : List Byte) (s : State) (hb : s.enc.busy = true)
    (hr : bs.length ≤ s.enc.remaining.toNat) : putBytes bs s = .next (filled bs s) := by
  induction bs generalizing s with
  | nil => simp [putBytes, filled]
  | cons b bs ih =>
    simp only [List.length_cons] at hr
    have hf : sendFault s 1 = none := by
      simp [sendFault, hb]; omega
    have h1 := remaining_pred (r := s.enc.remaining) (by omega)
    rw [putBytes, putByte, hf, unlessFault_none, andThen_next, ih]
    · rw [filled, putCounted_enc]
      simp only [sub_sub_ofNat]
      simp [filled, putCounted, txAcc, tx, sumByte, BitVec.add_assoc]
    · simpa using hb
    · rw [putCounted_enc]
      simp only [h1]
      omega

/-- A send that answers a next state had a response open and enough bytes owed. -/
theorem putByte_eq_next {b : Byte} {s t : State} (h : putByte b s = .next t) :
    s.enc.busy = true ∧ 1 ≤ s.enc.remaining.toNat ∧ t = putCounted b s := by
  obtain ⟨h1, h2⟩ := unlessFault_eq_next h
  simp only [sendFault] at h1
  split at h1
  · simp at h1
  · split at h1
    · simp at h1
    · rename_i hb hr
      refine ⟨by simpa using hb, by omega, ?_⟩
      simpa using h2.symm

theorem putBytes_eq_next {bs : List Byte} {s t : State} (h : putBytes bs s = .next t) :
    (bs = [] ∨ s.enc.busy = true) ∧ bs.length ≤ s.enc.remaining.toNat ∧ t = filled bs s := by
  induction bs generalizing s with
  | nil => simp [putBytes] at h; simp [filled, h]
  | cons b bs ih =>
    obtain ⟨u, hu, ht⟩ := andThen_eq_next h
    obtain ⟨hb, hr, rfl⟩ := putByte_eq_next hu
    obtain ⟨-, hr', -⟩ := ih ht
    have h1 := remaining_pred hr
    simp only [putCounted_enc, h1] at hr'
    have hlen : (b :: bs).length ≤ s.enc.remaining.toNat := by simp; omega
    refine ⟨.inr hb, hlen, ?_⟩
    have e := putBytes_eq (b :: bs) s hb hlen
    rw [e] at h
    simpa using h.symm

/-- The state after `endResponse`. -/
def closed (s : State) : State :=
  { s with
    trace.tx := s.trace.tx ++ bytes16 s.enc.sum ++ [eomByte]
    enc := { s.enc with busy := false, done := true } }

theorem closeReply_eq (s : State) :
    closeReply s = unlessFault (closeFault s) (.next (closed s)) := by
  simp [closeReply, closed, tx]

@[simp] theorem bytes16_length (w : Word16) : (bytes16 w).length = 2 := rfl
@[simp] theorem bytes32_length (w : Word32) : (bytes32 w).length = 4 := rfl
@[simp] theorem bytes48_length (u : Uid) : (bytes48 u).length = 6 := rfl
@[simp] theorem packetHeader_length (f : ReplyFields) (pdl : Nat) :
    (packetHeader f pdl).length = 24 := rfl

theorem packetHeader_data (f : ReplyFields) (d : List Byte) (pdl : Nat) :
    packetHeader { f with data := d } pdl = packetHeader f pdl := rfl

/-- Opening, filling and closing a response puts the reply frame of R97 on TX. -/
theorem openFillClose_eq (f : ReplyFields) (s : State)
    (hf : openFault s f.data.length = none) :
    (andThen (openReply f f.data.length s) fun s => andThen (putBytes f.data s) closeReply)
      = .next (replied f s) := by
  have hlen : f.data.length ≤ 231 := by
    simp only [openFault] at hf
    repeat' split at hf
    all_goals simp_all [pdlMax]
  have hm : (BitVec.ofNat 9 f.data.length).toNat = f.data.length := by
    simp [BitVec.toNat_ofNat]; omega
  rw [openReply_eq, hf, unlessFault_none, andThen_next, putBytes_eq]
  · rw [andThen_next, closeReply_eq]
    have hc : closeFault (filled f.data (opened f f.data.length s)) = none := by
      simp [closeFault, filled, opened]
    rw [hc, unlessFault_none]
    have hn : 24 + (f.data.length + 2) + 1 = 27 + f.data.length := by omega
    simp [closed, filled, opened, replied, replyFrameBytes, packetBytes, packetBody, frameBytes,
      List.append_assoc, hn]
  · rfl
  · simp [opened, hm]

/-- `sendReply` in closed form. -/
theorem sendReply_eq (rt cc : Byte) (pid : Word16) (data : List Byte) (s : State)
    (hf : openFault s data.length = none) :
    sendReply rt cc pid data s = .next (replied (replyFieldsOf s rt cc pid data) s) :=
  openFillClose_eq (replyFieldsOf s rt cc pid data) s hf

theorem putInt_eq_putBytes (v : Word16) (s : State) (hb : s.enc.busy = true)
    (hr : 2 ≤ s.enc.remaining.toNat) : putInt v s = putBytes (bytes16 v) s := by
  have : sendFault s 2 = none := by simp [sendFault, hb]; omega
  simp [putInt, this]

/-- `sendNack` is the whole response with the two reason bytes. -/
theorem nack_eq (reason : Word16) (s : State) (hf : openFault s 2 = none) :
    nack reason s =
      .next (replied (replyFieldsOf s rtNackCode s.ctx.cc s.ctx.pid (bytes16 reason)) s) := by
  rw [← sendReply_eq (hf := hf)]
  simp only [nack, sendReply, startReply, openReply_eq, bytes16_length, hf, unlessFault_none,
    andThen_next]
  rw [putInt_eq_putBytes]
  · rfl
  · simp [opened]

theorem ackTimer_eq (delay : Word16) (s : State) (hf : openFault s 2 = none) :
    ackTimer delay s =
      .next (replied (replyFieldsOf s rtAckTimerCode s.ctx.cc s.ctx.pid (bytes16 delay)) s) := by
  rw [← sendReply_eq (hf := hf)]
  simp only [ackTimer, sendReply, startReply, openReply_eq, bytes16_length, hf, unlessFault_none,
    andThen_next]
  rw [putInt_eq_putBytes]
  · rfl
  · simp [opened]

theorem emptyAck_eq (s : State) (hf : openFault s 0 = none) :
    emptyAck s = .next (replied (replyFieldsOf s rtAckCode s.ctx.cc s.ctx.pid []) s) := by
  rw [← sendReply_eq (hf := hf)]
  rfl

/-- A response may be opened in a ready encoder for a unicast request. -/
theorem openFault_eq_none {s : State} {pdl : Nat} (hb : s.enc.busy = false)
    (hd : s.enc.done = false) (hc : s.ctx.bcast = false) (hp : pdl ≤ 231) :
    openFault s pdl = none := by
  have : ¬ 231 < pdl := by omega
  simp [openFault, hb, hd, hc, pdlMax, this]

/-- Only then. -/
theorem openFault_none_iff (s : State) (pdl : Nat) :
    openFault s pdl = none ↔
      s.enc.busy = false ∧ s.enc.done = false ∧ s.ctx.bcast = false ∧ pdl ≤ 231 := by
  constructor
  · intro h
    simp only [openFault] at h
    repeat' split at h
    all_goals simp_all [pdlMax]
  · rintro ⟨a, b, c, d⟩
    exact openFault_eq_none a b c d

theorem statusFault_none_iff (s : State) :
    statusFault s = none ↔ s.enc.busy = false ∧ s.enc.done = false := by
  simp only [statusFault]
  constructor
  · intro h
    repeat' split at h
    all_goals simp_all
  · rintro ⟨a, b⟩
    simp [a, b]

theorem takeStatus_eq (k : StatusKind) (s : State) (hb : s.enc.busy = false)
    (hd : s.enc.done = false) : takeStatus k s = .next (withStatus k s) := by
  simp [takeStatus, (statusFault_none_iff s).2 ⟨hb, hd⟩]

/-- What `Status(k)` can do when it answers a next state. -/
theorem takeStatus_eq_next {k : StatusKind} {s t : State} (h : takeStatus k s = .next t) :
    s.enc.busy = false ∧ s.enc.done = false ∧ t = withStatus k s := by
  obtain ⟨h1, h2⟩ := unlessFault_eq_next h
  obtain ⟨a, b⟩ := (statusFault_none_iff s).1 h1
  exact ⟨a, b, by simpa using h2.symm⟩

theorem openReply_eq_next {f : ReplyFields} {pdl : Nat} {s t : State}
    (h : openReply f pdl s = .next t) :
    s.enc.busy = false ∧ s.enc.done = false ∧ s.ctx.bcast = false ∧ pdl ≤ 231
      ∧ t = opened f pdl s := by
  rw [openReply_eq] at h
  obtain ⟨h1, h2⟩ := unlessFault_eq_next h
  obtain ⟨a, b, c, d⟩ := (openFault_none_iff s pdl).1 h1
  exact ⟨a, b, c, d, by simpa using h2.symm⟩

theorem closeReply_eq_next {s t : State} (h : closeReply s = .next t) :
    s.enc.busy = true ∧ s.enc.remaining = 0 ∧ t = closed s := by
  rw [closeReply_eq] at h
  obtain ⟨h1, h2⟩ := unlessFault_eq_next h
  simp only [closeFault] at h1
  repeat' split at h1
  all_goals simp_all

/-! `encode`. -/

/-- The application's calls put their frames on TX and change nothing else. -/
theorem encodeCalls_eq (cs : List EncodeCall) (s : State) (hb : s.enc.busy = false)
    (hl : ∀ c ∈ cs, c.payload.length ≤ 65535) :
    encodeCalls cs s = .next (tx (cs.flatMap fun c => frameBytes c.label c.payload) s) := by
  induction cs generalizing s with
  | nil => simp [encodeCalls, tx]
  | cons c cs ih =>
    have hc : ¬ 65535 < c.payload.length := by
      have := hl c (by simp)
      omega
    rw [encodeCalls, encodeFrame, if_neg (by simp [hb]), if_neg hc, andThen_next, ih]
    · simp [tx, List.append_assoc]
    · simpa using hb
    · exact fun c hc => hl c (by simp [hc])

theorem encodeCalls_eq_next {cs : List EncodeCall} {s t : State} (h : encodeCalls cs s = .next t) :
    t = tx (cs.flatMap fun c => frameBytes c.label c.payload) s := by
  induction cs generalizing s with
  | nil => simp [encodeCalls] at h; simp [tx, h]
  | cons c cs ih =>
    obtain ⟨u, hu, ht⟩ := andThen_eq_next h
    simp only [encodeFrame] at hu
    repeat' split at hu
    all_goals simp_all
    have := ih ht
    subst this
    subst hu
    simp [tx, List.append_assoc]

/-! Reads. -/

@[simp] theorem Memory.run_length (m : Memory) (i n : Nat) : (Memory.run m i n).length = n := by
  induction n generalizing i with
  | zero => rfl
  | succ n ih => simp [Memory.run, ih]

@[simp] theorem bytesAt_length (s : State) (i n : Nat) : (bytesAt s i n).length = n :=
  Memory.run_length s.buf i n

theorem bytesAt_succ (s : State) (i n : Nat) :
    bytesAt s i (n + 1) = byteAt s i :: bytesAt s (i + 1) n := rfl

theorem Readable.mono {s : State} {m n : Nat} (h : Readable s n) (hm : m ≤ n) : Readable s m :=
  ⟨Nat.le_trans hm h.1, fun i hi => h.2 i (Nat.lt_of_lt_of_le hi hm)⟩

theorem readByte_eq {s : State} {n i : Nat} (h : Readable s n) (hi : i < n) :
    readByte s i = .ok (byteAt s i) := by
  obtain ⟨b, hb⟩ := h.2 i hi
  simp [readByte, byteAt, hb, Nat.lt_of_lt_of_le hi h.1]

theorem readRun_eq {s : State} {n : Nat} (h : Readable s n) (a k : Nat) (hk : a + k ≤ n) :
    readRun s a k = .ok (bytesAt s a k) := by
  induction k generalizing a with
  | zero => rfl
  | succ k ih =>
    rw [readRun, readByte_eq h (by omega)]
    simp only []
    rw [ih (a + 1) (by omega)]
    rfl

theorem memRead_eq {s : State} {n : Nat} (h : Readable s n) (a k : Nat) (hk : a + k ≤ n) :
    memRead s a k = .ok (natOfBytes (bytesAt s a k)) := by
  have := h.1
  rw [memRead, if_pos (by omega), readRun_eq h a k hk]

theorem readParam_eq {s : State} {n : Nat} (h : Readable s n) {pdl : Byte} {i : Nat}
    (hi : i < pdl.toNat) (hs : 24 + i < s.val.size.toNat - 2) (hn : 24 + i < n) :
    readParam s pdl i = .ok (byteAt s (24 + i)) := by
  rw [readParam, if_pos ⟨hi, hs⟩, readByte_eq h hn]

theorem readParams_eq {s : State} {n : Nat} (h : Readable s n) {pdl : Byte} (i k : Nat)
    (hi : i + k ≤ pdl.toNat) (hs : 24 + (i + k) ≤ s.val.size.toNat - 2) (hn : 24 + (i + k) ≤ n) :
    readParams s pdl i k = .ok (bytesAt s (24 + i) k) := by
  induction k generalizing i with
  | zero => rfl
  | succ k ih =>
    rw [readParams, readParam_eq h (by omega) (by omega) (by omega)]
    simp only []
    rw [ih (i + 1) (by omega) (by omega) (by omega)]
    rfl

theorem payloadRun_eq (m : Memory) (a k : Nat)
    (h : ∀ i, a ≤ i → i < a + k → ∃ b, Memory.read m i = some b) :
    payloadRun m a k = .ok (Memory.run m a k) := by
  induction k generalizing a with
  | zero => rfl
  | succ k ih =>
    obtain ⟨b, hb⟩ := h a (by omega) (by omega)
    rw [payloadRun, hb]
    simp only []
    rw [ih (a + 1) (fun i h1 h2 => h i (by omega) (by omega))]
    simp [Memory.run, hb]

/-- The payload of a filled frame. -/
theorem payloadRun_payloadOf {s : State} (h : PayloadFilled s) :
    payloadRun s.buf 0 s.rx.len.toNat = .ok (payloadOf s) :=
  payloadRun_eq _ _ _ fun i _ hi => h i (by omega)

/-- Two bytes read big-endian. -/
theorem ofNat_two (a b : Byte) : BitVec.ofNat 16 (natOfBytes [a, b]) = be16 a b := by
  apply BitVec.eq_of_toNat_eq
  have := a.isLt
  have := b.isLt
  have h : (a ++ b : BitVec (8 + 8)).toNat = a.toNat * 256 + b.toNat := by
    rw [BitVec.toNat_append, ← Nat.shiftLeft_add_eq_or_of_lt b.isLt, Nat.shiftLeft_eq]
  have e : (be16 a b).toNat = a.toNat * 256 + b.toNat := h
  rw [e]
  simp [natOfBytes]
  omega

end Sys2Proof.Machine
end

