-- ==== Sys2Proof/Laws/Codec.lean ====
section
/-! SUPPORT. The frame and packet layouts: what the parsers read of an encoded frame or packet,
    and that they read nothing
else. -/

namespace Sys2Proof.Machine

/-- The two length bytes of an outer frame hold its payload's length (R91). -/
theorem len_bytes (n : Nat) (h : n ≤ 65535) : ((BitVec.ofNat 8 (n / 256) : Byte) ++ (BitVec.ofNat 8
    (n % 256) : Byte) : BitVec (8+8)) = BitVec.ofNat 16 n := by
  apply BitVec.eq_of_toNat_eq
  rw [toNat_append_byte]; simp; omega

/-- The same, least significant byte first. -/
theorem le16_len (n : Nat) (h : n ≤ 65535) : le16 (BitVec.ofNat 8 (n % 256)) (BitVec.ofNat 8
    (n / 256)) = BitVec.ofNat 16 n :=
  len_bytes n h

/-- A frame is parsed back to its label and payload. -/
theorem parseFrame_frameBytes (label : Byte) (p : List Byte) (h : p.length ≤ 65535) :
    parseFrame (frameBytes label p) = .ok (label, p) := by
  have e : frameBytes label p = somByte :: label :: BitVec.ofNat 8
      (p.length % 256) :: BitVec.ofNat 8 (p.length / 256) :: (p ++ [eomByte]) := by
    simp [frameBytes, frameHeader]
  rw [e]
  simp only [parseFrame]
  rw [if_neg (by simp), if_neg]
  · simp
  · rw [le16_len _ h]; simp; omega

theorem packetBody_length (f : ReplyFields) : (packetBody f).length = 24 + f.data.length := by
  simp [packetBody]

theorem packetBytes_length (f : ReplyFields) : (packetBytes f).length = 26 + f.data.length := by
  simp [packetBytes, packetBody_length]; omega

/-- A packet is parsed back to its fields. -/
theorem parsePacket_packetBytes (f : ReplyFields) (h : f.data.length ≤ 231) :
    parsePacket (packetBytes f) = .ok f := by
  have e : packetBytes f = startCode :: subStartCode :: BitVec.ofNat 8 (24 + f.data.length) ::
     f.dst.extractLsb' 40 8 :: f.dst.extractLsb' 32 8 :: f.dst.extractLsb' 24 8 ::
         f.dst.extractLsb' 16 8 :: f.dst.extractLsb' 8 8 :: f.dst.extractLsb' 0 8 ::
     f.src.extractLsb' 40 8 :: f.src.extractLsb' 32 8 :: f.src.extractLsb' 24 8 ::
         f.src.extractLsb' 16 8 :: f.src.extractLsb' 8 8 :: f.src.extractLsb' 0 8 ::
     f.tn :: f.rt :: f.mc :: hiByte f.sub :: loByte f.sub :: f.cc :: hiByte f.pid :: loByte f.pid
         :: BitVec.ofNat 8 f.data.length :: (f.data ++ bytes16 (checksum (packetBody f))) := by
    simp [packetBytes, packetBody, packetHeader, bytes48, bytes16]
  have hl := packetBytes_length f
  have ht : (packetBytes f).take ((packetBytes f).length - 2) = packetBody f := by
    rw [packetBytes, List.length_append, bytes16_length, Nat.add_sub_cancel, List.take_left]
  have hd : (packetBytes f).drop ((packetBytes f).length - 2) = bytes16 (checksum (packetBody f)) := by
    rw [packetBytes, List.length_append, bytes16_length, Nat.add_sub_cancel, List.drop_left]
  have hm : (BitVec.ofNat 8 f.data.length).toNat = f.data.length := by
    simp [BitVec.toNat_ofNat]; omega
  have hm2 : (BitVec.ofNat 8 (24 + f.data.length)).toNat = 24 + f.data.length := by
    simp [BitVec.toNat_ofNat]; omega
  generalize hp : packetBytes f = p at *
  rw [e]
  simp only [parsePacket]
  rw [← e, hl, if_neg, ← hl, if_neg]
  · rw [be48_bytes48, be48_bytes48, be16_bytes16, be16_bytes16, hm]
    simp
  · rw [ht, hd]; simp
  · rw [hm, hm2]; simp; omega

theorem kindOfNumber_number (k : StatusKind) : kindOfNumber k.number = some k := by cases k <;> rfl

/-- A reply frame is parsed back to the marker and the packet. -/
theorem parseFrame_replyFrameBytes (ok : Byte) (f : ReplyFields)
    (h : f.data.length ≤ 231) : parseFrame (replyFrameBytes ok f) = .ok (rdmLabel,
    ok :: packetBytes f) := by
  apply parseFrame_frameBytes
  simp [packetBytes_length]; omega

/-- A byte is its number. -/
theorem byte_eq_of {b : Byte} {n : Nat} (h : b.toNat = n) : b = BitVec.ofNat 8 n := by
  apply BitVec.eq_of_toNat_eq; have := b.isLt; simp [BitVec.toNat_ofNat]; omega

/-- The length field determines its two bytes. -/
theorem len_back (lo hi : Byte) (n : Nat) (h : (le16 lo hi).toNat = n) : BitVec.ofNat 8 (n % 256) =
    lo ∧ BitVec.ofNat 8 (n/256) = hi := by
  have e : (le16 lo hi).toNat = hi.toNat * 256 + lo.toNat := be16_toNat hi lo
  have := lo.isLt; have := hi.isLt
  constructor <;> (apply BitVec.eq_of_toNat_eq; simp [BitVec.toNat_ofNat]; omega)

/-- Only the encoding of a frame is parsed. -/
theorem parseFrame_exact {bs : List Byte} {l : Byte} {p : List Byte} (h : parseFrame bs = .ok (l, p)) :
   bs = frameBytes l p ∧ p.length ≤ 65535 := by
  unfold parseFrame at h
  split at h
  · rename_i m label lo hi rest
    split at h
    · simp at h
    · split at h
      · simp at h
      · rename_i h1 h2
        simp only [Except.ok.injEq, Prod.mk.injEq] at h
        obtain ⟨rfl, rfl⟩ := h
        simp only [not_or, Decidable.not_not] at h1 h2
        obtain ⟨rfl, h1⟩ := h1
        have hne : rest ≠ [] := by intro h; simp [h] at h2
        have hr : rest = rest.dropLast ++ [eomByte] := by
          obtain ⟨ys, rfl⟩ := List.getLast?_eq_some_iff.1 h1
          simp
        have hdl : rest.dropLast.length = (le16 lo hi).toNat := by simp; omega
        have hb := len_back lo hi _ hdl.symm
        have := (le16 lo hi).isLt
        refine ⟨?_, by omega⟩
        simp only [frameBytes, frameHeader, hb.1, hb.2, List.cons_append, List.nil_append]
        rw [← hr]
  · simp at h

/-- Only the encoding of a packet is parsed. -/
theorem parsePacket_exact {p : List Byte} {f : ReplyFields} (hp : p.length ≤ 65535)
    (h : parsePacket p = .ok f) :
   p = packetBytes f ∧ f.data.length ≤ 231 := by
  unfold parsePacket at h
  split at h
  · rename_i sc ssc len d0 d1 d2 d3 d4 d5 u0 u1 u2 u3 u4 u5 tn rt mc s0 s1 cc p0 p1 pdl rest
    split at h
    · simp at h
    · split at h
      · simp at h
      · rename_i h1 h2
        simp only [not_or, Decidable.not_not] at h1 h2
        obtain ⟨rfl, rfl, h3, h4⟩ := h1
        simp only [Except.ok.injEq] at h
        have hlen : len.toNat = 24 + pdl.toNat := by simp only [List.length_cons] at h3; omega
        have hl := len.isLt
        have hdat : (rest.take pdl.toNat).length = pdl.toNat := by simp; omega
        have hpd : f.data = rest.take pdl.toNat := by rw [← h]
        have hpl : BitVec.ofNat 8 f.data.length = pdl := by rw [hpd, hdat]; simp
        have hll : BitVec.ofNat 8 (24 + f.data.length) = len := by rw [hpd, hdat, ← hlen]; simp
        have hbody : packetBody f = startCode :: subStartCode :: len :: d0 :: d1 :: d2 :: d3 :: d4
            :: d5 :: u0 :: u1 :: u2 :: u3 :: u4 :: u5 :: tn :: rt
            :: mc :: s0 :: s1 :: cc :: p0 :: p1 :: pdl :: (rest.take pdl.toNat) := by
          clear h2 h3 hp
          simp only [packetBody, packetHeader, hpl, hll]
          subst h
          simp only [bytes48_be48, bytes16_be16, List.cons_append, List.nil_append]
        refine ⟨?_, by rw [hpd, hdat]; omega⟩
        simp only [List.length_cons, h4] at h2
        have ht : List.take (pdl.toNat + 2 + 1 + 1 + 1 + 1 + 1 + 1 + 1 + 1 + 1 + 1 + 1 + 1 + 1 + 1
            + 1 + 1 + 1 + 1 + 1 + 1 + 1 + 1 + 1 + 1 - 2)
            (startCode :: subStartCode :: len :: d0 :: d1 :: d2 :: d3 :: d4 :: d5 :: u0 :: u1 :: u2
            :: u3 :: u4 :: u5 :: tn :: rt
            :: mc :: s0 :: s1 :: cc :: p0 :: p1 :: pdl :: rest) = packetBody f := by
          rw [hbody]
          have : pdl.toNat + 2 + 1 + 1 + 1 + 1 + 1 + 1 + 1 + 1 + 1 + 1 + 1 + 1 + 1 + 1 + 1 + 1 + 1
              + 1 + 1 + 1 + 1 + 1 + 1 + 1 - 2 =
              pdl.toNat + 1 + 1 + 1 + 1 + 1 + 1 + 1 + 1 + 1 + 1 + 1 + 1 + 1 + 1 + 1 + 1 + 1 + 1 + 1
              + 1 + 1 + 1 + 1 + 1 := by omega
          rw [this]
          simp only [List.take_succ_cons]
        have hd : List.drop (pdl.toNat + 2 + 1 + 1 + 1 + 1 + 1 + 1 + 1 + 1 + 1 + 1 + 1 + 1 + 1 + 1
            + 1 + 1 + 1 + 1 + 1 + 1 + 1 + 1 + 1 + 1 - 2)
            (startCode :: subStartCode :: len :: d0 :: d1 :: d2 :: d3 :: d4 :: d5 :: u0 :: u1 :: u2
            :: u3 :: u4 :: u5 :: tn :: rt
            :: mc :: s0 :: s1 :: cc :: p0 :: p1 :: pdl :: rest) = rest.drop pdl.toNat := by
          have : pdl.toNat + 2 + 1 + 1 + 1 + 1 + 1 + 1 + 1 + 1 + 1 + 1 + 1 + 1 + 1 + 1 + 1 + 1 + 1
              + 1 + 1 + 1 + 1 + 1 + 1 + 1 - 2 =
              pdl.toNat + 1 + 1 + 1 + 1 + 1 + 1 + 1 + 1 + 1 + 1 + 1 + 1 + 1 + 1 + 1 + 1 + 1 + 1 + 1
              + 1 + 1 + 1 + 1 + 1 := by omega
          rw [this]
          simp only [List.drop_succ_cons]
        rw [ht, hd] at h2
        rw [packetBytes, h2, hbody]
        simp
  · simp at h

end Sys2Proof.Machine
end

