-- ==== Sys2Proof/Laws/Frames.lean ====
section
/-! SUPPORT. What the encoder's operations and the handlers can do when they answer a next state: which parts of the state
they leave alone, and how far a frame's outcome has come. -/

namespace Sys2Proof.Machine

/-! How far a frame's outcome has come since `s₀`. -/

/-- Nothing sent yet. -/
def NothingSent (s₀ t : State) : Prop :=
  t.enc.busy = false ∧ t.enc.done = false ∧ t.trace.tx = s₀.trace.tx
    ∧ t.trace.statusLog = s₀.trace.statusLog

/-- A response is open: its header and some of its parameter bytes are on TX and in `e_sum`. -/
def ReplyOpen (s₀ t : State) : Prop :=
  ∃ (f : ReplyFields) (pdl : Nat) (data : List Byte),
    t.enc.busy = true ∧ t.enc.done = false ∧ t.trace.statusLog = s₀.trace.statusLog
      ∧ t.ctx.bcast = false ∧ pdl ≤ 231 ∧ t.enc.remaining.toNat + data.length = pdl
      ∧ t.trace.tx = s₀.trace.tx ++ frameHeader rdmLabel (27 + pdl) ++ [s₀.cfg.statusOk]
          ++ packetHeader f pdl ++ data
      ∧ t.enc.sum = checksum (packetHeader f pdl ++ data)

/-- The outcome is there: one reply to a unicast request, or one status. -/
def OutcomeSent (s₀ t : State) : Prop :=
  t.enc.busy = false ∧ t.enc.done = true ∧
    ((∃ f, f.data.length ≤ 231 ∧ t.trace.tx = s₀.trace.tx ++ replyFrameBytes s₀.cfg.statusOk f
        ∧ t.trace.statusLog = s₀.trace.statusLog ∧ t.ctx.bcast = false)
      ∨ ∃ k, t.trace.tx = s₀.trace.tx ++ statusBytes s₀.cfg k
        ∧ t.trace.statusLog = s₀.trace.statusLog ++ [k])

/-- One of the three, under an unchanged configuration. -/
def Progress (s₀ t : State) : Prop :=
  t.cfg = s₀.cfg ∧ (NothingSent s₀ t ∨ ReplyOpen s₀ t ∨ OutcomeSent s₀ t)

/-- Progress looks at the configuration, the encoder, TX, the status log and `c_bcast` only. -/
theorem Progress.congr {s₀ s t : State} (h : Progress s₀ s) (hc : t.cfg = s.cfg) (he : t.enc = s.enc)
    (hx : t.trace.tx = s.trace.tx) (hl : t.trace.statusLog = s.trace.statusLog)
    (hb : t.ctx.bcast = s.ctx.bcast) : Progress s₀ t := by
  obtain ⟨h0, h⟩ := h
  refine ⟨hc.trans h0, ?_⟩
  simpa only [NothingSent, ReplyOpen, OutcomeSent, he, hx, hl, hb] using h

/-- A frame that has an outcome and a closed encoder has exactly one outcome. -/
theorem Progress.outcome {s₀ t : State} (h : Progress s₀ t) (ho : outcomeReached t = true) :
    OutcomeSent s₀ t := by
  simp only [outcomeReached, Bool.and_eq_true, Bool.not_eq_true'] at ho
  obtain ⟨-, ⟨-, hd, -⟩ | ⟨_, _, _, hb, -⟩ | h⟩ := h
  · simp [hd] at ho
  · simp [hb] at ho
  · exact h

theorem OutcomeSent.oneOutcome {s₀ t : State} (h : OutcomeSent s₀ t) : OneOutcome s₀ t := by
  obtain ⟨-, -, ⟨f, h1, h2, h3, -⟩ | ⟨k, h1, h2⟩⟩ := h
  · exact .inl ⟨f, h1, h2, h3⟩
  · exact .inr ⟨k, h1, h2⟩

/-! Port operations. -/

/-- A port operation changes the encoder's registers, TX and the status log only, the last two by appending, and takes a
frame's outcome from one stage to the next. -/
structure Ported (s t : State) : Prop where
  eq : t = { s with
    enc := t.enc
    trace := { s.trace with tx := t.trace.tx, statusLog := t.trace.statusLog } }
  tx : s.trace.tx <+: t.trace.tx
  log : s.trace.statusLog <+: t.trace.statusLog
  progress : ∀ s₀, Progress s₀ s → Progress s₀ t

theorem Ported.refl (s : State) : Ported s s := ⟨rfl, List.prefix_rfl, List.prefix_rfl, fun _ h => h⟩

theorem Ported.trans {s t u : State} (h : Ported s t) (k : Ported t u) : Ported s u := by
  refine ⟨?_, h.tx.trans k.tx, h.log.trans k.log, fun s₀ p => k.progress s₀ (h.progress s₀ p)⟩
  have e := k.eq
  rw [h.eq] at e
  exact e

/-- Sequencing port operations. -/
theorem Ported.andThen {o : Out} {k : State → Out} {s t : State} (h : andThen o k = .next t)
    (ho : ∀ u, o = .next u → Ported s u) (hk : ∀ u, k u = .next t → Ported u t) : Ported s t := by
  obtain ⟨u, h1, h2⟩ := andThen_eq_next h
  exact (ho u h1).trans (hk u h2)

theorem openReply_ported {f : ReplyFields} {pdl : Nat} {s t : State} (h : openReply f pdl s = .next t) :
    Ported s t := by
  obtain ⟨hb, hd, hc, hp, rfl⟩ := openReply_eq_next h
  refine ⟨rfl, ?_, List.prefix_rfl, ?_⟩
  · simp [opened, List.append_assoc]
  · rintro s₀ ⟨h0, ⟨-, -, hx, hl⟩ | ⟨_, _, _, hb', -⟩ | ⟨-, hd', -⟩⟩
    · refine ⟨h0, .inr (.inl ⟨f, pdl, [], rfl, hd, hl, hc, hp, ?_, ?_, ?_⟩)⟩
      · simp [opened, BitVec.toNat_ofNat]; omega
      · simp [opened, hx, h0, List.append_assoc]
      · simp [opened]
    · simp [hb] at hb'
    · simp [hd] at hd'

theorem putByte_ported {v : Byte} {s t : State} (h : putByte v s = .next t) : Ported s t := by
  obtain ⟨hb, hr, rfl⟩ := putByte_eq_next h
  refine ⟨rfl, by simp, by simp, ?_⟩
  rintro s₀ ⟨h0, ⟨hb', -⟩ | ⟨f, pdl, data, h1, h2, h3, h4, h5, h6, h7, h8⟩ | ⟨hb', -⟩⟩
  · simp [hb] at hb'
  · refine ⟨h0, .inr (.inl ⟨f, pdl, data ++ [v], h1, h2, h3, h4, h5, ?_, ?_, ?_⟩)⟩
    · simp only [putCounted_enc, remaining_pred hr, List.length_append, List.length_singleton]
      omega
    · simp [h7, List.append_assoc]
    · simp [h8, sumByte, BitVec.add_assoc]
  · simp [hb] at hb'

theorem putBytes_ported {bs : List Byte} {s t : State} (h : putBytes bs s = .next t) : Ported s t := by
  induction bs generalizing s with
  | nil => simp only [putBytes, Host.Outcome.next.injEq] at h; exact h ▸ .refl s
  | cons b bs ih => exact .andThen h (fun _ => putByte_ported) fun _ => ih

theorem closeReply_ported {s t : State} (h : closeReply s = .next t) : Ported s t := by
  obtain ⟨hb, hr, rfl⟩ := closeReply_eq_next h
  refine ⟨rfl, ?_, List.prefix_rfl, ?_⟩
  · simp [closed, List.append_assoc]
  · rintro s₀ ⟨h0, ⟨hb', -⟩ | ⟨f, pdl, data, h1, h2, h3, h4, h5, h6, h7, h8⟩ | ⟨hb', -⟩⟩
    · simp [hb] at hb'
    · have hl : data.length = pdl := by simpa [hr] using h6
      refine ⟨h0, .inr (.inr ⟨rfl, rfl, .inl ⟨{ f with data := data }, by simp; omega, ?_, h3, h4⟩⟩)⟩
      have hn : 24 + (data.length + 2) + 1 = 27 + data.length := by omega
      subst hl
      simp [closed, h7, h8, replyFrameBytes, frameBytes, packetBytes, packetBody, packetHeader_data,
        List.append_assoc, hn]
    · simp [hb] at hb'

theorem takeStatus_ported {k : StatusKind} {s t : State} (h : takeStatus k s = .next t) :
    Ported s t := by
  obtain ⟨hb, hd, rfl⟩ := takeStatus_eq_next h
  refine ⟨rfl, by simp, by simp, ?_⟩
  rintro s₀ ⟨h0, ⟨-, -, hx, hl⟩ | ⟨_, _, _, hb', -⟩ | ⟨-, hd', -⟩⟩
  · refine ⟨h0, .inr (.inr ⟨hb, rfl, .inr ⟨k, ?_, ?_⟩⟩)⟩
    · simp [hx, statusBytes, h0]
    · simp [hl]
  · simp [hb] at hb'
  · simp [hd] at hd'

theorem putInt_ported {v : Word16} {s t : State} (h : putInt v s = .next t) : Ported s t :=
  putBytes_ported (unlessFault_eq_next h).2

theorem putInts_ported {vs : List Word16} {s t : State} (h : putInts vs s = .next t) : Ported s t := by
  induction vs generalizing s with
  | nil => simp only [putInts, Host.Outcome.next.injEq] at h; exact h ▸ .refl s
  | cons v vs ih => exact .andThen h (fun _ => putInt_ported) fun _ => ih

theorem putLong_ported {v : Word32} {s t : State} (h : putLong v s = .next t) : Ported s t :=
  putBytes_ported (unlessFault_eq_next h).2

theorem sendReply_ported {rt cc : Byte} {pid : Word16} {data : List Byte} {s t : State}
    (h : sendReply rt cc pid data s = .next t) : Ported s t :=
  .andThen h (fun _ => openReply_ported) fun _ h =>
    .andThen h (fun _ => putBytes_ported) fun _ => closeReply_ported

theorem emptyAck_ported {s t : State} (h : emptyAck s = .next t) : Ported s t :=
  .andThen h (fun _ => openReply_ported) fun _ => closeReply_ported

theorem nack_ported {r : Word16} {s t : State} (h : nack r s = .next t) : Ported s t :=
  .andThen h (fun _ => openReply_ported) fun _ h =>
    .andThen h (fun _ => putInt_ported) fun _ => closeReply_ported

theorem ackTimer_ported {d : Word16} {s t : State} (h : ackTimer d s = .next t) : Ported s t :=
  .andThen h (fun _ => openReply_ported) fun _ h =>
    .andThen h (fun _ => putInt_ported) fun _ => closeReply_ported

theorem reportKind_ported {k : StatusKind} {s t : State} (h : reportKind k s = .next t) :
    Ported s t := by
  simp only [reportKind] at h
  split at h
  · simp at h
  · exact takeStatus_ported h

theorem nackOrSilent_ported {wb : Bool} {r : Word16} {s t : State}
    (h : nackOrSilent wb r s = .next t) : Ported s t := by
  cases wb
  · exact nack_ported h
  · exact reportKind_ported h

/-- What one handler-port command can do. -/
theorem runPort_ported {c : PortCommand} {s t : State} (h : runPort c s = .next t) : Ported s t := by
  cases c with
  | startResponse rt pdl cc pid => exact openReply_ported h
  | sendByte v => exact putByte_ported h
  | sendInt v => exact putInt_ported h
  | sendLong v => exact putLong_ported h
  | endResponse => exact closeReply_ported h
  | sendEmptyAck => exact emptyAck_ported h
  | sendNack r => exact nack_ported h
  | sendAckTimer d => exact ackTimer_ported h
  | nackOrBroadcast wb r => exact nackOrSilent_ported h
  | reportStatus k => exact reportKind_ported h
  | reserved c => simp [runPort] at h

theorem runPorts_ported {cs : List PortCommand} {s t : State} (h : runPorts cs s = .next t) :
    Ported s t := by
  induction cs generalizing s with
  | nil => simp only [runPorts, Host.Outcome.next.injEq] at h; exact h ▸ .refl s
  | cons c cs ih => exact .andThen h (fun _ => runPort_ported) fun _ => ih

/-! Handlers. -/

/-- The queued-message count is the pending flag (R253). -/
def QueueAgrees (f : HandlerFlags) : Prop := f.queuedCount = if f.labelPending then 1 else 0

/-- A handler changes what a port operation changes, the flags, the agent's own state and the store only; in a table that
leaves the count to R253 and R254 it keeps the count equal to the pending flag. -/
structure Handled (s t : State) : Prop where
  eq : t = { s with
    enc := t.enc
    flags := t.flags
    agent := t.agent
    store := t.store
    trace := { s.trace with tx := t.trace.tx, statusLog := t.trace.statusLog } }
  tx : s.trace.tx <+: t.trace.tx
  log : s.trace.statusLog <+: t.trace.statusLog
  queue : settledConfig s.cfg = true → QueueAgrees s.flags → QueueAgrees t.flags
  progress : ∀ s₀, Progress s₀ s → Progress s₀ t

theorem Ported.flags {s t : State} (h : Ported s t) : t.flags = s.flags := by rw [h.eq]
theorem Ported.store {s t : State} (h : Ported s t) : t.store = s.store := by rw [h.eq]
theorem Ported.agent {s t : State} (h : Ported s t) : t.agent = s.agent := by rw [h.eq]

theorem Ported.handled {s t : State} (h : Ported s t) : Handled s t where
  eq := by
    have e := h.eq
    rw [h.flags, h.store, h.agent]
    exact e
  tx := h.tx
  log := h.log
  queue := by rw [h.flags]; exact fun _ => id
  progress := h.progress

theorem Handled.refl (s : State) : Handled s s := (Ported.refl s).handled
theorem Handled.cfg {s t : State} (h : Handled s t) : t.cfg = s.cfg := by rw [h.eq]

theorem Handled.trans {s t u : State} (h : Handled s t) (k : Handled t u) : Handled s u := by
  refine ⟨?_, h.tx.trans k.tx, h.log.trans k.log,
    fun hs q => k.queue (h.cfg ▸ hs) (h.queue hs q), fun s₀ p => k.progress s₀ (h.progress s₀ p)⟩
  have e := k.eq
  rw [h.eq] at e
  exact e

theorem Handled.andThen {o : Out} {k : State → Out} {s t : State} (h : Machine.andThen o k = .next t)
    (ho : ∀ u, o = .next u → Handled s u) (hk : ∀ u, k u = .next t → Handled u t) : Handled s t := by
  obtain ⟨u, h1, h2⟩ := andThen_eq_next h
  exact (ho u h1).trans (hk u h2)

/-- Writing the store is a handler's right. -/
theorem handled_store (s : State) (st : SettingsStore) : Handled s { s with store := st } :=
  ⟨rfl, List.prefix_rfl, List.prefix_rfl, fun _ => id, fun _ p => p.congr rfl rfl rfl rfl rfl⟩

/-- So is writing the agent's own state. -/
theorem handled_agent (s : State) (a : AgentState) : Handled s { s with agent := a } :=
  ⟨rfl, List.prefix_rfl, List.prefix_rfl, fun _ => id, fun _ p => p.congr rfl rfl rfl rfl rfl⟩

/-- Writing the flags is, as long as the count stays right where it has to. -/
theorem handled_flags (s : State) (f : HandlerFlags)
    (h : settledConfig s.cfg = true → QueueAgrees s.flags → QueueAgrees f) :
    Handled s { s with flags := f } :=
  ⟨rfl, List.prefix_rfl, List.prefix_rfl, h, fun _ p => p.congr rfl rfl rfl rfl rfl⟩

theorem setDone_ported {wb : Bool} {s t : State} (h : setDone wb s = .next t) : Ported s t := by
  simp only [setDone] at h
  split at h
  · exact reportKind_ported h
  · exact emptyAck_ported h

/-- What one action can do: a handler's rights, and the count stays right unless it writes the flags. -/
theorem runAction_handled {a : AgentAction} {s t : State} (ha : settledConfig s.cfg = true → leavesFlags a = true)
    (h : runAction a s = .next t) : Handled s t := by
  cases a with
  | port c => exact (runPort_ported h).handled
  | write w =>
    simp only [runAction, Host.Outcome.next.injEq] at h
    exact h ▸ handled_store s _
  | flags f =>
    simp only [runAction, Host.Outcome.next.injEq] at h
    exact h ▸ handled_flags s f fun hs => absurd (ha hs) (by simp [leavesFlags])
  | own a =>
    simp only [runAction, Host.Outcome.next.injEq] at h
    exact h ▸ handled_agent s a
  | param i =>
    obtain ⟨pdl, -, h⟩ := withRead_eq_next h
    obtain ⟨v, -, h⟩ := withRead_eq_next h
    simp only [Host.Outcome.next.injEq] at h
    exact h ▸ .refl s

/-- What a sequence of actions can do. -/
theorem runActions_handled {as : List AgentAction} {s t : State}
    (ha : settledConfig s.cfg = true → as.all leavesFlags = true) (h : runActions as s = .next t) :
    Handled s t := by
  induction as generalizing s with
  | nil => simp only [runActions, Host.Outcome.next.injEq] at h; exact h ▸ .refl s
  | cons a as ih =>
    simp only [List.all_cons, Bool.and_eq_true] at ha
    obtain ⟨u, hu, h⟩ := andThen_eq_next h
    have k := runAction_handled (fun hs => (ha hs).1) hu
    exact k.trans (ih (fun hs => (ha (k.cfg ▸ hs)).2) h)

/-- What the parameter agent can do. -/
theorem agentRun_handled {id : Nat} {wb : Bool} {s t : State} (hs : settledConfig s.cfg = false)
    (h : agentRun id wb s = .next t) : Handled s t := by
  obtain ⟨r, -, h⟩ := withRead_eq_next h
  exact runActions_handled (by simp [hs]) h

/-- What a GET behaviour can do; one that keeps R259 writes neither the store nor the agent's own state, and of the flags only
a pending queued message changes any. -/
theorem runGet_handled {b : GetBehaviour} {s t : State} (h : runGet b s = .next t)
    (hb : settledConfig s.cfg = true → quietGet b = true) :
    Handled s t ∧ (quietGet b = true → t.store = s.store ∧ t.agent = s.agent
      ∧ (s.flags.labelPending = false → t.flags = s.flags)) := by
  have port : ∀ {u : State}, Ported s u →
      Handled s u ∧ (quietGet b = true → u.store = s.store ∧ u.agent = s.agent
        ∧ (s.flags.labelPending = false → u.flags = s.flags)) :=
    fun p => ⟨p.handled, fun _ => ⟨p.store, p.agent, fun _ => p.flags⟩⟩
  cases b with
  | supportedParameters =>
    exact port (.andThen h (fun _ => openReply_ported) fun _ h =>
      .andThen h (fun _ => putInts_ported) fun _ => closeReply_ported)
  | queuedMessage =>
    simp only [runGet, queuedMessageGet] at h
    split at h
    · rename_i hp
      have p := sendReply_ported h
      refine ⟨(handled_flags s _ ?_).trans p.handled, fun _ => ⟨p.store, p.agent, fun hf => by simp [hf] at hp⟩⟩
      intro _ q
      simp only [QueueAgrees, hp, if_true] at q ⊢
      rw [q]
      rfl
    · exact port (sendReply_ported h)
  | readField f w =>
    obtain ⟨pdl, -, h⟩ := withRead_eq_next h
    simp only at h
    split at h
    · exact port (sendReply_ported h)
    · obtain ⟨r, -, h⟩ := withRead_eq_next h
      split at h
      · exact port (nack_ported h)
      · exact port (sendReply_ported h)
  | other id =>
    obtain ⟨pdl, -, h⟩ := withRead_eq_next h
    split at h
    · exact port (sendReply_ported h)
    · exact port (nack_ported h)
  | script cs => exact port (runPorts_ported h)
  | agent id =>
    refine ⟨agentRun_handled ?_ h, fun hq => by simp [quietGet] at hq⟩
    cases hs : settledConfig s.cfg
    · rfl
    · simpa [quietGet] using hb hs

theorem deviceLabelSet_handled {wb : Bool} {s t : State} (h : deviceLabelSet wb s = .next t) :
    Handled s t := by
  obtain ⟨pdl, -, h⟩ := withRead_eq_next h
  simp only at h
  split at h
  · exact (nackOrSilent_ported h).handled
  · obtain ⟨label, -, h⟩ := withRead_eq_next h
    refine (handled_store s (applyWrite (.deviceLabel label) s.store)).trans ?_
    split at h
    · exact (reportKind_ported h).handled
    · refine .andThen h (fun _ h => (ackTimer_ported h).handled) fun u hu => ?_
      simp only [Host.Outcome.next.injEq] at hu
      subst hu
      refine handled_flags u _ fun _ q => ?_
      simp only [QueueAgrees] at q ⊢
      cases hp : u.flags.labelPending <;> simp [hp] at q ⊢ <;> simp [q]

theorem startAddressSet_handled {wb : Bool} {s t : State} (h : startAddressSet wb s = .next t) :
    Handled s t := by
  obtain ⟨pdl, -, h⟩ := withRead_eq_next h
  split at h
  · exact (nackOrSilent_ported h).handled
  · obtain ⟨a, -, h⟩ := withRead_eq_next h
    obtain ⟨b, -, h⟩ := withRead_eq_next h
    split at h
    · exact (nackOrSilent_ported h).handled
    · exact (handled_store s _).trans (setDone_ported h).handled

theorem serialNumberSet_handled {wb : Bool} {s t : State} (h : serialNumberSet wb s = .next t) :
    Handled s t := by
  obtain ⟨pdl, -, h⟩ := withRead_eq_next h
  split at h
  · exact (nackOrSilent_ported h).handled
  · obtain ⟨a, -, h⟩ := withRead_eq_next h
    obtain ⟨b, -, h⟩ := withRead_eq_next h
    obtain ⟨c, -, h⟩ := withRead_eq_next h
    obtain ⟨d, -, h⟩ := withRead_eq_next h
    split at h
    · exact (nackOrSilent_ported h).handled
    · exact (handled_store s _).trans (setDone_ported h).handled

theorem writeNamedField_handled (f : SetField) (v : Nat) (s : State) :
    Handled s (writeNamedField f v s) := by
  cases f with
  | identify => exact handled_flags s _ fun _ => id
  | personality => exact handled_store s _
  | powerCycles => exact handled_store s _
  | sensorValue => exact handled_store s _

/-- What a SET behaviour can do. -/
theorem runSet_handled {b : SetBehaviour} {wb : Bool} {s t : State} (h : runSet b wb s = .next t)
    (hb : settledConfig s.cfg = true → settledSet b = true) : Handled s t := by
  cases b with
  | deviceLabel => exact deviceLabelSet_handled h
  | startAddress => exact startAddressSet_handled h
  | serialNumber => exact serialNumberSet_handled h
  | writeField f =>
    obtain ⟨pdl, -, h⟩ := withRead_eq_next h
    split at h
    · exact (nackOrSilent_ported h).handled
    · exact (nackOrSilent_ported h).handled
    · exact (writeNamedField_handled f _ s).trans (setDone_ported h).handled
  | other id =>
    obtain ⟨pdl, -, h⟩ := withRead_eq_next h
    split at h
    · exact (nackOrSilent_ported h).handled
    · exact (nackOrSilent_ported h).handled
    · exact (handled_store s _).trans (setDone_ported h).handled
  | script as => exact runActions_handled hb h
  | agent id =>
    refine agentRun_handled ?_ h
    cases hs : settledConfig s.cfg
    · rfl
    · simpa [settledSet] using hb hs

/-- An entry the table holds. -/
theorem tableEntry_mem {c : Config} {i : Nat} {e : PidDefinition} (he : tableEntry c i = .ok e) : e ∈ c.pidTable := by
  simp only [tableEntry] at he
  split at he
  · rename_i h
    cases he
    exact List.mem_of_getElem? h
  · simp at he

/-- A table whose GETs keep R259 has such GETs only. -/
theorem quietConfig_entry {c : Config} {i : Nat} {e : PidDefinition} (he : tableEntry c i = .ok e)
    (hq : quietConfig c = true) (b : GetBehaviour) (hb : e.get = some b) : quietGet b = true := by
  simpa [hb] using List.all_eq_true.1 hq e (tableEntry_mem he)

/-- A table that leaves the count to R253 and R254 has such handlers only. -/
theorem settledConfig_entry {c : Config} {i : Nat} {e : PidDefinition} (he : tableEntry c i = .ok e)
    (hs : settledConfig c = true) :
    (∀ b, e.get = some b → quietGet b = true) ∧ ∀ b, e.set = some b → settledSet b = true := by
  simp only [settledConfig, Bool.and_eq_true] at hs
  exact ⟨quietConfig_entry he hs.1, fun b hb => by
    simpa [hb] using List.all_eq_true.1 hs.2 e (tableEntry_mem he)⟩

/-- A handler that returns has produced the frame's outcome. -/
theorem handlerReturn_eq_next {s t : State} (h : handlerReturn s = .next t) :
    t = s ∧ outcomeReached s = true := by
  simp only [handlerReturn] at h
  split at h
  · exact ⟨by simpa using h.symm, by assumption⟩
  · simp at h

end Sys2Proof.Machine
end

