-- ==== Sys2Proof/Laws/Pipeline.lean ====
section
/-! SUPPORT. What the steps of the validator and the dispatcher can do: where they go on, only their own registers have changed;
where they stop with a next state, an outcome was produced from such a state. -/

namespace Sys2Proof.Machine

theorem Flow.andThen_assoc (f : Flow) (k l : State → Flow) :
    (f.andThen k).andThen l = f.andThen fun s => (k s).andThen l := by
  cases f <;> rfl

/-- Only the validator's and the dispatcher's registers and the `ResponseContext` have changed. -/
def Early (s t : State) : Prop := t = { s with val := t.val, disp := t.disp, ctx := t.ctx }

theorem Early.refl (s : State) : Early s s := rfl

theorem Early.trans {s t u : State} (h : Early s t) (k : Early t u) : Early s u := by
  have e := k
  unfold Early at h e
  rw [h] at e
  exact e

/-- Only the dispatcher's registers have changed. -/
def Dispatching (s t : State) : Prop := t = { s with disp := t.disp }

theorem Dispatching.trans {s t u : State} (h : Dispatching s t) (k : Dispatching t u) :
    Dispatching s u := by
  have e := k
  unfold Dispatching at h e
  rw [h] at e
  exact e

theorem Dispatching.early {s t : State} (h : Dispatching s t) : Early s t := by
  have e := h
  unfold Dispatching at e
  unfold Early
  rw [e]

/-! The validator and the destination match. -/

/-- A step that goes on in an `Early` state, or stops with a status. -/
def Checks (s : State) (f : Flow) : Prop :=
  (∀ t, f = .go t → Early s t) ∧
    ∀ t, f = .stop (.next t) → ∃ k u, Early s u ∧ takeStatus k u = .next t

theorem Checks.go {s t : State} (h : Early s t) : Checks s (.go t) :=
  ⟨fun _ e => (Flow.go.inj e) ▸ h, fun _ e => by simp at e⟩

theorem Checks.status {s u : State} (k : StatusKind) (h : Early s u) : Checks s (raiseStatus k u) :=
  ⟨fun _ e => by simp [raiseStatus] at e, fun _ e => ⟨k, u, h, Flow.stop.inj e⟩⟩

theorem Checks.read {α : Type} {s : State} {r : Except Fault α} {k : α → Flow}
    (h : ∀ a, r = .ok a → Checks s (k a)) : Checks s (Flow.withRead r k) := by
  cases r with
  | ok a => exact h a rfl
  | error f => exact ⟨fun _ e => by simp at e, fun _ e => by simp at e⟩

theorem Checks.fault (s : State) (f : Fault) : Checks s (.stop (.fault f)) :=
  ⟨fun _ e => by simp at e, fun _ e => by simp at e⟩

theorem Checks.andThen {s : State} {f : Flow} {k : State → Flow} (h : Checks s f)
    (hk : ∀ t, f = .go t → Checks t (k t)) : Checks s (f.andThen k) := by
  cases f with
  | stop o => exact h
  | go t =>
    have hst := h.1 t rfl
    refine ⟨fun u e => hst.trans ((hk t rfl).1 u e), fun u e => ?_⟩
    obtain ⟨q, v, hv, e⟩ := (hk t rfl).2 u e
    exact ⟨q, v, hst.trans hv, e⟩

theorem checkSize_checks (s : State) : Checks s (checkSize s) := by
  unfold checkSize
  split
  · exact .status _ rfl
  · exact .go rfl

theorem checkStartByte_checks (a : Nat) (b : Byte) (s : State) : Checks s (checkStartByte a b s) := by
  refine .read fun c _ => ?_
  split
  · exact .status _ rfl
  · exact .go rfl

theorem checkStartCodes_checks (s : State) : Checks s (checkStartCodes s) := by
  refine .read fun a _ => .read fun b _ => ?_
  split
  · exact .status _ rfl
  · exact .go rfl

theorem checkLength_checks (s : State) : Checks s (checkLength s) := by
  refine .read fun a _ => ?_
  split
  · exact .status _ rfl
  · exact .go rfl

theorem checkChecksum_checks (s : State) : Checks s (checkChecksum s) := by
  unfold checkChecksum
  split
  · exact .fault s _
  · refine .read fun a _ => .read fun b _ => .read fun c _ => ?_
    simp only
    split
    · exact .go rfl
    · exact .status _ rfl

theorem validatePacket_checks (s : State) : Checks s (validatePacket s) :=
  ((((checkSize_checks s).andThen fun _ _ => checkStartCodes_checks _).andThen
    fun _ _ => checkLength_checks _).andThen fun _ _ => checkChecksum_checks _).andThen
    fun _ _ => .go rfl

theorem broadcastDetection_checks (s : State) : Checks s (broadcastDetection s) :=
  .read fun _ _ => .go rfl

theorem destinationMatch_checks (s : State) : Checks s (destinationMatch s) :=
  .read fun _ _ => .go rfl

theorem destinationReject_checks (s : State) : Checks s (destinationReject s) := by
  unfold destinationReject
  split
  · exact .go rfl
  · exact .status _ rfl

theorem loadContext_checks (s : State) : Checks s (loadContext s) :=
  .read fun _ _ => .read fun _ _ => .read fun _ _ => .read fun _ _ => .read fun _ _ => .go rfl

/-! The dispatcher. -/

/-- What a handler's invocation from `u` can leave: a logged call, and a handled state with an outcome. -/
def Invoked (u t : State) : Prop :=
  ∃ v, Handled { u with trace.handlerLog := u.trace.handlerLog ++ [v] } t ∧ outcomeReached t = true
    ∧ (v = .get u.disp.idx → quietConfig u.cfg = true → t.store = u.store ∧ t.agent = u.agent
      ∧ (u.flags.labelPending = false → t.flags = u.flags))

/-- A step that goes on with only the dispatcher's registers changed, or stops with an outcome of the block's own. -/
def Decides (s : State) (f : Flow) : Prop :=
  (∀ t, f = .go t → Dispatching s t) ∧
    ∀ t, f = .stop (.next t) → ∃ u, Dispatching s u ∧ Ported u t

/-- The same, or a handler was invoked. -/
def Ends (s : State) (f : Flow) : Prop :=
  (∀ t, f = .go t → Dispatching s t) ∧
    ∀ t, f = .stop (.next t) → ∃ u, Dispatching s u ∧ (Ported u t ∨ Invoked u t)

theorem Decides.go {s t : State} (h : Dispatching s t) : Decides s (.go t) :=
  ⟨fun _ e => (Flow.go.inj e) ▸ h, fun _ e => by simp at e⟩

theorem Decides.stop {s u : State} {o : Out} (ho : ∀ t, o = .next t → Ported u t) (h : Dispatching s u) :
    Decides s (.stop o) :=
  ⟨fun _ e => by simp at e, fun t e => ⟨u, h, ho t (Flow.stop.inj e)⟩⟩

theorem Decides.read {α : Type} {s : State} {r : Except Fault α} {k : α → Flow}
    (h : ∀ a, r = .ok a → Decides s (k a)) : Decides s (Flow.withRead r k) := by
  cases r with
  | ok a => exact h a rfl
  | error f => exact ⟨fun _ e => by simp at e, fun _ e => by simp at e⟩

theorem Decides.ends {s : State} {f : Flow} (h : Decides s f) : Ends s f :=
  ⟨h.1, fun t e => let ⟨u, hu, p⟩ := h.2 t e; ⟨u, hu, .inl p⟩⟩

theorem Ends.andThen {s : State} {f : Flow} {k : State → Flow} (h : Ends s f)
    (hk : ∀ t, f = .go t → Ends t (k t)) : Ends s (f.andThen k) := by
  cases f with
  | stop o => exact h
  | go t =>
    have hst := h.1 t rfl
    refine ⟨fun u e => hst.trans ((hk t rfl).1 u e), fun u e => ?_⟩
    obtain ⟨v, hv, e⟩ := (hk t rfl).2 u e
    exact ⟨v, hst.trans hv, e⟩

theorem ccCheck_decides (s : State) : Decides s (ccCheck s) := by
  refine .read fun cc _ => ?_
  simp only
  split
  · exact .stop (fun _ => takeStatus_ported) rfl
  · exact .go rfl

theorem subDeviceRange_decides (s : State) : Decides s (subDeviceRange s) := by
  refine .read fun v _ => ?_
  simp only
  split
  · exact .stop (fun _ => nackOrSilent_ported) rfl
  · exact .go rfl

theorem pidLookup_decides (s : State) : Decides s (pidLookup s) := by
  refine .read fun v _ => ?_
  simp only
  split
  · exact .go rfl
  · exact .go rfl

theorem unknownPid_decides (s : State) : Decides s (unknownPid s) := by
  unfold unknownPid
  split
  · exact .go rfl
  · exact .stop (fun _ => nackOrSilent_ported) rfl

theorem getNoHandler_decides (s : State) : Decides s (getNoHandler s) := by
  refine .read fun e _ => ?_
  split
  · exact .go rfl
  · exact .stop (fun _ => nackOrSilent_ported) rfl

theorem setNoHandler_decides (s : State) : Decides s (setNoHandler s) := by
  refine .read fun e _ => ?_
  split
  · exact .go rfl
  · exact .stop (fun _ => nackOrSilent_ported) rfl

theorem getBroadcast_decides (s : State) : Decides s (getBroadcast s) := by
  unfold getBroadcast
  split
  · exact .stop (fun _ => takeStatus_ported) rfl
  · exact .go rfl

theorem getSubDevice_decides (s : State) : Decides s (getSubDevice s) := by
  unfold getSubDevice
  split
  · exact .stop (fun _ => nack_ported) rfl
  · exact .go rfl

theorem getArgSize_decides (s : State) : Decides s (getArgSize s) := by
  refine .read fun e _ => .read fun pdl _ => ?_
  simp only
  split
  · exact .stop (fun _ => nack_ported) rfl
  · exact .go rfl

theorem getInvoke_ends (s : State) : Ends s (getInvoke s) := by
  refine ⟨fun t e => ?_, fun t e => ?_⟩
  · unfold getInvoke at e
    cases h : tableEntry s.cfg s.disp.idx with
    | error f => simp [h] at e
    | ok d => cases hg : d.get <;> simp [h, hg] at e
  · unfold getInvoke at e
    cases h : tableEntry s.cfg s.disp.idx with
    | error f => simp [h] at e
    | ok d =>
      cases hg : d.get with
      | none => simp [h, hg] at e
      | some b =>
        simp only [h, hg, Flow.withRead_ok, Flow.stop.injEq] at e
        obtain ⟨u, hu, hr⟩ := andThen_eq_next e
        obtain ⟨rfl, ho⟩ := handlerReturn_eq_next hr
        have settled : settledConfig s.cfg = true → quietGet b = true := fun hs => (settledConfig_entry h hs).1 b hg
        obtain ⟨h1, h2⟩ := runGet_handled hu settled
        have quiet : quietConfig s.cfg = true → quietGet b = true := fun hq => quietConfig_entry h hq b hg
        exact ⟨s, rfl, .inr ⟨.get s.disp.idx, h1, ho, fun _ hq => h2 (quiet hq)⟩⟩

theorem setInvoke_ends (s : State) : Ends s (setInvoke s) := by
  refine ⟨fun t e => ?_, fun t e => ?_⟩
  · unfold setInvoke at e
    cases h : tableEntry s.cfg s.disp.idx with
    | error f => simp [h] at e
    | ok d => cases hg : d.set <;> simp [h, hg] at e
  · unfold setInvoke at e
    cases h : tableEntry s.cfg s.disp.idx with
    | error f => simp [h] at e
    | ok d =>
      cases hg : d.set with
      | none => simp [h, hg] at e
      | some b =>
        simp only [h, hg, Flow.withRead_ok, Flow.stop.injEq] at e
        obtain ⟨u, hu, hr⟩ := andThen_eq_next e
        obtain ⟨rfl, ho⟩ := handlerReturn_eq_next hr
        have settled : settledConfig s.cfg = true → settledSet b = true := fun hs => (settledConfig_entry h hs).2 b hg
        exact ⟨s, rfl, .inr ⟨.set s.disp.idx s.val.isBroadcast, runSet_handled hu settled, ho,
          fun h => by simp at h⟩⟩

theorem getPath_ends (s : State) : Ends s (getPath s) :=
  ((((getNoHandler_decides s).ends.andThen fun _ _ => (getBroadcast_decides _).ends).andThen
    fun _ _ => (getSubDevice_decides _).ends).andThen
    fun _ _ => (getArgSize_decides _).ends).andThen fun _ _ => getInvoke_ends _

theorem setPath_ends (s : State) : Ends s (setPath s) :=
  (setNoHandler_decides s).ends.andThen fun _ _ => setInvoke_ends _

/-- The dispatch sequence after the `ResponseContext` is loaded. -/
def dispatchLoaded (s : State) : Flow :=
  (((ccCheck s).andThen subDeviceRange).andThen pidLookup).andThen unknownPid
    |>.andThen fun s => if s.disp.cc = 0x20 then getPath s else setPath s

theorem dispatch_eq (s : State) : dispatch s = (loadContext s).andThen dispatchLoaded := by
  cases h : loadContext s <;> simp [dispatch, dispatchLoaded, h]

theorem dispatchLoaded_ends (s : State) : Ends s (dispatchLoaded s) := by
  refine ((((ccCheck_decides s).ends.andThen fun _ _ => (subDeviceRange_decides _).ends).andThen
    fun _ _ => (pidLookup_decides _).ends).andThen
    fun _ _ => (unknownPid_decides _).ends).andThen fun t _ => ?_
  split
  · exact getPath_ends t
  · exact setPath_ends t

/-! Whole frames. -/

/-- What the processing of a frame can change, and how. -/
structure Processed (s t : State) : Prop where
  eq : t = { s with
    val := t.val
    disp := t.disp
    ctx := t.ctx
    enc := t.enc
    flags := t.flags
    agent := t.agent
    store := t.store
    trace := { s.trace with
      tx := t.trace.tx
      statusLog := t.trace.statusLog
      handlerLog := t.trace.handlerLog } }
  tx : s.trace.tx <+: t.trace.tx
  log : s.trace.statusLog <+: t.trace.statusLog
  handlers : s.trace.handlerLog <+: t.trace.handlerLog
  queue : settledConfig s.cfg = true → QueueAgrees s.flags → QueueAgrees t.flags
  progress : ∀ s₀, s.cfg = s₀.cfg → NothingSent s₀ s → Progress s₀ t

theorem Early.processed {s t : State} (h : Early s t) : Processed s t := by
  unfold Early at h
  rw [h]
  exact ⟨rfl, List.prefix_rfl, List.prefix_rfl, List.prefix_rfl, fun _ => id, fun s₀ hc hn => ⟨hc, .inl hn⟩⟩

theorem Early.handled {s t u : State} (h : Early s t) (k : Handled t u) : Processed s u := by
  have e := k.eq
  unfold Early at h
  rw [h] at e
  refine ⟨?_, ?_, ?_, ?_, ?_, ?_⟩
  · rw [e]
  · have := k.tx; rw [h] at this; exact this
  · have := k.log; rw [h] at this; exact this
  · exact ⟨[], by rw [e, List.append_nil]⟩
  · have := k.queue; rw [h] at this; exact this
  · intro s₀ hc hn
    refine k.progress s₀ ?_
    rw [h]
    exact ⟨hc, .inl hn⟩

theorem Early.invoked {s t u : State} (h : Early s t) (k : Invoked t u) : Processed s u := by
  obtain ⟨v, k, ho, -⟩ := k
  have e := k.eq
  unfold Early at h
  rw [h] at e
  refine ⟨?_, ?_, ?_, ?_, ?_, ?_⟩
  · rw [e]
  · have := k.tx; rw [h] at this; exact this
  · have := k.log; rw [h] at this; exact this
  · rw [e]; exact List.prefix_append _ _
  · have := k.queue; rw [h] at this; exact this
  · intro s₀ hc hn
    refine k.progress s₀ ?_
    rw [h]
    exact ⟨hc, .inl hn⟩

theorem Ends.processed {s t : State} {f : Flow} (h : Ends s f) (e : f.out = .next t) :
    Processed s t := by
  rcases Flow.out_eq_next e with e | e
  · exact (h.1 t e).early.processed
  · obtain ⟨u, hu, p | p⟩ := h.2 t e
    · exact hu.early.handled p.handled
    · exact hu.early.invoked p

theorem Checks.processed {s t : State} {f : Flow} (h : Checks s f) (e : f.out = .next t) :
    Processed s t := by
  rcases Flow.out_eq_next e with e | e
  · exact (h.1 t e).processed
  · obtain ⟨k, u, hu, p⟩ := h.2 t e
    exact hu.handled (takeStatus_ported p).handled

theorem Early.then {s t u : State} (h : Early s t) (k : Processed t u) : Processed s u := by
  have e := k.eq
  unfold Early at h
  rw [h] at e
  refine ⟨?_, ?_, ?_, ?_, ?_, ?_⟩
  · rw [e]
  · have := k.tx; rw [h] at this; exact this
  · have := k.log; rw [h] at this; exact this
  · have := k.handlers; rw [h] at this; exact this
  · have := k.queue; rw [h] at this; exact this
  · intro s₀ hc hn
    exact k.progress s₀ (by rw [h]; exact hc) (by rw [h]; exact hn)

/-- The steps before dispatching, from the state with `size` set (R139). -/
def screenFrame (s : State) : Flow :=
  (((validatePacket s).andThen broadcastDetection).andThen destinationMatch).andThen destinationReject

theorem screenFrame_checks (s : State) : Checks s (screenFrame s) :=
  (((validatePacket_checks s).andThen fun _ _ => broadcastDetection_checks _).andThen
    fun _ _ => destinationMatch_checks _).andThen fun _ _ => destinationReject_checks _

theorem processFrame_eq (s : State) :
    processFrame s = andThen ((screenFrame { s with val.size := s.rx.len }).andThen dispatch).out fun t =>
      if outcomeReached t then .next t else .fault .noOutcome := rfl

/-- A frame that is processed to a next state has an outcome. -/
theorem processFrame_eq_next {s t : State} (h : processFrame s = .next t) :
    ((screenFrame { s with val.size := s.rx.len }).andThen dispatch).out = .next t
      ∧ outcomeReached t = true := by
  rw [processFrame_eq] at h
  obtain ⟨u, hu, h⟩ := andThen_eq_next h
  split at h
  · rename_i ho
    simp only [Host.Outcome.next.injEq] at h
    subst h
    exact ⟨hu, ho⟩
  · simp at h

/-- What the processing of an RDM frame can do (R139, R285, R286). -/
theorem processFrame_processed {s t : State} (h : processFrame s = .next t) : Processed s t := by
  obtain ⟨h, -⟩ := processFrame_eq_next h
  have hs : Early s { s with val.size := s.rx.len } := rfl
  refine hs.then ?_
  cases ha : screenFrame { s with val.size := s.rx.len } with
  | stop o =>
    rw [ha] at h
    exact (screenFrame_checks _).processed (by rw [ha]; exact h)
  | go u =>
    rw [ha, Flow.andThen_go, dispatch_eq] at h
    refine ((screenFrame_checks _).1 u ha).then ?_
    cases hl : loadContext u with
    | stop o =>
      rw [hl] at h
      exact (loadContext_checks u).processed (by rw [hl]; exact h)
    | go v =>
      rw [hl, Flow.andThen_go] at h
      exact ((loadContext_checks u).1 v hl).then ((dispatchLoaded_ends v).processed h)

end Sys2Proof.Machine
end

