-- ==== Sys2Proof/Laws/Steps.lean ====
section
/-! SUPPORT. Each step of the validator and the dispatcher on a frame whose bytes are readable, in closed form: the test it makes,
where it goes on and where it stops. -/

namespace Sys2Proof.Machine

/-! The validator. -/

/-- A rejection with a ready encoder is the status and the verdict. -/
theorem rejectPacket_eq (v : Verdict) (k : StatusKind) {s : State} (h : Ready s) :
    rejectPacket v k s = .stop (.next (withStatus k { s with val.verdict := v })) :=
  congrArg Flow.stop (takeStatus_eq k _ h.1 h.2)

theorem raiseStatus_eq (k : StatusKind) {s : State} (h : Ready s) :
    raiseStatus k s = .stop (.next (withStatus k s)) :=
  congrArg Flow.stop (takeStatus_eq k s h.1 h.2)

theorem checkStartCodes_eq {s : State} (h : Readable s 2) :
    checkStartCodes s =
      if byteAt s 0 ≠ 0xCC ∨ byteAt s 1 ≠ 0x01 then rejectPacket .badStartCode .badStartCode s
      else .go s := by
  simp only [checkStartCodes, readByte_eq h (i := 0) (by omega), readByte_eq h (i := 1) (by omega),
    Flow.withRead_ok]
  rfl

theorem checkLength_eq {s : State} (h : Readable s 3) :
    checkLength s =
      if (byteAt s 2).toNat + 2 ≠ s.val.size.toNat then rejectPacket .badLength .badLength s
      else .go s := by
  simp only [checkLength, readByte_eq h (i := 2) (by omega), Flow.withRead_ok]

theorem checksumMatches_eq (w : Word16) (hi lo : Byte) :
    checksumMatches w hi lo = decide (bytes16 w = [hi, lo]) := by
  simp [checksumMatches, bytes16, Bool.decide_and]

theorem checkChecksum_eq {s : State} {n : Nat} (hn : s.val.size.toNat = n + 2)
    (h : Readable s (n + 2)) :
    checkChecksum s =
      if bytes16 (checksum (bytesAt s 0 n)) = [byteAt s n, byteAt s (n + 1)] then
        .go { s with val.sum := checksum (bytesAt s 0 n) }
      else rejectPacket .badChecksum .badChecksum { s with val.sum := checksum (bytesAt s 0 n) } := by
  have e1 : s.val.size.toNat - 2 = n := by omega
  have e2 : s.val.size.toNat - 1 = n + 1 := by omega
  simp only [checkChecksum, if_neg (show ¬ s.val.size.toNat < 2 by omega), e1, e2,
    readRun_eq h 0 n (by omega), readByte_eq h (i := n) (by omega),
    readByte_eq h (i := n + 1) (by omega), Flow.withRead_ok, ← checksum_eq_foldl,
    checksumMatches_eq, decide_eq_true_eq]

theorem broadcastDetection_eq {s : State} (h : Readable s 9) :
    broadcastDetection s = .go { s with
      val.isBroadcast :=
        decide (byteAt s 5 = 0xFF ∧ byteAt s 6 = 0xFF ∧ byteAt s 7 = 0xFF ∧ byteAt s 8 = 0xFF) } := by
  have e : memRead s 5 4 = .ok (natOfBytes [byteAt s 5, byteAt s 6, byteAt s 7, byteAt s 8]) :=
    memRead_eq h 5 4 (by omega)
  simp only [broadcastDetection, e, Flow.withRead_ok, ofNat_four, broadcastFlag_bytes]

theorem destinationMatch_eq {s : State} (h : Readable s 9) :
    destinationMatch s = .go { s with
      val.toUs := s.val.isBroadcast
        || decide (bytesAt s 3 6 = bytes16 s.store.estaId ++ bytes32 s.store.serialNumber) } := by
  have e : memRead s 3 6
      = .ok (natOfBytes [byteAt s 3, byteAt s 4, byteAt s 5, byteAt s 6, byteAt s 7, byteAt s 8]) :=
    memRead_eq h 3 6 (by omega)
  have b : bytesAt s 3 6
      = [byteAt s 3, byteAt s 4, byteAt s 5, byteAt s 6, byteAt s 7, byteAt s 8] := rfl
  simp only [destinationMatch, e, Flow.withRead_ok, ofNat_six, matchesUid_bytes, b]

/-! The dispatcher. -/

/-- The `ResponseContext` of the request in the buffer (R30). -/
def contextOf (s : State) : ResponseContext where
  dst := be48 (byteAt s 9) (byteAt s 10) (byteAt s 11) (byteAt s 12) (byteAt s 13) (byteAt s 14)
  tn := byteAt s 15
  sub := be16 (byteAt s 18) (byteAt s 19)
  cc := respCc (byteAt s 20)
  pid := be16 (byteAt s 21) (byteAt s 22)
  bcast := s.val.isBroadcast

theorem loadContext_eq {s : State} (h : Readable s 23) :
    loadContext s = .go { s with ctx := contextOf s } := by
  have e1 : memRead s 9 6 = .ok (natOfBytes
      [byteAt s 9, byteAt s 10, byteAt s 11, byteAt s 12, byteAt s 13, byteAt s 14]) :=
    memRead_eq h 9 6 (by omega)
  have e2 : memRead s 18 2 = .ok (natOfBytes [byteAt s 18, byteAt s 19]) :=
    memRead_eq h 18 2 (by omega)
  have e3 : memRead s 21 2 = .ok (natOfBytes [byteAt s 21, byteAt s 22]) :=
    memRead_eq h 21 2 (by omega)
  simp only [loadContext, e1, e2, e3, readByte_eq h (i := 15) (by omega),
    readByte_eq h (i := 20) (by omega), Flow.withRead_ok, ofNat_six, ofNat_two, contextOf]

theorem ccCheck_eq {s : State} (h : Readable s 21) :
    ccCheck s =
      if byteAt s 20 ≠ 0x20 ∧ byteAt s 20 ≠ 0x30 then
        raiseStatus .invalidCommandClass { s with disp.cc := byteAt s 20 }
      else .go { s with disp.cc := byteAt s 20 } := by
  simp only [ccCheck, readByte_eq h (i := 20) (by omega), Flow.withRead_ok]

theorem subDeviceRange_eq {s : State} (h : Readable s 20) :
    subDeviceRange s =
      if be16 (byteAt s 18) (byteAt s 19) ≠ 0x0000 ∧ be16 (byteAt s 18) (byteAt s 19) ≠ 0xFFFF then
        .stop (nackOrSilent s.val.isBroadcast subDeviceReason
          { s with disp.sub := be16 (byteAt s 18) (byteAt s 19) })
      else .go { s with disp.sub := be16 (byteAt s 18) (byteAt s 19) } := by
  have e : memRead s 18 2 = .ok (natOfBytes [byteAt s 18, byteAt s 19]) :=
    memRead_eq h 18 2 (by omega)
  simp only [subDeviceRange, e, Flow.withRead_ok, ofNat_two]

theorem pidLookup_eq {s : State} (h : Readable s 23) :
    pidLookup s =
      match scanTable (be16 (byteAt s 21) (byteAt s 22)) s.cfg.pidTable 0 none with
      | some i => .go { s with
          disp.pid := be16 (byteAt s 21) (byteAt s 22), disp.found := true, disp.idx := i }
      | none => .go { s with disp.pid := be16 (byteAt s 21) (byteAt s 22), disp.found := false } := by
  have e : memRead s 21 2 = .ok (natOfBytes [byteAt s 21, byteAt s 22]) :=
    memRead_eq h 21 2 (by omega)
  simp only [pidLookup, e, Flow.withRead_ok, ofNat_two] <;>
    cases scanTable (be16 (byteAt s 21) (byteAt s 22)) s.cfg.pidTable 0 none <;> rfl

/-- The scan answers the last match, or the index it came with (R183). -/
theorem scanTable_spec (pid : Word16) (es : List PidDefinition) (i : Nat) (best : Option Nat) :
    (scanTable pid es i best = best ∧ ∀ e ∈ es, e.pid ≠ pid) ∨
      ∃ k e, scanTable pid es i best = some (i + k) ∧ es[k]? = some e ∧ e.pid = pid
        ∧ ∀ j e', k < j → es[j]? = some e' → e'.pid ≠ pid := by
  induction es generalizing i best with
  | nil => left; simp [scanTable]
  | cons e es ih =>
    rcases ih (i + 1) (if e.pid = pid then some i else best) with ⟨h1, h2⟩ | ⟨k, e', h1, h2, h3, h4⟩
    · by_cases he : e.pid = pid
      · refine .inr ⟨0, e, by rw [scanTable, h1, if_pos he]; rfl, rfl, he, fun j e' hj hje => ?_⟩
        obtain ⟨j, rfl⟩ : ∃ m, j = m + 1 := ⟨j - 1, by omega⟩
        exact h2 e' (List.mem_of_getElem? (by simpa using hje))
      · refine .inl ⟨by rw [scanTable, h1, if_neg he], fun e' h' => ?_⟩
        rcases List.mem_cons.1 h' with rfl | h'
        · exact he
        · exact h2 _ h'
    · refine .inr ⟨k + 1, e', ?_, by simpa using h2, h3, fun j e'' hj hje => ?_⟩
      · rw [scanTable, h1]
        congr 1
        omega
      · obtain ⟨j, rfl⟩ : ∃ m, j = m + 1 := ⟨j - 1, by omega⟩
        exact h4 j e'' (by omega) (by simpa using hje)

/-- The scan is a choice of the last matching entry. -/
theorem scanTable_zipIdx (pid : Word16) (es : List PidDefinition) (i : Nat) (best : Option Nat) :
    scanTable pid es i best
      = ((((es.zipIdx i).filter fun e => decide (e.1.pid = pid)).getLast?.map Prod.snd).or best) := by
  induction es generalizing i best with
  | nil => simp [scanTable]
  | cons e es ih =>
    rw [scanTable, ih, List.zipIdx_cons, List.filter_cons]
    by_cases h : e.pid = pid
    · rw [if_pos h, if_pos (by simpa using h), List.getLast?_cons]
      cases ((es.zipIdx (i + 1)).filter fun e => decide (e.1.pid = pid)).getLast? <;> rfl
    · rw [if_neg h, if_neg (by simpa using h)]

/-- The scan of the whole table finds the last entry's index. -/
theorem scanTable_lastEntry (c : Config) (pid : Word16) :
    scanTable pid c.pidTable 0 none = (lastEntry c pid).map Prod.snd := by
  rw [scanTable_zipIdx, Option.or_none]
  rfl

theorem lastEntry_getElem {c : Config} {pid : Word16} {e : PidDefinition} {i : Nat}
    (h : lastEntry c pid = some (e, i)) : c.pidTable[i]? = some e := by
  have := List.mem_of_getLast? h
  exact List.mem_zipIdx_iff_getElem?.1 (List.mem_filter.1 this).1

end Sys2Proof.Machine
end

