-- ==== Sys2Proof/Laws/Requests.lean ====
section
/-! SUPPORT. The processing of a frame whose payload is `p`: the validator,
    the destination match and the dispatch sequence in
closed form over the bytes of `p`. -/

namespace Sys2Proof.Machine

/-! Runs of cells as slices of the payload. -/

theorem Memory.run_take (m : Memory) (i : Nat) {n k : Nat} (h : k ≤ n) :
    (Memory.run m i n).take k = Memory.run m i k := by
  induction k generalizing i n with
  | zero => rfl
  | succ k ih =>
    obtain ⟨n, rfl⟩ : ∃ j, n = j + 1 := ⟨n - 1, by omega⟩
    simp only [Memory.run, List.take_succ_cons, ih (i + 1) (show k ≤ n by omega)]

theorem Memory.run_drop (m : Memory) (i : Nat) {n k : Nat} (h : k ≤ n) :
    (Memory.run m i n).drop k = Memory.run m (i + k) (n - k) := by
  induction k generalizing i n with
  | zero => rfl
  | succ k ih =>
    obtain ⟨n, rfl⟩ : ∃ j, n = j + 1 := ⟨n - 1, by omega⟩
    simp only [Memory.run, List.drop_succ_cons, ih (i + 1) (show k ≤ n by omega)]
    congr 1 <;> omega

/-- A run of cells, cell by cell. -/
theorem Memory.run_getElem? (m : Memory) (i n k : Nat) : (Memory.run m i n)[k]? =
    if k < n then some ((Memory.read m (i+k)).getD 0) else none := by
  induction n generalizing i k with
  | zero => rfl
  | succ n ih =>
    cases k with
    | zero => rfl
    | succ k =>
      simp only [Memory.run, List.getElem?_cons_succ, ih]
      have : i + 1 + k = i + (k + 1) := by omega
      simp only [this, Nat.add_lt_add_iff_right]

/-- Writing one cell of a run sets one byte of it. -/
theorem Memory.run_write (m : Memory) (n j : Nat) (v : Byte) (h : j < n) : Memory.run
    (Memory.write m j v) 0 n = (Memory.run m 0 n).set j v := by
  apply List.ext_getElem?
  intro k
  rw [Memory.run_getElem?, List.getElem?_set, Memory.run_getElem?, Memory.run_length, Memory.read_write]
  by_cases hk : k = j
  · subst hk; simp [h]
  · simp [hk, Ne.symm hk]

/-- Changing one byte changes the sum (R169). -/
theorem checksum_set (p : List Byte) (j : Nat) (v : Byte) (h : j < p.length) : checksum
    (p.set j v) = checksum p ↔ v = p.getD j 0 := by
  have e1 : p = p.take j ++ p[j] :: p.drop (j+1) := by simp
  have e2 : p.set j v = p.take j ++ v :: p.drop
      (j+1) := List.set_eq_take_append_cons_drop .. |>.trans (if_pos h)
  have e3 : p.getD j 0 = p[j] := by simp [List.getD, h]
  rw [e3, e2]
  conv => lhs; rhs; rw [e1]
  simp only [checksum_append, checksum_cons]
  constructor
  · intro h
    have h := (BitVec.add_right_inj _).1 h
    have h := (BitVec.add_left_inj _).1 h
    apply BitVec.eq_of_toNat_eq
    have := congrArg BitVec.toNat h
    have h1 := v.isLt
    have h2 := p[j].isLt
    simp only [BitVec.toNat_setWidth] at this
    omega
  · rintro rfl; rfl

theorem bytes16_inj {a b : Word16} (h : bytes16 a = bytes16 b) : a = b := by
  simp only [bytes16, List.cons.injEq, and_true] at h
  rw [← be16_bytes16 a, ← be16_bytes16 b, h.1, h.2]

/-- `p` is the payload of the frame under processing. -/
structure Carries (s : State) (p : List Byte) : Prop where
  size  : s.val.size.toNat = p.length
  run   : Memory.run s.buf 0 p.length = p
  reads : ∀ i, i < p.length → ∃ b, Memory.read s.buf i = some b

/-- A filled payload is carried once `size` is loaded (R139). -/
theorem PayloadFilled.carries {s : State} (h : PayloadFilled s) :
    Carries { s with val.size := s.rx.len } (payloadOf s) where
  size := by simp [payloadOf]
  run := by simp [payloadOf, bytesAt]
  reads := fun i hi => h i (by simpa [payloadOf] using hi)

/-- Carrying looks at `size` and the buffer only. -/
theorem Carries.congr {s t : State} {p : List Byte} (h : Carries s p) (hv : t.val.size = s.val.size)
    (hb : t.buf = s.buf) : Carries t p :=
  ⟨by rw [hv]; exact h.size, by rw [hb]; exact h.run, by rw [hb]; exact h.reads⟩

theorem Carries.readable {s : State} {p : List Byte} (h : Carries s p) {n : Nat}
    (hn : n ≤ p.length) : Readable s n :=
  ⟨by rw [h.size]; exact hn, fun i hi => h.reads i (by omega)⟩

theorem Carries.bytesAt {s : State} {p : List Byte} (h : Carries s p) {i n : Nat}
    (hi : i + n ≤ p.length) : bytesAt s i n = (p.drop i).take n := by
  have e := h.run
  conv => rhs; rw [← e]
  rw [Memory.run_drop _ _ (by omega), Memory.run_take _ _ (by omega), Nat.zero_add]
  rfl

theorem Carries.byteAt {s : State} {p : List Byte} (h : Carries s p) {i : Nat}
    (hi : i < p.length) : byteAt s i = p.getD i 0 := by
  have e := h.bytesAt (i := i) (n := 1) (by omega)
  rw [bytesAt_succ, List.drop_eq_getElem_cons hi] at e
  simp only [Machine.bytesAt, Memory.run, List.take_succ_cons, List.cons.injEq] at e
  rw [e.1]
  simp [List.getD, hi]

/-! The validator. -/

/-- The verdict's check of R164, of a payload. -/
abbrev sumOk (p : List Byte) : Prop :=
  bytes16 (checksum (p.take (p.length - 2))) = p.drop (p.length - 2)

/-- The state after the four checks. -/
def validated (p : List Byte) (s : State) : State :=
  { s with val := { s.val with sum := checksum (p.take (p.length - 2)), verdict := .ok } }

/-- The validator rejects with the first check that fails (R160, R165). -/
theorem validatePacket_short {s : State} {p : List Byte} (h : Carries s p) (h26 : p.length < 26) :
    validatePacket s = rejectPacket .tooShort .tooShort s := by
  have e : checkSize s = rejectPacket .tooShort .tooShort s := if_pos (by rw [h.size]; exact h26)
  rw [validatePacket, e]
  rfl

theorem checkSize_go {s : State} {p : List Byte} (h : Carries s p) (h26 : 26 ≤ p.length) :
    checkSize s = .go s := if_neg (by rw [h.size]; omega)

theorem validatePacket_start {s : State} {p : List Byte} (h : Carries s p) (h26 : 26 ≤ p.length)
    (hs : p.getD 0 0 ≠ 0xCC ∨ p.getD 1 0 ≠ 0x01) :
    validatePacket s = rejectPacket .badStartCode .badStartCode s := by
  have e := checkStartCodes_eq (h.readable (n := 2) (by omega))
  rw [h.byteAt (by omega), h.byteAt (by omega), if_pos hs] at e
  rw [validatePacket, checkSize_go h h26, Flow.andThen_go, e]
  rfl

theorem checkStartCodes_go {s : State} {p : List Byte} (h : Carries s p) (h26 : 26 ≤ p.length)
    (h0 : p.getD 0 0 = 0xCC) (h1 : p.getD 1 0 = 0x01) : checkStartCodes s = .go s := by
  rw [checkStartCodes_eq (h.readable (n := 2) (by omega)), h.byteAt (by omega), h.byteAt (by omega),
    if_neg (fun hn => hn.elim (· h0) (· h1))]

theorem validatePacket_length {s : State} {p : List Byte} (h : Carries s p) (h26 : 26 ≤ p.length)
    (h0 : p.getD 0 0 = 0xCC) (h1 : p.getD 1 0 = 0x01) (hl : (p.getD 2 0).toNat + 2 ≠ p.length) :
    validatePacket s = rejectPacket .badLength .badLength s := by
  have e := checkLength_eq (h.readable (n := 3) (by omega))
  rw [h.byteAt (by omega), h.size, if_pos hl] at e
  rw [validatePacket, checkSize_go h h26, Flow.andThen_go, checkStartCodes_go h h26 h0 h1,
    Flow.andThen_go, e]
  rfl

theorem checkLength_go {s : State} {p : List Byte} (h : Carries s p) (h26 : 26 ≤ p.length)
    (hl : (p.getD 2 0).toNat + 2 = p.length) : checkLength s = .go s := by
  rw [checkLength_eq (h.readable (n := 3) (by omega)), h.byteAt (by omega), h.size,
    if_neg (fun hn => hn hl)]

/-- The checksum test as a test of the payload. -/
theorem checkChecksum_carries {s : State} {p : List Byte} (h : Carries s p) (h2 : 2 ≤ p.length) :
    checkChecksum s =
      if bytes16 (checksum (p.take (p.length - 2))) = p.drop (p.length - 2) then
        .go { s with val.sum := checksum (p.take (p.length - 2)) }
      else rejectPacket .badChecksum .badChecksum
        { s with val.sum := checksum (p.take (p.length - 2)) } := by
  have e := checkChecksum_eq (s := s) (n := p.length - 2) (by rw [h.size]; omega)
    (h.readable (by omega))
  have et : Machine.bytesAt s 0 (p.length - 2) = p.take (p.length - 2) := by
    rw [h.bytesAt (by omega)]; rfl
  have ed : [Machine.byteAt s (p.length - 2), Machine.byteAt s (p.length - 2 + 1)]
      = p.drop (p.length - 2) := by
    have hb := h.bytesAt (i := p.length - 2) (n := 2) (by omega)
    rw [List.take_of_length_le (by simp; omega)] at hb
    exact hb
  rwa [et, ed] at e

theorem validatePacket_checksum {s : State} {p : List Byte} (h : Carries s p) (h26 : 26 ≤ p.length)
    (h0 : p.getD 0 0 = 0xCC) (h1 : p.getD 1 0 = 0x01) (hl : (p.getD 2 0).toNat + 2 = p.length)
    (hc : ¬ sumOk p) :
    validatePacket s = rejectPacket .badChecksum .badChecksum
      { s with val.sum := checksum (p.take (p.length - 2)) } := by
  rw [validatePacket, checkSize_go h h26, Flow.andThen_go, checkStartCodes_go h h26 h0 h1,
    Flow.andThen_go, checkLength_go h h26 hl, Flow.andThen_go, checkChecksum_carries h (by omega),
    if_neg hc]
  rfl

theorem validatePacket_go {s : State} {p : List Byte} (h : Carries s p) (h26 : 26 ≤ p.length)
    (h0 : p.getD 0 0 = 0xCC) (h1 : p.getD 1 0 = 0x01) (hl : (p.getD 2 0).toNat + 2 = p.length)
    (hc : sumOk p) : validatePacket s = .go (validated p s) := by
  rw [validatePacket, checkSize_go h h26, Flow.andThen_go, checkStartCodes_go h h26 h0 h1,
    Flow.andThen_go, checkLength_go h h26 hl, Flow.andThen_go, checkChecksum_carries h (by omega),
    if_pos hc]
  rfl

/-! Another transaction number. -/

theorem retagged_length (tn : Byte) {p : List Byte} (h : 2 ≤ p.length) : (retagged tn p).length = p.length := by
  simp [retagged]; omega

/-- Before the checksum only byte 15 differs. -/
theorem retagged_getD (tn : Byte) {p : List Byte} {i : Nat} (hi : i + 2 < p.length) :
    (retagged tn p).getD i 0 = if i = 15 then tn else p.getD i 0 := by
  have h1 : i < ((p.take (p.length - 2)).set 15 tn).length := by simp; omega
  simp only [retagged, List.getD_eq_getElem?_getD, List.getElem?_append_left h1, List.getElem?_set,
    List.getElem?_take]
  have h2 : i < p.length - 2 := by omega
  by_cases h : i = 15
  · subst h
    simp only [List.length_take, if_true]
    rw [if_pos (by omega)]
    rfl
  · rw [if_neg (fun e => h e.symm), if_pos h2, if_neg h]

/-- The checksum is that of the changed packet (R164). -/
theorem retagged_sumOk (tn : Byte) {p : List Byte} (h : 2 ≤ p.length) : sumOk (retagged tn p) := by
  unfold sumOk
  rw [retagged_length tn h]
  have hl : ((p.take (p.length - 2)).set 15 tn).length = p.length - 2 := by simp
  simp only [retagged]
  rw [List.take_left' hl, List.drop_left' hl]

/-! The destination match. -/

/-- The broadcast test of R166, of a payload. -/
def broadcastOf (p : List Byte) : Bool :=
  decide (p.getD 5 0 = 0xFF ∧ p.getD 6 0 = 0xFF ∧ p.getD 7 0 = 0xFF ∧ p.getD 8 0 = 0xFF)

/-- The destination test of R167, of a payload. -/
def namesUs (st : SettingsStore) (p : List Byte) : Bool :=
  decide ([p.getD 3 0, p.getD 4 0, p.getD 5 0, p.getD 6 0, p.getD 7 0, p.getD 8 0]
    = bytes16 st.estaId ++ bytes32 st.serialNumber)

/-- The state after the destination match. -/
def matched (p : List Byte) (s : State) : State :=
  { s with val := { s.val with
      isBroadcast := broadcastOf p, toUs := broadcastOf p || namesUs s.store p } }

/-- Broadcast detection and destination match of a payload (R166, R167). -/
theorem match_eq {s : State} {p : List Byte} (h : Carries s p) (h9 : 9 ≤ p.length) :
    (broadcastDetection s).andThen destinationMatch = .go (matched p s) := by
  have e := broadcastDetection_eq (h.readable h9)
  rw [h.byteAt (by omega), h.byteAt (by omega), h.byteAt (by omega), h.byteAt (by omega)] at e
  have h' : Carries { s with val.isBroadcast := broadcastOf p } p := h.congr rfl rfl
  have d := destinationMatch_eq (h'.readable h9)
  have b : Machine.bytesAt { s with val.isBroadcast := broadcastOf p } 3 6
      = [p.getD 3 0, p.getD 4 0, p.getD 5 0, p.getD 6 0, p.getD 7 0, p.getD 8 0] := by
    rw [← h'.byteAt (i := 3) (by omega), ← h'.byteAt (i := 4) (by omega),
      ← h'.byteAt (i := 5) (by omega), ← h'.byteAt (i := 6) (by omega),
      ← h'.byteAt (i := 7) (by omega), ← h'.byteAt (i := 8) (by omega)]
    rfl
  rw [b] at d
  exact (congrArg (fun f => Flow.andThen f destinationMatch) e).trans d

/-- The state in which an screened frame reaches the dispatcher. -/
def screened (p : List Byte) (s : State) : State := matched p (validated p s)

theorem screened_toUs {p : List Byte} {s : State} :
    (screened p s).val.toUs = (broadcastOf p || namesUs s.store p) := rfl

theorem screenFrame_reject {s : State} {v : Verdict} {k : StatusKind} {u : State}
    (h : validatePacket s = rejectPacket v k u) : screenFrame s = rejectPacket v k u := by
  rw [screenFrame, h]
  rfl

theorem screenFrame_of_valid {s : State} {p : List Byte} (h : Carries s p) (h9 : 9 ≤ p.length)
    (hv : validatePacket s = .go (validated p s)) :
    screenFrame s = destinationReject (screened p s) := by
  have h' : Carries (validated p s) p := h.congr rfl rfl
  rw [screenFrame, hv, Flow.andThen_go, match_eq h' h9]
  rfl

/-- A packet that passes the four checks and is to us is screened. -/
theorem screenFrame_go {s : State} {p : List Byte} (h : Carries s p) (h9 : 9 ≤ p.length)
    (hv : validatePacket s = .go (validated p s)) (hu : (broadcastOf p || namesUs s.store p) = true) :
    screenFrame s = .go (screened p s) := by
  rw [screenFrame_of_valid h h9 hv, destinationReject, screened_toUs, hu]
  rfl

theorem screenFrame_stranger {s : State} {p : List Byte} (h : Carries s p) (h9 : 9 ≤ p.length)
    (hv : validatePacket s = .go (validated p s)) (hu : (broadcastOf p || namesUs s.store p) = false) :
    screenFrame s = raiseStatus .wrongDestination (screened p s) := by
  rw [screenFrame_of_valid h h9 hv, destinationReject, screened_toUs, hu]
  rfl

/-! The dispatch sequence. -/

/-- The `ResponseContext` of a request (R30). -/
def contextFrom (p : List Byte) (bcast : Bool) : ResponseContext where
  dst := be48 (p.getD 9 0) (p.getD 10 0) (p.getD 11 0) (p.getD 12 0) (p.getD 13 0) (p.getD 14 0)
  tn := p.getD 15 0
  sub := be16 (p.getD 18 0) (p.getD 19 0)
  cc := respCc (p.getD 20 0)
  pid := be16 (p.getD 21 0) (p.getD 22 0)
  bcast := bcast

theorem contextOf_carries {s : State} {p : List Byte} (h : Carries s p) (h23 : 23 ≤ p.length) :
    contextOf s = contextFrom p s.val.isBroadcast := by
  unfold contextOf contextFrom
  rw [h.byteAt (i := 9) (by omega), h.byteAt (i := 10) (by omega), h.byteAt (i := 11) (by omega),
    h.byteAt (i := 12) (by omega), h.byteAt (i := 13) (by omega), h.byteAt (i := 14) (by omega),
    h.byteAt (i := 15) (by omega), h.byteAt (i := 18) (by omega), h.byteAt (i := 19) (by omega),
    h.byteAt (i := 20) (by omega), h.byteAt (i := 21) (by omega), h.byteAt (i := 22) (by omega)]

/-- The state with the `ResponseContext` of the request. -/
def contexted (p : List Byte) (s : State) : State :=
  { s with ctx := contextFrom p s.val.isBroadcast }

theorem dispatch_carries {s : State} {p : List Byte} (h : Carries s p) (h23 : 23 ≤ p.length) :
    dispatch s = dispatchLoaded (contexted p s) := by
  rw [dispatch_eq, loadContext_eq (h.readable h23), contextOf_carries h h23, Flow.andThen_go]
  rfl

/-- The sub-device and the PID of a request. -/
def subOf (p : List Byte) : Word16 := be16 (p.getD 18 0) (p.getD 19 0)
/-- See `subOf`. -/
def pidOf (p : List Byte) : Word16 := be16 (p.getD 21 0) (p.getD 22 0)

theorem dispatchLoaded_class {s : State} {p : List Byte} (h : Carries s p) (h24 : 24 ≤ p.length)
    (hc : p.getD 20 0 ≠ 0x20 ∧ p.getD 20 0 ≠ 0x30) :
    dispatchLoaded s = raiseStatus .invalidCommandClass { s with disp.cc := p.getD 20 0 } := by
  have e := ccCheck_eq (h.readable (n := 21) (by omega))
  rw [h.byteAt (by omega), if_pos hc] at e
  rw [dispatchLoaded, e]
  rfl

theorem ccCheck_go {s : State} {p : List Byte} (h : Carries s p) (h24 : 24 ≤ p.length)
    (hc : ¬ (p.getD 20 0 ≠ 0x20 ∧ p.getD 20 0 ≠ 0x30)) :
    ccCheck s = .go { s with disp.cc := p.getD 20 0 } := by
  rw [ccCheck_eq (h.readable (n := 21) (by omega)), h.byteAt (by omega), if_neg hc]

/-- The dispatcher's registers after the class and the sub-device are read. -/
def classed (p : List Byte) (s : State) : State :=
  { s with disp := { s.disp with cc := p.getD 20 0, sub := subOf p } }

theorem dispatchLoaded_sub {s : State} {p : List Byte} (h : Carries s p) (h24 : 24 ≤ p.length)
    (hc : ¬ (p.getD 20 0 ≠ 0x20 ∧ p.getD 20 0 ≠ 0x30)) (hs : subOf p ≠ 0x0000 ∧ subOf p ≠ 0xFFFF) :
    dispatchLoaded s = .stop (nackOrSilent s.val.isBroadcast subDeviceReason (classed p s)) := by
  have h' : Carries { s with disp.cc := p.getD 20 0 } p := h.congr rfl rfl
  have e := subDeviceRange_eq (h'.readable (n := 20) (by omega))
  rw [h'.byteAt (by omega), h'.byteAt (by omega)] at e
  have e := e.trans (if_pos hs)
  rw [dispatchLoaded, ccCheck_go h h24 hc, Flow.andThen_go, e]
  rfl

/-- With a class and a sub-device in range the sequence comes to the lookup. -/
theorem dispatchLoaded_lookup {s : State} {p : List Byte} (h : Carries s p) (h24 : 24 ≤ p.length)
    (hc : ¬ (p.getD 20 0 ≠ 0x20 ∧ p.getD 20 0 ≠ 0x30))
    (hs : ¬ (subOf p ≠ 0x0000 ∧ subOf p ≠ 0xFFFF)) :
    dispatchLoaded s = ((pidLookup (classed p s)).andThen unknownPid).andThen fun t =>
      if t.disp.cc = 0x20 then getPath t else setPath t := by
  have h' : Carries { s with disp.cc := p.getD 20 0 } p := h.congr rfl rfl
  have e := subDeviceRange_eq (h'.readable (n := 20) (by omega))
  rw [h'.byteAt (by omega), h'.byteAt (by omega)] at e
  have e := e.trans (if_neg hs)
  rw [dispatchLoaded, ccCheck_go h h24 hc, Flow.andThen_go, e, Flow.andThen_go]
  rfl

/-- The dispatcher's registers after a lookup that found nothing. -/
def unfound (p : List Byte) (s : State) : State :=
  { classed p s with disp := { (classed p s).disp with pid := pidOf p, found := false } }

/-- The dispatcher's registers after a lookup that found entry `i`. -/
def found (p : List Byte) (i : Nat) (s : State) : State :=
  { classed p s with disp := { (classed p s).disp with pid := pidOf p, found := true, idx := i } }

theorem pidLookup_carries {s : State} {p : List Byte} (h : Carries s p) (h24 : 24 ≤ p.length) :
    pidLookup (classed p s) =
      match lastEntry s.cfg (pidOf p) with
      | some (_, i) => .go (found p i s)
      | none => .go (unfound p s) := by
  have h' : Carries (classed p s) p := h.congr rfl rfl
  have e := pidLookup_eq (h'.readable (n := 23) (by omega))
  rw [h'.byteAt (by omega), h'.byteAt (by omega), scanTable_lastEntry] at e
  have ep : be16 (p.getD 21 0) (p.getD 22 0) = pidOf p := rfl
  have ec : (classed p s).cfg = s.cfg := rfl
  rw [ep, ec] at e
  rw [e]
  cases lastEntry s.cfg (pidOf p) <;> rfl

theorem dispatchLoaded_unknown {s : State} {p : List Byte} (h : Carries s p) (h24 : 24 ≤ p.length)
    (hc : ¬ (p.getD 20 0 ≠ 0x20 ∧ p.getD 20 0 ≠ 0x30))
    (hs : ¬ (subOf p ≠ 0x0000 ∧ subOf p ≠ 0xFFFF)) (hn : lastEntry s.cfg (pidOf p) = none) :
    dispatchLoaded s = .stop (nackOrSilent s.val.isBroadcast unknownPidReason (unfound p s)) := by
  rw [dispatchLoaded_lookup h h24 hc hs, pidLookup_carries h h24, hn]
  rfl

theorem dispatchLoaded_found {s : State} {p : List Byte} (h : Carries s p) (h24 : 24 ≤ p.length)
    (hc : ¬ (p.getD 20 0 ≠ 0x20 ∧ p.getD 20 0 ≠ 0x30))
    (hs : ¬ (subOf p ≠ 0x0000 ∧ subOf p ≠ 0xFFFF)) {e : PidDefinition} {i : Nat}
    (he : lastEntry s.cfg (pidOf p) = some (e, i)) :
    dispatchLoaded s
      = if p.getD 20 0 = 0x20 then getPath (found p i s) else setPath (found p i s) := by
  rw [dispatchLoaded_lookup h h24 hc hs, pidLookup_carries h h24, he]
  rfl

/-! The class paths, for the entry the lookup found. -/

theorem tableEntry_eq {c : Config} {i : Nat} {e : PidDefinition} (h : c.pidTable[i]? = some e) :
    tableEntry c i = .ok e := by
  simp [tableEntry, h]

theorem getNoHandler_eq {s : State} {e : PidDefinition} (he : tableEntry s.cfg s.disp.idx = .ok e) :
    getNoHandler s =
      if e.get.isSome then .go s
      else .stop (nackOrSilent s.val.isBroadcast unsupportedClassReason s) := by
  simp only [getNoHandler, he, Flow.withRead_ok]

theorem setNoHandler_eq {s : State} {e : PidDefinition} (he : tableEntry s.cfg s.disp.idx = .ok e) :
    setNoHandler s =
      if e.set.isSome then .go s
      else .stop (nackOrSilent s.val.isBroadcast unsupportedClassReason s) := by
  simp only [setNoHandler, he, Flow.withRead_ok]

theorem getArgSize_eq {s : State} {e : PidDefinition} (he : tableEntry s.cfg s.disp.idx = .ok e)
    (hr : Readable s 24) :
    getArgSize s =
      if byteAt s 23 ≠ e.getArgLen then
        .stop (nack formatErrorReason { s with disp.pdl := byteAt s 23 })
      else .go { s with disp.pdl := byteAt s 23 } := by
  simp only [getArgSize, he, Flow.withRead_ok, readByte_eq hr (i := 23) (by omega)]

theorem getInvoke_eq {s : State} {e : PidDefinition} {b : GetBehaviour}
    (he : tableEntry s.cfg s.disp.idx = .ok e) (hb : e.get = some b) :
    getInvoke s = .stop (andThen
      (runGet b { s with trace.handlerLog := s.trace.handlerLog ++ [.get s.disp.idx] })
      handlerReturn) := by
  simp only [getInvoke, he, Flow.withRead_ok, hb]

theorem setInvoke_eq {s : State} {e : PidDefinition} {b : SetBehaviour}
    (he : tableEntry s.cfg s.disp.idx = .ok e) (hb : e.set = some b) :
    setInvoke s = .stop (andThen
      (runSet b s.val.isBroadcast
        { s with trace.handlerLog := s.trace.handlerLog ++ [.set s.disp.idx s.val.isBroadcast] })
      handlerReturn) := by
  simp only [setInvoke, he, Flow.withRead_ok, hb]

/-- The GET path stops at the first refusal, or invokes (R185 to R189). -/
theorem getPath_eq {s : State} {e : PidDefinition} (he : tableEntry s.cfg s.disp.idx = .ok e)
    (hr : Readable s 24) :
    getPath s =
      if e.get.isSome = false then
        .stop (nackOrSilent s.val.isBroadcast unsupportedClassReason s)
      else if s.val.isBroadcast then .stop (takeStatus .broadcastNoReply s)
      else if s.disp.sub ≠ 0x0000 then .stop (nack subDeviceReason s)
      else if byteAt s 23 ≠ e.getArgLen then
        .stop (nack formatErrorReason { s with disp.pdl := byteAt s 23 })
      else getInvoke { s with disp.pdl := byteAt s 23 } := by
  rw [getPath, getNoHandler_eq he]
  by_cases h1 : e.get.isSome = true
  · rw [if_pos h1, if_neg (by simp [h1]), Flow.andThen_go, getBroadcast]
    by_cases h2 : s.val.isBroadcast = true
    · rw [if_pos h2, if_pos h2]; rfl
    · rw [if_neg h2, if_neg h2, Flow.andThen_go, getSubDevice]
      by_cases h3 : s.disp.sub ≠ 0x0000
      · rw [if_pos h3, if_pos h3]; rfl
      · rw [if_neg h3, if_neg h3, Flow.andThen_go, getArgSize_eq he hr]
        by_cases h4 : byteAt s 23 ≠ e.getArgLen
        · rw [if_pos h4, if_pos h4]; rfl
        · rw [if_neg h4, if_neg h4, Flow.andThen_go]
  · rw [if_neg h1, if_pos (by simpa using h1)]; rfl

/-- The SET path refuses, or invokes (R190, R191). -/
theorem setPath_eq {s : State} {e : PidDefinition} (he : tableEntry s.cfg s.disp.idx = .ok e) :
    setPath s =
      if e.set.isSome = false then
        .stop (nackOrSilent s.val.isBroadcast unsupportedClassReason s)
      else setInvoke s := by
  rw [setPath, setNoHandler_eq he]
  by_cases h1 : e.set.isSome = true
  · rw [if_pos h1, if_neg (by simp [h1]), Flow.andThen_go]
  · rw [if_neg h1, if_pos (by simpa using h1)]; rfl

/-! Whole frames. -/

/-- A frame that ends in a state with an outcome is processed to that state. -/
theorem processFrame_stop {s t : State}
    (h : (screenFrame { s with val.size := s.rx.len }).andThen dispatch = .stop (.next t))
    (ho : outcomeReached t = true) : processFrame s = .next t := by
  rw [processFrame_eq, h, Flow.out_stop, andThen_next, if_pos ho]

end Sys2Proof.Machine
end

