-- ==== Sys2Proof/Laws/Complete.lean ====
section
/-! SUPPORT. Handlers that keep the contract: from a ready encoder each one comes to an outcome. -/

namespace Sys2Proof.Machine

/-- Sending values in order is sending their bytes in order. -/
theorem putInts_eq (vs : List Word16) (s : State) (hb : s.enc.busy = true)
    (hr : 2 * vs.length ≤ s.enc.remaining.toNat) :
    putInts vs s = putBytes (vs.flatMap bytes16) s := by
  induction vs generalizing s with
  | nil => rfl
  | cons v vs ih =>
    simp only [List.length_cons] at hr
    rw [putInts, putInt_eq_putBytes v s hb (by omega)]
    have h2 : putBytes (bytes16 v) s = .next (filled (bytes16 v) s) := putBytes_eq _ _ hb
        (by simp; omega)
    have h3 : putBytes ((v :: vs).flatMap bytes16) s = andThen (putBytes (bytes16 v) s) (putBytes
        (vs.flatMap bytes16)) := by
      simp only [List.flatMap_cons, bytes16, List.cons_append, List.nil_append, putBytes, andThen_assoc]
      cases putByte (hiByte v) s <;> simp
    rw [h3, h2, andThen_next, andThen_next, ih]
    · simp [filled, hb]
    · simp [filled]
      have := s.enc.remaining.isLt
      simp
      omega

theorem flatMap_bytes16_length (vs : List Word16) : (vs.flatMap bytes16).length = 2 * vs.length := by
  induction vs with
  | nil => rfl
  | cons v vs ih =>
    simp only [List.flatMap_cons, List.length_append, ih, bytes16_length, List.length_cons]
    omega

/-- The end of a SET in closed form (R198). -/
theorem setDone_eq (s : State) (wb : Bool) (r : Ready s) (hc : s.ctx.bcast = wb) :
   setDone wb s = .next (if wb then withStatus .broadcastNoReply s else answered 0 [] s) := by
  cases wb
  · exact emptyAck_eq s (openFault_eq_none r.1 r.2 hc (by omega))
  · simp only [setDone, if_true]
    rw [show reportKind .broadcastNoReply s = takeStatus .broadcastNoReply s by simp [reportKind, hc]]
    exact takeStatus_eq _ _ r.1 r.2

/-- An operation that ends in a state with an outcome. -/
def Completes (o : Out) : Prop := ∃ t, o = .next t ∧ outcomeReached t = true

theorem sendReply_completes {rt cc : Byte} {pid : Word16} {data : List Byte} {s : State}
    (r : Ready s) (hc : s.ctx.bcast = false) (hl : data.length ≤ 231) :
   Completes (sendReply rt cc pid data s) := ⟨_, sendReply_eq _ _ _ _ _
       (openFault_eq_none r.1 r.2 hc hl), rfl⟩
theorem nack_completes {x : Word16} {s : State} (r : Ready s) (hc : s.ctx.bcast = false) :
   Completes (nack x s) := ⟨_, nack_eq _ _ (openFault_eq_none r.1 r.2 hc (by decide)), rfl⟩
theorem emptyAck_completes {s : State} (r : Ready s) (hc : s.ctx.bcast = false) :
   Completes (emptyAck s) := ⟨_, emptyAck_eq _ (openFault_eq_none r.1 r.2 hc (by decide)), rfl⟩
theorem takeStatus_completes {k} {s : State} (r : Ready s) : Completes (takeStatus k s) :=
  ⟨_, takeStatus_eq _ _ r.1 r.2, by simp [outcomeReached, r.1]⟩
theorem reportKind_completes {s : State} (r : Ready s) (hc : s.ctx.bcast = true) : Completes
    (reportKind .broadcastNoReply s) := by
  simpa [reportKind, hc] using takeStatus_completes r
theorem nackOrSilent_completes {wb : Bool} {x : Word16} {s : State} (r : Ready s)
    (hc : s.ctx.bcast = wb) : Completes (nackOrSilent wb x s) := by
  cases wb
  · exact nack_completes r hc
  · exact reportKind_completes r hc
theorem setDone_completes {wb : Bool} {s : State} (r : Ready s) (hc : s.ctx.bcast =
    wb) : Completes (setDone wb s) := by
  cases wb
  · exact emptyAck_completes r hc
  · exact reportKind_completes r hc

theorem fieldReply_length (f v a w) : (fieldReply f v a w).length ≤ 231 := by
  unfold fieldReply; split <;> exact List.length_take_le _ _
/-- The supported-parameters reply in closed form (R252). -/
theorem supportedParametersGet_eq {s : State} (r : Ready s) (hb : s.ctx.bcast = false)
    (hi : (includedPids s.cfg).length ≤ 115) :
    supportedParametersGet s = .next (answered 0 ((includedPids s.cfg).flatMap bytes16) s) := by
  have hl := flatMap_bytes16_length (includedPids s.cfg)
  have hf := openFault_eq_none (pdl := 2 * (includedPids s.cfg).length) r.1 r.2 hb (by omega)
  have e := sendReply_eq 0 s.ctx.cc s.ctx.pid ((includedPids s.cfg).flatMap bytes16) s
      (by rw [hl]; exact hf)
  rw [answered, ← e]
  simp only [supportedParametersGet, sendReply, startReply, hl, openReply_eq, rtAckCode, hf,
      unlessFault_none,
    andThen_next]
  rw [putInts_eq]
  · rfl
  · rfl
  · have : (2 * (includedPids s.cfg).length) % 512 = 2 * (includedPids s.cfg).length := by omega
    simp [opened, BitVec.toNat_ofNat, this]

/-- A handler may read any declared parameter of a request that carries them (R66, R195). -/
theorem requestRead_ok {s : State} (hr : Readable s 24) (hr2 : Readable s (24 + (byteAt s 23).toNat))
    (hs : 26 + (byteAt s 23).toNat ≤ s.val.size.toNat) (reads : Request → Nat) (wb : Bool) :
    ∃ r, requestRead reads wb s = .ok r := by
  have e23 := readByte_eq hr (i := 23) (by omega)
  have eh := readRun_eq hr 0 24 (by omega)
  have ep : ∀ n, n ≤ (byteAt s 23).toNat → readParams s (byteAt s 23) 0 n = .ok (bytesAt s 24 n) := fun n hn =>
    readParams_eq hr2 0 n (by omega) (by omega) (by omega)
  have e : ∃ r, requestOf wb s = .ok r := by
    simp only [requestOf, eh, e23, ep _ (Nat.min_le_left _ _)]
    exact ⟨_, rfl⟩
  obtain ⟨r, e⟩ := e
  simp only [requestRead, e, e23, ep _ (Nat.min_le_right _ _)]
  exact ⟨_, rfl⟩

/-- So may a GET handler. -/
theorem getRequest_ok {s : State} (hr : Readable s 24) (hr2 : Readable s (24 + (byteAt s 23).toNat))
    (hs : 26 + (byteAt s 23).toNat ≤ s.val.size.toNat) (reads : Request → Nat) :
    ∃ r, getRequest reads s = .ok r := by
  obtain ⟨r, e⟩ := requestRead_ok hr hr2 hs (fun r => reads (untagged r)) false
  exact ⟨untagged r, by simp only [getRequest, e]⟩

/-- A lawful GET comes to an outcome, if the request carries the bytes it declares (R196, R66). -/
theorem runGet_completes {b : GetBehaviour} {s : State} (hb : lawfulGet b = true) (r : Ready s)
    (hc : s.ctx.bcast = false)
   (hr : Readable s 24) (hr2 : Readable s (24 + (byteAt s 23).toNat))
   (hs : 26 + (byteAt s 23).toNat ≤ s.val.size.toNat) (hi : (includedPids s.cfg).length ≤ 115) :
   Completes (runGet b s) := by
  have hq := getRequest_ok hr hr2 hs
  cases b with
  | supportedParameters =>
    exact ⟨_, supportedParametersGet_eq r hc hi, rfl⟩
  | queuedMessage =>
    simp only [runGet, queuedMessageGet]
    split
    · exact sendReply_completes r hc (by simp)
    · exact sendReply_completes r hc (by simp)
  | readField f w =>
    obtain ⟨q, hq⟩ := hq (Config.fieldGetReads f)
    simp only [runGet, fieldGet, readByte_eq hr (i := 23) (by omega), hq, withRead_ok]
    split
    · exact sendReply_completes r hc (fieldReply_length _ _ _ _)
    · split
      · exact nack_completes r hc
      · exact sendReply_completes r hc (fieldReply_length _ _ _ _)
  | other id =>
    obtain ⟨q, hq⟩ := hq (Config.otherGetReads id)
    simp only [runGet, otherGet, hq, withRead_ok]
    split
    · exact sendReply_completes r hc (List.length_take_le _ _)
    · exact nack_completes r hc
  | script c => simp [lawfulGet] at hb
  | agent id => simp [lawfulGet] at hb

/-- A lawful SET comes to an outcome, if the request carries the bytes it declares (R196, R66). -/
theorem runSet_completes {b : SetBehaviour} {s : State} {wb : Bool} (hb : lawfulSet b = true)
    (r : Ready s) (hc : s.ctx.bcast = wb)
   (hr : Readable s 24) (hr2 : Readable s (24 + (byteAt s 23).toNat)) (hs : 26 +
       (byteAt s 23).toNat ≤ s.val.size.toNat) : Completes (runSet b wb s) := by
  have e23 := readByte_eq hr (i := 23) (by omega)
  cases b with
  | deviceLabel =>
    simp only [runSet, deviceLabelSet, e23, withRead_ok]
    split
    · exact nackOrSilent_completes r hc
    · rw [readParams_eq hr2 0 _ (by omega) (by omega) (by omega), withRead_ok]
      split
      · rename_i h; rw [h] at hc; exact reportKind_completes r hc
      · rename_i h; simp only [Bool.not_eq_true] at h; rw [h] at hc
        have := fun st => ackTimer_eq s.cfg.labelAckDelay { s with store := st }
            (openFault_eq_none r.1 r.2 hc (by decide))
        rw [this, andThen_next]
        exact ⟨_, rfl, rfl⟩
  | startAddress =>
    simp only [runSet, startAddressSet, e23, withRead_ok]
    split
    · exact nackOrSilent_completes r hc
    · rename_i h
      simp only [ne_eq, Decidable.not_not] at h
      have h2 : (byteAt s 23).toNat = 2 := by rw [h]; rfl
      rw [readParam_eq hr2 (by omega) (by omega) (by omega), readParam_eq hr2 (by omega)
          (by omega) (by omega), withRead_ok, withRead_ok]
      split
      · exact nackOrSilent_completes r hc
      · exact setDone_completes r hc
  | serialNumber =>
    simp only [runSet, serialNumberSet, e23, withRead_ok]
    split
    · exact nackOrSilent_completes r hc
    · rename_i h
      simp only [ne_eq, Decidable.not_not] at h
      have h2 : (byteAt s 23).toNat = 4 := by rw [h]; rfl
      rw [readParam_eq hr2 (by omega) (by omega) (by omega), readParam_eq hr2 (by omega)
          (by omega) (by omega), readParam_eq hr2 (by omega) (by omega) (by omega),
          readParam_eq hr2 (by omega) (by omega) (by omega)]
      simp only [withRead_ok]
      split
      · exact nackOrSilent_completes r hc
      · exact setDone_completes r hc
  | writeField f =>
    obtain ⟨q, hq⟩ := requestRead_ok hr hr2 hs (Config.fieldSetReads f) wb
    simp only [runSet, fieldSet, hq, withRead_ok]
    split
    · exact nackOrSilent_completes r hc
    · exact nackOrSilent_completes r hc
    · apply setDone_completes
      · cases f <;> exact r
      · cases f <;> exact hc
  | other id =>
    obtain ⟨q, hq⟩ := requestRead_ok hr hr2 hs (Config.otherSetReads id) wb
    simp only [runSet, otherSet, hq, withRead_ok]
    split
    · exact nackOrSilent_completes r hc
    · exact nackOrSilent_completes r hc
    · exact setDone_completes r hc
  | script c => simp [lawfulSet] at hb
  | agent id => simp [lawfulSet] at hb

end Sys2Proof.Machine
end

