-- ==== Sys2Proof/Laws/PerInstr.lean ====
section
/-! SUPPORT. A per-instruction family: the word of a well-formed instruction has a length its format allows. -/

namespace Sys2Proof.Laws

/-- The shortest and the longest word of a format, in bytes (R90, R97, R98, R99 to R106, R111; logs 3, 19, 20). -/
def WordLength.bounds : Format → Nat × Nat
  | .rxEvent | .nackReason => (2, 2)
  | .rdmRequest | .rdmRequestPending | .rdmRequestNotPending => (3, 3)
  | .statusFrame => (7, 7)
  | .outerFrame => (5, 65540)
  | .replyFrame => (32, 263)
  | .handlerPort => (1, 6)
  | .frameMarker | .outerLabel | .outerLabelDefault | .rdmStartCode | .rdmSubStartCode | .validatorCheck
  | .rdmCommandClass | .dispatchStep | .rdmResponseType | .statusCode | .pipeline => (1, 1)

/-- The word's length lies within its format's bounds. -/
def WordLength.Statement (i : Instr) : Prop :=
  i.WellFormed →
    (WordLength.bounds i.format).1 ≤ (encode i).length ∧ (encode i).length ≤ (WordLength.bounds i.format).2

namespace WordLength

theorem rxEmpty : Statement .rxEmpty :=
  fun _ => ⟨Nat.le_of_ble_eq_true rfl, Nat.le_of_ble_eq_true rfl⟩

theorem rxPreStart (b : Byte) : Statement (.rxPreStart b) :=
  fun _ => ⟨Nat.le_of_ble_eq_true rfl, Nat.le_of_ble_eq_true rfl⟩

theorem rxGotStart (b : Byte) : Statement (.rxGotStart b) :=
  fun _ => ⟨Nat.le_of_ble_eq_true rfl, Nat.le_of_ble_eq_true rfl⟩

theorem rxGotLabel (b : Byte) : Statement (.rxGotLabel b) :=
  fun _ => ⟨Nat.le_of_ble_eq_true rfl, Nat.le_of_ble_eq_true rfl⟩

theorem rxGotLengthLow (b : Byte) : Statement (.rxGotLengthLow b) :=
  fun _ => ⟨Nat.le_of_ble_eq_true rfl, Nat.le_of_ble_eq_true rfl⟩

theorem rxInPayload (b : Byte) : Statement (.rxInPayload b) :=
  fun _ => ⟨Nat.le_of_ble_eq_true rfl, Nat.le_of_ble_eq_true rfl⟩

theorem rxAwaitingEnd (b : Byte) : Statement (.rxAwaitingEnd b) :=
  fun _ => ⟨Nat.le_of_ble_eq_true rfl, Nat.le_of_ble_eq_true rfl⟩

theorem som : Statement .som :=
  fun _ => ⟨Nat.le_of_ble_eq_true rfl, Nat.le_of_ble_eq_true rfl⟩

theorem eom : Statement .eom :=
  fun _ => ⟨Nat.le_of_ble_eq_true rfl, Nat.le_of_ble_eq_true rfl⟩

theorem labelParameters : Statement .labelParameters :=
  fun _ => ⟨Nat.le_of_ble_eq_true rfl, Nat.le_of_ble_eq_true rfl⟩

theorem labelDmxData : Statement .labelDmxData :=
  fun _ => ⟨Nat.le_of_ble_eq_true rfl, Nat.le_of_ble_eq_true rfl⟩

theorem labelSerialNumber : Statement .labelSerialNumber :=
  fun _ => ⟨Nat.le_of_ble_eq_true rfl, Nat.le_of_ble_eq_true rfl⟩

theorem labelManufacturer : Statement .labelManufacturer :=
  fun _ => ⟨Nat.le_of_ble_eq_true rfl, Nat.le_of_ble_eq_true rfl⟩

theorem labelName : Statement .labelName :=
  fun _ => ⟨Nat.le_of_ble_eq_true rfl, Nat.le_of_ble_eq_true rfl⟩

theorem labelRdm : Statement .labelRdm :=
  fun _ => ⟨Nat.le_of_ble_eq_true rfl, Nat.le_of_ble_eq_true rfl⟩

theorem encode (label : Byte) (payload : List Byte) : Statement (.encode label payload) := by
  intro h
  have h : payload.length ≤ 65535 := by simpa [Instr.WellFormed, Instr.wellFormed] using h
  simp only [bounds, Instr.format, Sys2Proof.encode, frameBytes, frameHeader, List.length_append, List.length_cons,
    List.length_nil]
  omega

theorem status (k : StatusKind) : Statement (.status k) := by
  intro _
  cases k <;> exact ⟨Nat.le_of_ble_eq_true rfl, Nat.le_of_ble_eq_true rfl⟩

theorem reply (f : ReplyFields) : Statement (.reply f) := by
  intro h
  have h : f.data.length ≤ 231 := by simpa [Instr.WellFormed, Instr.wellFormed] using h
  simp only [bounds, Instr.format, Sys2Proof.encode, replyFrameBytes, packetBytes, packetBody, packetHeader, frameBytes, frameHeader,
    bytes48, bytes16, List.length_append, List.length_cons, List.length_nil]
  omega

theorem rdmSc : Statement .rdmSc :=
  fun _ => ⟨Nat.le_of_ble_eq_true rfl, Nat.le_of_ble_eq_true rfl⟩

theorem rdmSubSc : Statement .rdmSubSc :=
  fun _ => ⟨Nat.le_of_ble_eq_true rfl, Nat.le_of_ble_eq_true rfl⟩

theorem validateSize : Statement .validateSize :=
  fun _ => ⟨Nat.le_of_ble_eq_true rfl, Nat.le_of_ble_eq_true rfl⟩

theorem validateStartCodes : Statement .validateStartCodes :=
  fun _ => ⟨Nat.le_of_ble_eq_true rfl, Nat.le_of_ble_eq_true rfl⟩

theorem validateLength : Statement .validateLength :=
  fun _ => ⟨Nat.le_of_ble_eq_true rfl, Nat.le_of_ble_eq_true rfl⟩

theorem validateChecksum : Statement .validateChecksum :=
  fun _ => ⟨Nat.le_of_ble_eq_true rfl, Nat.le_of_ble_eq_true rfl⟩

theorem detectBroadcast : Statement .detectBroadcast :=
  fun _ => ⟨Nat.le_of_ble_eq_true rfl, Nat.le_of_ble_eq_true rfl⟩

theorem matchDestination : Statement .matchDestination :=
  fun _ => ⟨Nat.le_of_ble_eq_true rfl, Nat.le_of_ble_eq_true rfl⟩

theorem wrongDestination : Statement .wrongDestination :=
  fun _ => ⟨Nat.le_of_ble_eq_true rfl, Nat.le_of_ble_eq_true rfl⟩

theorem ccGet : Statement .ccGet :=
  fun _ => ⟨Nat.le_of_ble_eq_true rfl, Nat.le_of_ble_eq_true rfl⟩

theorem ccGetResponse : Statement .ccGetResponse :=
  fun _ => ⟨Nat.le_of_ble_eq_true rfl, Nat.le_of_ble_eq_true rfl⟩

theorem ccSet : Statement .ccSet :=
  fun _ => ⟨Nat.le_of_ble_eq_true rfl, Nat.le_of_ble_eq_true rfl⟩

theorem ccSetResponse : Statement .ccSetResponse :=
  fun _ => ⟨Nat.le_of_ble_eq_true rfl, Nat.le_of_ble_eq_true rfl⟩

theorem dispatchCcCheck : Statement .dispatchCcCheck :=
  fun _ => ⟨Nat.le_of_ble_eq_true rfl, Nat.le_of_ble_eq_true rfl⟩

theorem dispatchSubdeviceRange : Statement .dispatchSubdeviceRange :=
  fun _ => ⟨Nat.le_of_ble_eq_true rfl, Nat.le_of_ble_eq_true rfl⟩

theorem dispatchUnknownPid : Statement .dispatchUnknownPid :=
  fun _ => ⟨Nat.le_of_ble_eq_true rfl, Nat.le_of_ble_eq_true rfl⟩

theorem dispatchGetNoHandler : Statement .dispatchGetNoHandler :=
  fun _ => ⟨Nat.le_of_ble_eq_true rfl, Nat.le_of_ble_eq_true rfl⟩

theorem dispatchGetBroadcast : Statement .dispatchGetBroadcast :=
  fun _ => ⟨Nat.le_of_ble_eq_true rfl, Nat.le_of_ble_eq_true rfl⟩

theorem dispatchGetSubdevice : Statement .dispatchGetSubdevice :=
  fun _ => ⟨Nat.le_of_ble_eq_true rfl, Nat.le_of_ble_eq_true rfl⟩

theorem dispatchGetArgSize : Statement .dispatchGetArgSize :=
  fun _ => ⟨Nat.le_of_ble_eq_true rfl, Nat.le_of_ble_eq_true rfl⟩

theorem dispatchGetInvoke : Statement .dispatchGetInvoke :=
  fun _ => ⟨Nat.le_of_ble_eq_true rfl, Nat.le_of_ble_eq_true rfl⟩

theorem dispatchSetNoHandler : Statement .dispatchSetNoHandler :=
  fun _ => ⟨Nat.le_of_ble_eq_true rfl, Nat.le_of_ble_eq_true rfl⟩

theorem dispatchSetInvoke : Statement .dispatchSetInvoke :=
  fun _ => ⟨Nat.le_of_ble_eq_true rfl, Nat.le_of_ble_eq_true rfl⟩

theorem dispatchPidLookup : Statement .dispatchPidLookup :=
  fun _ => ⟨Nat.le_of_ble_eq_true rfl, Nat.le_of_ble_eq_true rfl⟩

theorem startResponse (rt : Byte) (pdl : Byte) (cc : Byte) (pid : Word16) : Statement (.startResponse rt pdl cc pid) :=
  fun _ => ⟨Nat.le_of_ble_eq_true rfl, Nat.le_of_ble_eq_true rfl⟩

theorem sendByte (v : Byte) : Statement (.sendByte v) :=
  fun _ => ⟨Nat.le_of_ble_eq_true rfl, Nat.le_of_ble_eq_true rfl⟩

theorem sendInt (v : Word16) : Statement (.sendInt v) :=
  fun _ => ⟨Nat.le_of_ble_eq_true rfl, Nat.le_of_ble_eq_true rfl⟩

theorem sendLong (v : Word32) : Statement (.sendLong v) :=
  fun _ => ⟨Nat.le_of_ble_eq_true rfl, Nat.le_of_ble_eq_true rfl⟩

theorem endResponse : Statement .endResponse :=
  fun _ => ⟨Nat.le_of_ble_eq_true rfl, Nat.le_of_ble_eq_true rfl⟩

theorem sendEmptyAck : Statement .sendEmptyAck :=
  fun _ => ⟨Nat.le_of_ble_eq_true rfl, Nat.le_of_ble_eq_true rfl⟩

theorem sendNack (reason : Word16) : Statement (.sendNack reason) :=
  fun _ => ⟨Nat.le_of_ble_eq_true rfl, Nat.le_of_ble_eq_true rfl⟩

theorem sendAckTimer (delay : Word16) : Statement (.sendAckTimer delay) :=
  fun _ => ⟨Nat.le_of_ble_eq_true rfl, Nat.le_of_ble_eq_true rfl⟩

theorem nackOrBroadcast (wasBroadcast : Bool) (reason : Word16) : Statement (.nackOrBroadcast wasBroadcast reason) :=
  fun _ => ⟨Nat.le_of_ble_eq_true rfl, Nat.le_of_ble_eq_true rfl⟩

theorem reportStatus (k : StatusKind) : Statement (.reportStatus k) :=
  fun _ => ⟨Nat.le_of_ble_eq_true rfl, Nat.le_of_ble_eq_true rfl⟩

theorem handlerReservedAB (low : BitVec 1) : Statement (.handlerReservedAB low) :=
  fun _ => ⟨Nat.le_of_ble_eq_true rfl, Nat.le_of_ble_eq_true rfl⟩

theorem handlerReservedCF (low : BitVec 2) : Statement (.handlerReservedCF low) :=
  fun _ => ⟨Nat.le_of_ble_eq_true rfl, Nat.le_of_ble_eq_true rfl⟩

theorem labelOther (label : Byte) : Statement (.labelOther label) :=
  fun _ => ⟨Nat.le_of_ble_eq_true rfl, Nat.le_of_ble_eq_true rfl⟩

theorem rtAck : Statement .rtAck :=
  fun _ => ⟨Nat.le_of_ble_eq_true rfl, Nat.le_of_ble_eq_true rfl⟩

theorem rtAckTimer : Statement .rtAckTimer :=
  fun _ => ⟨Nat.le_of_ble_eq_true rfl, Nat.le_of_ble_eq_true rfl⟩

theorem rtNack : Statement .rtNack :=
  fun _ => ⟨Nat.le_of_ble_eq_true rfl, Nat.le_of_ble_eq_true rfl⟩

theorem nrUnknownPid : Statement .nrUnknownPid :=
  fun _ => ⟨Nat.le_of_ble_eq_true rfl, Nat.le_of_ble_eq_true rfl⟩

theorem nrFormatError : Statement .nrFormatError :=
  fun _ => ⟨Nat.le_of_ble_eq_true rfl, Nat.le_of_ble_eq_true rfl⟩

theorem nrUnsupportedCommandClass : Statement .nrUnsupportedCommandClass :=
  fun _ => ⟨Nat.le_of_ble_eq_true rfl, Nat.le_of_ble_eq_true rfl⟩

theorem nrDataOutOfRange : Statement .nrDataOutOfRange :=
  fun _ => ⟨Nat.le_of_ble_eq_true rfl, Nat.le_of_ble_eq_true rfl⟩

theorem nrSubDeviceOutOfRange : Statement .nrSubDeviceOutOfRange :=
  fun _ => ⟨Nat.le_of_ble_eq_true rfl, Nat.le_of_ble_eq_true rfl⟩

theorem statusOk : Statement .statusOk :=
  fun _ => ⟨Nat.le_of_ble_eq_true rfl, Nat.le_of_ble_eq_true rfl⟩

theorem statusBroadcast : Statement .statusBroadcast :=
  fun _ => ⟨Nat.le_of_ble_eq_true rfl, Nat.le_of_ble_eq_true rfl⟩

theorem statusFailed : Statement .statusFailed :=
  fun _ => ⟨Nat.le_of_ble_eq_true rfl, Nat.le_of_ble_eq_true rfl⟩

theorem statusFailedChecksum : Statement .statusFailedChecksum :=
  fun _ => ⟨Nat.le_of_ble_eq_true rfl, Nat.le_of_ble_eq_true rfl⟩

theorem statusInvalidDestination : Statement .statusInvalidDestination :=
  fun _ => ⟨Nat.le_of_ble_eq_true rfl, Nat.le_of_ble_eq_true rfl⟩

theorem statusInvalidCommand : Statement .statusInvalidCommand :=
  fun _ => ⟨Nat.le_of_ble_eq_true rfl, Nat.le_of_ble_eq_true rfl⟩

theorem getSupportedParameters : Statement .getSupportedParameters :=
  fun _ => ⟨Nat.le_of_ble_eq_true rfl, Nat.le_of_ble_eq_true rfl⟩

theorem setDeviceLabel : Statement .setDeviceLabel :=
  fun _ => ⟨Nat.le_of_ble_eq_true rfl, Nat.le_of_ble_eq_true rfl⟩

theorem getQueuedMessagePending : Statement .getQueuedMessagePending :=
  fun _ => ⟨Nat.le_of_ble_eq_true rfl, Nat.le_of_ble_eq_true rfl⟩

theorem getQueuedMessageIdle : Statement .getQueuedMessageIdle :=
  fun _ => ⟨Nat.le_of_ble_eq_true rfl, Nat.le_of_ble_eq_true rfl⟩

theorem setDmxStartAddress : Statement .setDmxStartAddress :=
  fun _ => ⟨Nat.le_of_ble_eq_true rfl, Nat.le_of_ble_eq_true rfl⟩

theorem setSerialNumber : Statement .setSerialNumber :=
  fun _ => ⟨Nat.le_of_ble_eq_true rfl, Nat.le_of_ble_eq_true rfl⟩

theorem emitFrame : Statement .emitFrame :=
  fun _ => ⟨Nat.le_of_ble_eq_true rfl, Nat.le_of_ble_eq_true rfl⟩

theorem processRdm : Statement .processRdm :=
  fun _ => ⟨Nat.le_of_ble_eq_true rfl, Nat.le_of_ble_eq_true rfl⟩

theorem frameOut : Statement .frameOut :=
  fun _ => ⟨Nat.le_of_ble_eq_true rfl, Nat.le_of_ble_eq_true rfl⟩

end WordLength

end Sys2Proof.Laws
end

