-- ==== Sys2Proof/Laws/Runs.lean ====
section
/-! SUPPORT. Runs of the deframer: a received byte, the four header bytes,
    the payload bytes of a frame that fits and of one that
does not. -/

namespace Sys2Proof.Machine

theorem decode_rxWord (st : RxState) (b : Byte) : decode .rxEvent (rxWord st b) = .ok (match st with
        | .preStart => .rxPreStart b
        | .gotStart => .rxGotStart b
        | .gotLabel => .rxGotLabel b
        | .gotLengthLow => .rxGotLengthLow b
        | .inPayload => .rxInPayload b
        | .awaitingEnd => .rxAwaitingEnd b) := by cases st <;> rfl

theorem fetchByte_eq (b : Byte) (s : State) : fetchByte b s = .run (match s.rx.state with
        | .preStart => .rxPreStart b
        | .gotStart => .rxGotStart b
        | .gotLabel => .rxGotLabel b
        | .gotLengthLow => .rxGotLengthLow b
        | .inPayload => .rxInPayload b
        | .awaitingEnd => .rxAwaitingEnd b) s := by
  simp only [fetchByte, fetchWord, decode_rxWord]

/-- An event that a reset strikes leaves the reset state, TX cut off after `sent` bytes (R322). -/
theorem strike_eq_next {n : Nat} {s t : State} {o : Out} (h : strike n s o = .next t) :
    ∃ u, o = .next u
      ∧ t = resetBlock { u with trace.tx := u.trace.tx.take (s.trace.tx.length + n) } := by
  obtain ⟨u, hu, h⟩ := andThen_eq_next h
  exact ⟨u, hu, by simpa using h.symm⟩

/-- Striking an event is striking what a step on that event answers. -/
theorem step_struck (s : State) (b : Byte) (n : Nat) (rest : List Input)
    (h : s.input = .resetDuring (some b) n :: rest) :
    step s = strike n s (step { s with input := .rxByte b :: rest }) := by
  simp only [step, fetch, h, fetchByte_eq, Fetched.strike]
  rfl

/-- So it is for an empty poll. -/
theorem step_struck_idle (s : State) (n : Nat) (rest : List Input)
    (h : s.input = .resetDuring none n :: rest) :
    step s = strike n s (step { s with input := .rxEmpty :: rest }) := by
  simp only [step, fetch, h]
  rfl

/-- A received byte runs the event of the current `rx_state`. -/
theorem step_byte (s : State) (b : Byte) (rest : List Input) (h : s.input = .rxByte b :: rest) :
   step s = exec
      (match s.rx.state with
        | .preStart => .rxPreStart b
        | .gotStart => .rxGotStart b
        | .gotLabel => .rxGotLabel b
        | .gotLengthLow => .rxGotLengthLow b
        | .inPayload => .rxInPayload b
        | .awaitingEnd => .rxAwaitingEnd b) { s with input := rest } := by
  simp only [step, fetch, h, fetchByte_eq]

theorem step_in (s : State) (b : Byte) (rest : List Input) (h : s.input = .rxByte b :: rest)
    (hs : s.rx.state = .inPayload) :
  step s = exec (.rxInPayload b) { s with input := rest } := by rw [step_byte s b rest h, hs]

/-- The payload count does not wrap below the length. -/
theorem cnt_succ {c l : Word16} (h : c.toNat < l.toNat) : (c + 1).toNat = c.toNat + 1 := by
  have := l.isLt
  rw [BitVec.toNat_add]; simp; omega

/-- The payload bytes of a frame that fits the buffer are stored in order (R135). -/
theorem payload_run (ps : List Byte) (s : State) (rest : List Input)
    (hi : s.input = ps.map .rxByte ++ rest) (hs : s.rx.state = .inPayload) (ho : s.rx.ovf = false)
    (hl : s.rx.len.toNat ≤ s.cfg.frameCap) (hc : s.rx.cnt.toNat + ps.length = s.rx.len.toNat)
        (hp : ps ≠ []) :
    ∃ m, runSteps ps.length s = .next
        { s with input := rest, buf := m, rx := { s.rx with state := .awaitingEnd, cnt := s.rx.len } }
      ∧ ∀ a, Memory.read m a = if s.rx.cnt.toNat ≤ a ∧
          a < s.rx.len.toNat then ps[a - s.rx.cnt.toNat]? else Memory.read s.buf a := by
  induction ps generalizing s with
  | nil => exact absurd rfl hp
  | cons b ps ih =>
    simp only [List.length_cons] at hc
    have hlt : s.rx.cnt.toNat < s.rx.len.toNat := by omega
    have hs1 := step_in s b (ps.map .rxByte ++ rest) (by simpa using hi) hs
    have e : step s = countPayload
        { s with input := ps.map .rxByte ++ rest, buf := Memory.write s.buf s.rx.cnt.toNat b } := by
      rw [hs1]
      have : s.rx.cnt.toNat < s.cfg.frameCap := by omega
      simp [exec, execRxInPayload, ho, memWrite, this]
    have hcs := cnt_succ hlt
    rw [List.length_cons, runSteps, e, countPayload, andThen_next]
    by_cases hps : ps = []
    · subst hps
      have hcl : s.rx.cnt + 1 = s.rx.len := by
        apply BitVec.eq_of_toNat_eq; rw [hcs]; simp at hc; omega
      refine ⟨Memory.write s.buf s.rx.cnt.toNat b, ?_, ?_⟩
      · simp [runSteps, goState]; exact hcl
      · intro a
        rw [Memory.read_write]
        by_cases ha : a = s.rx.cnt.toNat
        · subst ha; simp [hlt]
        · rw [if_neg ha, if_neg]; simp at hc; omega
    · have hcl : ¬ s.rx.cnt + 1 = s.rx.len := by
        intro h
        have := congrArg BitVec.toNat h
        rw [hcs] at this
        have : 0 < ps.length := List.length_pos_iff.2 hps
        omega
      rw [if_neg hcl]
      obtain ⟨m, hm, hr⟩ := ih (goState .inPayload
          { s with input := ps.map .rxByte ++ rest, buf := Memory.write s.buf s.rx.cnt.toNat b, rx.cnt := s.rx.cnt + 1 }) rfl rfl ho hl (by simp [goState]; omega) hps
      refine ⟨m, ?_, ?_⟩
      · refine hm.trans ?_; rfl
      · intro a
        rw [hr a]
        simp only [goState, hcs, Memory.read_write]
        by_cases ha : a = s.rx.cnt.toNat
        · subst ha; simp [hlt] <;> (intro h; omega)
        · by_cases h2 : s.rx.cnt.toNat + 1 ≤ a ∧ a < s.rx.len.toNat
          · rw [if_pos h2, if_pos (by omega)]
            obtain ⟨d, hd⟩ : ∃ d, a - s.rx.cnt.toNat = d + 1 := ⟨a - s.rx.cnt.toNat - 1, by omega⟩
            rw [hd, List.getElem?_cons_succ]; congr 1; omega
          · rw [if_neg h2, if_neg ha, if_neg (by omega)]

/-- The payload bytes of an oversize frame are only counted (R137). -/
theorem skip_run (ps : List Byte) (s : State) (rest : List Input)
    (hi : s.input = ps.map .rxByte ++ rest) (hs : s.rx.state = .inPayload) (ho : s.rx.ovf = true)
    (hc : s.rx.cnt.toNat + ps.length = s.rx.len.toNat) (hp : ps ≠ []) :
    runSteps ps.length s = .next { s with input := rest, rx := { s.rx with state := .awaitingEnd, cnt := s.rx.len } } := by
  induction ps generalizing s with
  | nil => exact absurd rfl hp
  | cons b ps ih =>
    simp only [List.length_cons] at hc
    have hlt : s.rx.cnt.toNat < s.rx.len.toNat := by omega
    have hs1 := step_in s b (ps.map .rxByte ++ rest) (by simpa using hi) hs
    have e : step s = countPayload { s with input := ps.map .rxByte ++ rest } := by
      rw [hs1]
      simp [exec, execRxInPayload, ho]
    have hcs := cnt_succ hlt
    rw [List.length_cons, runSteps, e, countPayload, andThen_next]
    by_cases hps : ps = []
    · subst hps
      have hcl : s.rx.cnt + 1 = s.rx.len := by
        apply BitVec.eq_of_toNat_eq; rw [hcs]; simp at hc; omega
      simp [runSteps, goState]; exact hcl
    · have hcl : ¬ s.rx.cnt + 1 = s.rx.len := by
        intro h
        have := congrArg BitVec.toNat h
        rw [hcs] at this
        have : 0 < ps.length := List.length_pos_iff.2 hps
        omega
      rw [if_neg hcl]
      exact ih (goState .inPayload { s with input := ps.map .rxByte ++ rest, rx.cnt := s.rx.cnt + 1 }) rfl rfl ho (by simp [goState]; omega) hps

theorem runSteps_add (m n : Nat) (s : State) : runSteps (m + n) s = andThen (runSteps m s)
    (runSteps n) := by
  induction m generalizing s with
  | zero => simp [runSteps]
  | succ m ih =>
    rw [Nat.add_right_comm, runSteps, runSteps, andThen_assoc]
    congr 1; funext t; exact ih t

theorem be16_split (len : Word16) : (len.extractLsb' 8 8 : Byte) ++ (len.extractLsb' 0 8 : Byte) =
    len := be16_bytes16 len

/-- The four header bytes (R131 to R134). -/
theorem header_run (s : State) (label lo hi : Byte) (rest : List Input) (hs : s.rx.state = .preStart)
   (hi' : s.input = .rxByte 0x7E :: .rxByte label :: .rxByte lo :: .rxByte hi :: rest) :
   runSteps 4 s = .next { s with input := rest, rx := ⟨if (hi ++ lo : BitVec (8+8)) = 0 then .awaitingEnd else .inPayload, label, hi ++ lo, 0, decide (s.cfg.frameCap < (hi ++ lo : BitVec (8+8)).toNat)⟩ } := by
  have e1 : step s = .next { s with input := .rxByte label :: .rxByte lo :: .rxByte hi :: rest, rx.state := .gotStart } := by
    rw [step_byte s _ _ hi', hs]; rfl
  have e2 : step { s with input := .rxByte label :: .rxByte lo :: .rxByte hi :: rest, rx.state := .gotStart } = .next { s with input := .rxByte lo :: .rxByte hi :: rest, rx.state := .gotLabel, rx.label := label } := by
    rw [step_byte _ _ _ rfl]; rfl
  have e3 : step { s with input := .rxByte lo :: .rxByte hi :: rest, rx.state := .gotLabel, rx.label := label } = .next { s with input := .rxByte hi :: rest, rx.state := .gotLengthLow, rx.label := label, rx.len := le16 lo (hiByte s.rx.len) } := by
    rw [step_byte _ _ _ rfl]; rfl
  have elo : loByte (le16 lo (hiByte s.rx.len)) = lo := be16_lo _ _
  have e4 : step { s with input := .rxByte hi :: rest, rx.state := .gotLengthLow, rx.label := label, rx.len := le16 lo (hiByte s.rx.len) } = .next { s with input := rest, rx := ⟨if (hi ++ lo : BitVec (8+8)) = 0 then .awaitingEnd else .inPayload, label, hi ++ lo, 0, decide (s.cfg.frameCap < (hi ++ lo : BitVec (8+8)).toNat)⟩ } := by
    rw [step_byte _ _ _ rfl]; simp only [exec, execRxGotLengthLow, elo]; rfl
  simp only [runSteps, e1, e2, e3, e4, andThen_next]

/-- A run of cells that hold the bytes of a list is that list. -/
theorem run_eq (m : Memory) (ps : List Byte) (a : Nat) (h : ∀ i, i < ps.length → Memory.read m
    (a + i) = ps[i]?) : Memory.run m a ps.length = ps := by
  induction ps generalizing a with
  | nil => rfl
  | cons b ps ih =>
    rw [List.length_cons, Memory.run, ih]
    · have := h 0 (by simp); simp at this; simp [this]
    · intro i hi
      have := h (i+1) (by simpa using hi)
      rw [← Nat.add_assoc] at this
      rw [Nat.add_right_comm, this]; simp

/-- Fewer bytes than the length declares leave the deframer in the payload. -/
theorem partial_run (ps : List Byte) (s u : State) (rest : List Input)
    (hi : s.input = ps.map .rxByte ++ rest) (hs : s.rx.state = .inPayload)
    (hc : s.rx.cnt.toNat + ps.length < s.rx.len.toNat) (h : runSteps ps.length s =
        .next u) : u.rx.state = .inPayload := by
  induction ps generalizing s with
  | nil => simp [runSteps] at h; rw [← h, hs]
  | cons b ps ih =>
    simp only [List.length_cons] at hc
    have hs1 := step_in s b (ps.map .rxByte ++ rest) (by simpa using hi) hs
    obtain ⟨v, hv, hu⟩ := andThen_eq_next h
    rw [hs1] at hv
    obtain ⟨w, hw, hv⟩ := andThen_eq_next hv
    have hcs := cnt_succ (c := s.rx.cnt) (l := s.rx.len) (by omega)
    have hcl : ¬ s.rx.cnt + 1 = s.rx.len := by
        intro h
        have := congrArg BitVec.toNat h
        rw [hcs] at this
        omega
    have hw' : w.rx = s.rx ∧ w.input = ps.map .rxByte ++ rest := by
      simp only at hw
      split at hw
      · simp at hw; rw [← hw]; exact ⟨rfl, rfl⟩
      · simp only [memWrite] at hw
        split at hw
        · simp at hw; rw [← hw]; exact ⟨rfl, rfl⟩
        · simp at hw
    have hv' : v = goState .inPayload { w with rx.cnt := w.rx.cnt + 1 } := by
      simp only [countPayload, hw'.1, if_neg hcl] at hv
      simp at hv; rw [← hv, hw'.1]; rfl
    refine ih v (by rw [hv']; exact hw'.2) (by rw [hv']; rfl) ?_ hu
    rw [hv']; simp [goState, hw'.1]; omega

/-- A shorter run goes on by one step. -/
theorem one_more {k : Nat} {n : Nat} {s v u : State} (h1 : runSteps k s = .next v)
    (h : runSteps n s = .next u) (hk : k < n) :
   ∃ w, runSteps (k+1) s = .next w ∧ step v = .next w := by
  obtain ⟨m, rfl⟩ : ∃ m, n = k + (1 + m) := ⟨n - k - 1, by omega⟩
  rw [runSteps_add, h1, andThen_next, runSteps_add] at h
  obtain ⟨w, hw, _⟩ := andThen_eq_next h
  refine ⟨w, ?_, ?_⟩
  · rw [runSteps_add, h1, andThen_next, hw]
  · obtain ⟨x, hx, hw⟩ := andThen_eq_next hw
    simp [runSteps] at hw; rw [hx, hw]

/-- The byte after a payload returns the deframer to `PRE_START` (R136). -/
theorem awaiting_next (v w : State) (b : Byte) (rest) (hv : v.input = .rxByte b :: rest)
    (hs : v.rx.state = .awaitingEnd)
   (h : step v = .next w) : w.rx.state = .preStart := by
  rw [step_byte v b rest hv, hs] at h
  simp only [exec, execRxAwaitingEnd, closeFrame] at h
  split at h
  · obtain ⟨x, _, h⟩ := andThen_eq_next h
    simp at h; rw [← h]; rfl
  · simp at h; rw [← h]; rfl

end Sys2Proof.Machine
end

