-- ==== Sys2Proof/Laws/Sims.lean ====
section
/-! SUPPORT. Two states that are at the same request, the second under another transaction number, go on in the same way:
their answers are the same but for its echo (R259). -/

namespace Sys2Proof.Machine

/-- What the two states have sent since `s₀` and `t₀`: nothing, the same part of a reply, or the same answer, but for the
transaction number `tn` of the second. -/
def SameSent (tn : Byte) (s₀ t₀ s t : State) : Prop :=
  (s.enc.busy = false ∧ s.enc.done = false ∧ s.trace.tx = s₀.trace.tx ∧ t.trace.tx = t₀.trace.tx)
    ∨ (∃ (f : ReplyFields) (pdl : Nat) (data : List Byte), f.tn = s.ctx.tn
        ∧ s.enc.busy = true ∧ pdl ≤ 231 ∧ s.enc.remaining.toNat + data.length = pdl
        ∧ s.trace.tx = s₀.trace.tx ++ (frameHeader rdmLabel (27 + pdl) ++ [s.cfg.statusOk]
            ++ packetHeader f pdl ++ data)
        ∧ t.trace.tx = t₀.trace.tx ++ (frameHeader rdmLabel (27 + pdl) ++ [s.cfg.statusOk]
            ++ packetHeader { f with tn := tn } pdl ++ data)
        ∧ s.enc.sum = checksum (packetHeader f pdl ++ data)
        ∧ t.enc.sum = checksum (packetHeader { f with tn := tn } pdl ++ data))
    ∨ (s.enc.busy = false ∧ s.enc.done = true ∧
        ((∃ f : ReplyFields, f.tn = s.ctx.tn
            ∧ s.trace.tx = s₀.trace.tx ++ replyFrameBytes s.cfg.statusOk f
            ∧ t.trace.tx = t₀.trace.tx ++ replyFrameBytes s.cfg.statusOk { f with tn := tn })
          ∨ ∃ k, s.trace.tx = s₀.trace.tx ++ statusBytes s.cfg k
            ∧ t.trace.tx = t₀.trace.tx ++ statusBytes s.cfg k))

/-- The two states agree on everything a GET handler that keeps R259 and the encoder read, the transaction number apart; of
the store that is what its getters answer, of the buffer the cells before the checksum. -/
structure Sim (tn : Byte) (s₀ t₀ s t : State) : Prop where
  cfg : t.cfg = s.cfg
  ctx : t.ctx = { s.ctx with tn := tn }
  flags : t.flags = s.flags
  store : t.store.toStoreView = s.store.toStoreView
  size : t.val.size = s.val.size
  long : 26 ≤ s.val.size.toNat
  cells : ∀ i, i ≠ 15 → i + 2 < s.val.size.toNat → Memory.read t.buf i = Memory.read s.buf i
  tag : ∃ b, Memory.read t.buf 15 = some b
  busy : t.enc.busy = s.enc.busy
  done : t.enc.done = s.enc.done
  remaining : s.enc.busy = true → t.enc.remaining = s.enc.remaining
  sent : SameSent tn s₀ t₀ s t

/-- Where the first operation answers a next state, the second does, and the agreement goes on. -/
def SimOut (tn : Byte) (s₀ t₀ : State) (o₁ o₂ : Out) : Prop :=
  ∀ s, o₁ = .next s → ∃ t, o₂ = .next t ∧ Sim tn s₀ t₀ s t

variable {tn : Byte} {s₀ t₀ s t : State}

theorem SimOut.andThen {o₁ o₂ : Out} {k₁ k₂ : State → Out} (h : SimOut tn s₀ t₀ o₁ o₂)
    (hk : ∀ s t, Sim tn s₀ t₀ s t → SimOut tn s₀ t₀ (k₁ s) (k₂ t)) :
    SimOut tn s₀ t₀ (andThen o₁ k₁) (andThen o₂ k₂) := by
  intro s h'
  obtain ⟨u, hu, hs⟩ := andThen_eq_next h'
  obtain ⟨v, hv, hsim⟩ := h u hu
  rw [hv]
  exact hk u v hsim s hs

theorem sim_next (h : Sim tn s₀ t₀ s t) : SimOut tn s₀ t₀ (.next s) (.next t) := by
  intro s h'; cases h'; exact ⟨t, rfl, h⟩

theorem sim_fault (f : Fault) {o : Out} : SimOut tn s₀ t₀ (.fault f) o := by intro s h; cases h

/-! The encoder. -/

theorem openFault_sim (h : Sim tn s₀ t₀ s t) (n : Nat) : openFault t n = openFault s n := by
  simp only [openFault, h.busy, h.done, h.ctx]

theorem openReply_sim (h : Sim tn s₀ t₀ s t) (f : ReplyFields) (hf : f.tn = s.ctx.tn) (n : Nat) :
    SimOut tn s₀ t₀ (openReply f n s) (openReply { f with tn := tn } n t) := by
  intro s' h'
  obtain ⟨a, b, c, d, rfl⟩ := openReply_eq_next h'
  refine ⟨opened { f with tn := tn } n t, ?_, h.cfg, h.ctx, h.flags, h.store, h.size, h.long, h.cells, h.tag,
    rfl, h.done, fun _ => rfl, .inr (.inl ⟨f, n, [], hf, rfl, d, ?_, ?_, ?_, ?_, ?_⟩)⟩
  · rw [openReply_eq, openFault_sim h, (openFault_none_iff s n).2 ⟨a, b, c, d⟩]; rfl
  · simp [opened, BitVec.toNat_ofNat]; omega
  all_goals
    obtain ⟨-, -, hx, hy⟩ | ⟨_, _, _, _, hb, -⟩ | ⟨-, hd, -⟩ := h.sent
    · simp [opened, hx, hy, h.cfg]
    · simp [a] at hb
    · simp [b] at hd

theorem putByte_sim (h : Sim tn s₀ t₀ s t) (v : Byte) : SimOut tn s₀ t₀ (putByte v s) (putByte v t) := by
  intro s' h'
  obtain ⟨a, b, rfl⟩ := putByte_eq_next h'
  refine ⟨putCounted v t, ?_, h.cfg, h.ctx, h.flags, h.store, h.size, h.long, h.cells, h.tag,
    h.busy, h.done, fun _ => by simp [h.remaining a], ?_⟩
  · have : sendFault t 1 = none := by simp [sendFault, h.busy, h.remaining a, a]; omega
    simp [putByte, this]
  · obtain ⟨hb, -⟩ | ⟨f, pdl, data, h0, h1, h2, h3, h4, h5, h6, h7⟩ | ⟨hb, -⟩ := h.sent
    · simp [a] at hb
    · refine .inr (.inl ⟨f, pdl, data ++ [v], h0, h1, h2, ?_, ?_, ?_, ?_, ?_⟩)
      · simp only [putCounted_enc, remaining_pred b, List.length_append, List.length_singleton]; omega
      · simp [h4]
      · simp [h5]
      · simp [h6, sumByte, BitVec.add_assoc]
      · simp [h7, sumByte, BitVec.add_assoc]
    · simp [a] at hb

theorem putBytes_sim (bs : List Byte) {s t : State} (h : Sim tn s₀ t₀ s t) :
    SimOut tn s₀ t₀ (putBytes bs s) (putBytes bs t) := by
  induction bs generalizing s t with
  | nil => exact sim_next h
  | cons b bs ih => exact (putByte_sim h b).andThen fun _ _ h => ih h

/-- The bytes of an open reply whose data is complete, closed, are the reply's frame (R97, R215). -/
theorem close_bytes (ok : Byte) (f : ReplyFields) (data : List Byte) :
    frameHeader rdmLabel (27 + data.length) ++ [ok] ++ packetHeader f data.length ++ data
        ++ (bytes16 (checksum (packetHeader f data.length ++ data)) ++ [eomByte])
      = replyFrameBytes ok { f with data := data } := by
  have hn : 24 + (data.length + 2) + 1 = 27 + data.length := by omega
  simp [replyFrameBytes, frameBytes, packetBytes, packetBody, packetHeader_data, List.append_assoc, hn]

theorem closeReply_sim (h : Sim tn s₀ t₀ s t) : SimOut tn s₀ t₀ (closeReply s) (closeReply t) := by
  intro s' h'
  obtain ⟨a, b, rfl⟩ := closeReply_eq_next h'
  refine ⟨closed t, ?_, h.cfg, h.ctx, h.flags, h.store, h.size, h.long, h.cells, h.tag,
    rfl, rfl, fun hb => by simp [closed] at hb, ?_⟩
  · have : closeFault t = none := by simp [closeFault, h.busy, h.remaining a, a, b]
    rw [closeReply_eq, this]; rfl
  · obtain ⟨hb, -⟩ | ⟨f, pdl, data, h0, h1, h2, h3, h4, h5, h6, h7⟩ | ⟨hb, -⟩ := h.sent
    · simp [a] at hb
    · have hl : data.length = pdl := by simpa [b] using h3
      subst hl
      refine .inr (.inr ⟨rfl, rfl, .inl ⟨{ f with data := data }, h0, ?_, ?_⟩⟩)
      · have e := close_bytes s.cfg.statusOk f data
        simp only [closed, h4, h6, ← e, List.append_assoc]
      · have e := close_bytes s.cfg.statusOk { f with tn := tn } data
        simp only [closed, h5, h7, ← e, List.append_assoc]
    · simp [a] at hb

theorem takeStatus_sim (k : StatusKind) (h : Sim tn s₀ t₀ s t) :
    SimOut tn s₀ t₀ (takeStatus k s) (takeStatus k t) := by
  intro s' h'
  obtain ⟨a, b, rfl⟩ := takeStatus_eq_next h'
  refine ⟨withStatus k t, takeStatus_eq _ _ (by rw [h.busy]; exact a) (by rw [h.done]; exact b),
    h.cfg, h.ctx, h.flags, h.store, h.size, h.long, h.cells, h.tag, h.busy, rfl, h.remaining, ?_⟩
  obtain ⟨-, -, hx, hy⟩ | ⟨_, _, _, _, hb, -⟩ | ⟨-, hd, -⟩ := h.sent
  · exact .inr (.inr ⟨a, rfl, .inr ⟨k,
      (show s.trace.tx ++ statusBytes s.cfg k = s₀.trace.tx ++ statusBytes s.cfg k by rw [hx]),
      (show t.trace.tx ++ statusBytes t.cfg k = t₀.trace.tx ++ statusBytes s.cfg k by rw [hy, h.cfg])⟩⟩)
  · simp [a] at hb
  · simp [b] at hd

theorem uid_sim (h : Sim tn s₀ t₀ s t) : uidOf t.store = uidOf s.store := by
  simp only [uidOf, h.store]

theorem fieldValue_sim (h : Sim tn s₀ t₀ s t) (f : StoreField) :
    fieldValue t.store t.flags f = fieldValue s.store s.flags f := by
  cases f <;> simp only [fieldValue, h.store, h.flags]

theorem fields_sim (h : Sim tn s₀ t₀ s t) (rt cc : Byte) (pid : Word16) (d : List Byte) :
    replyFieldsOf t rt cc pid d = { replyFieldsOf s rt cc pid d with tn := tn } := by
  simp only [replyFieldsOf, h.ctx, uid_sim h, h.flags]

theorem startReply_sim (h : Sim tn s₀ t₀ s t) (rt : Byte) (n : Nat) (cc : Byte) (pid : Word16) :
    SimOut tn s₀ t₀ (startReply rt n cc pid s) (startReply rt n cc pid t) := by
  simp only [startReply, fields_sim h]; exact openReply_sim h _ rfl _

theorem unless_sim (h : Sim tn s₀ t₀ s t) (n : Nat) {o₁ o₂ : Out} (ho : SimOut tn s₀ t₀ o₁ o₂) :
    SimOut tn s₀ t₀ (unlessFault (sendFault s n) o₁) (unlessFault (sendFault t n) o₂) := by
  have : sendFault t n = sendFault s n := by
    by_cases hb : s.enc.busy = true
    · simp only [sendFault, h.busy, h.remaining hb]
    · simp [sendFault, h.busy, hb]
  rw [this]
  cases sendFault s n with
  | none => exact ho
  | some f => exact sim_fault f

theorem putInt_sim (h : Sim tn s₀ t₀ s t) (v : Word16) : SimOut tn s₀ t₀ (putInt v s) (putInt v t) :=
  unless_sim h 2 (putBytes_sim _ h)

theorem putLong_sim (h : Sim tn s₀ t₀ s t) (v : Word32) : SimOut tn s₀ t₀ (putLong v s) (putLong v t) :=
  unless_sim h 4 (putBytes_sim _ h)

theorem putInts_sim (vs : List Word16) {s t : State} (h : Sim tn s₀ t₀ s t) :
    SimOut tn s₀ t₀ (putInts vs s) (putInts vs t) := by
  induction vs generalizing s t with
  | nil => exact sim_next h
  | cons v vs ih => exact (putInt_sim h v).andThen fun _ _ h => ih h

theorem sendReply_sim (h : Sim tn s₀ t₀ s t) (rt cc : Byte) (pid : Word16) (d : List Byte) :
    SimOut tn s₀ t₀ (sendReply rt cc pid d s) (sendReply rt cc pid d t) :=
  (startReply_sim h _ _ _ _).andThen fun _ _ h => (putBytes_sim d h).andThen fun _ _ h => closeReply_sim h

theorem emptyAck_sim (h : Sim tn s₀ t₀ s t) : SimOut tn s₀ t₀ (emptyAck s) (emptyAck t) := by
  simp only [emptyAck, h.ctx]
  exact (startReply_sim h _ _ _ _).andThen fun _ _ h => closeReply_sim h

theorem nack_sim (h : Sim tn s₀ t₀ s t) (r : Word16) : SimOut tn s₀ t₀ (nack r s) (nack r t) := by
  simp only [nack, h.ctx]
  exact (startReply_sim h _ _ _ _).andThen fun _ _ h => (putInt_sim h _).andThen fun _ _ h => closeReply_sim h

theorem ackTimer_sim (h : Sim tn s₀ t₀ s t) (r : Word16) : SimOut tn s₀ t₀ (ackTimer r s) (ackTimer r t) := by
  simp only [ackTimer, h.ctx]
  exact (startReply_sim h _ _ _ _).andThen fun _ _ h => (putInt_sim h _).andThen fun _ _ h => closeReply_sim h

theorem reportKind_sim (h : Sim tn s₀ t₀ s t) (k : StatusKind) :
    SimOut tn s₀ t₀ (reportKind k s) (reportKind k t) := by
  simp only [reportKind, h.ctx]
  split
  · exact sim_fault _
  · exact takeStatus_sim _ h

theorem nackOrSilent_sim (h : Sim tn s₀ t₀ s t) (wb : Bool) (r : Word16) :
    SimOut tn s₀ t₀ (nackOrSilent wb r s) (nackOrSilent wb r t) := by
  cases wb
  · exact nack_sim h r
  · exact reportKind_sim h _

theorem runPort_sim (h : Sim tn s₀ t₀ s t) (c : PortCommand) :
    SimOut tn s₀ t₀ (runPort c s) (runPort c t) := by
  cases c with
  | startResponse rt pdl cc pid => exact startReply_sim h _ _ _ _
  | sendByte v => exact putByte_sim h v
  | sendInt v => exact putInt_sim h v
  | sendLong v => exact putLong_sim h v
  | endResponse => exact closeReply_sim h
  | sendEmptyAck => exact emptyAck_sim h
  | sendNack r => exact nack_sim h r
  | sendAckTimer d => exact ackTimer_sim h d
  | nackOrBroadcast wb r => exact nackOrSilent_sim h _ _
  | reportStatus k => exact reportKind_sim h k
  | reserved c => exact sim_fault _

theorem runPorts_sim (cs : List PortCommand) {s t : State} (h : Sim tn s₀ t₀ s t) :
    SimOut tn s₀ t₀ (runPorts cs s) (runPorts cs t) := by
  induction cs generalizing s t with
  | nil => exact sim_next h
  | cons c cs ih => exact (runPort_sim h c).andThen fun _ _ h => ih h

/-! Reads of the request. -/

theorem readByte_sim (h : Sim tn s₀ t₀ s t) {i : Nat} (h1 : i ≠ 15) (h2 : i + 2 < s.val.size.toNat) :
    readByte t i = readByte s i := by
  simp only [readByte, h.size, h.cells i h1 h2]

theorem readParam_sim (h : Sim tn s₀ t₀ s t) (p : Byte) (i : Nat) : readParam t p i = readParam s p i := by
  simp only [readParam, h.size]
  split
  · exact readByte_sim h (by omega) (by omega)
  · rfl

theorem readParams_sim (h : Sim tn s₀ t₀ s t) (p : Byte) (i n : Nat) :
    readParams t p i n = readParams s p i n := by
  induction n generalizing i with
  | zero => rfl
  | succ n ih => simp only [readParams, readParam_sim h, ih]

/-- A run of reads before the checksum gives the same bytes but for the transaction number. -/
theorem readRun_sim (h : Sim tn s₀ t₀ s t) {a n : Nat} {bs : List Byte} (ha : a + n + 2 ≤ s.val.size.toNat)
    (e : readRun s a n = .ok bs) :
    ∃ cs, readRun t a n = .ok cs ∧ cs.length = bs.length ∧ ∀ k, a + k ≠ 15 → cs[k]? = bs[k]? := by
  induction n generalizing a bs with
  | zero => exact ⟨bs, e, rfl, fun _ _ => rfl⟩
  | succ n ih =>
    have ht : ∃ c, readByte t a = .ok c ∧ ∀ b, readByte s a = .ok b → a ≠ 15 → c = b := by
      by_cases h15 : a = 15
      · obtain ⟨c, hc⟩ := h.tag
        subst h15
        refine ⟨c, ?_, fun _ _ h => absurd rfl h⟩
        simp only [readByte, h.size, hc]
        exact if_pos (by omega)
      · simp only [readRun] at e
        cases hs : readByte s a with
        | error f => simp [hs] at e
        | ok b =>
          refine ⟨b, (readByte_sim h h15 (by omega)).trans hs, fun c hc _ => ?_⟩
          cases hc; rfl
    obtain ⟨c, hc, hcb⟩ := ht
    simp only [readRun] at e
    cases hs : readByte s a with
    | error f => simp [hs] at e
    | ok b =>
      cases hr : readRun s (a + 1) n with
      | error f => simp [hs, hr] at e
      | ok bs' =>
        simp only [hs, hr, Except.ok.injEq] at e
        obtain ⟨cs, h1, h2, h3⟩ := ih (by omega) hr
        subst e
        refine ⟨c :: cs, by simp only [readRun, hc, h1], by simp [h2], fun k hk => ?_⟩
        cases k with
        | zero => simp [hcb b hs hk]
        | succ k => simpa using h3 k (by omega)

/-- The two requests are one but for the transaction number. -/
theorem requestOf_sim (h : Sim tn s₀ t₀ s t) {wb : Bool} {r : Request} (e : requestOf wb s = .ok r) :
    ∃ q, requestOf wb t = .ok q ∧ untagged q = untagged r := by
  have hl := h.long
  simp only [requestOf] at e ⊢
  cases hh : readRun s 0 24 with
  | error f => simp [hh] at e
  | ok header =>
    obtain ⟨cs, h1, h2, h3⟩ := readRun_sim h (by omega) hh
    rw [h1, readByte_sim h (by omega) (by omega), h.size]
    cases h23 : readByte s 23 with
    | error f => simp [hh, h23] at e
    | ok pdl =>
      simp only [readParams_sim h, h.store, h.flags, h.cfg]
      cases hp : readParams s pdl 0 (min pdl.toNat (s.val.size.toNat - 26)) with
      | error f => simp [hh, h23, hp] at e
      | ok ps =>
        simp only [hh, h23, hp, Except.ok.injEq] at e
        refine ⟨_, rfl, ?_⟩
        subst e
        have : cs.set 15 0 = header.set 15 0 := by
          apply List.ext_getElem?
          intro k
          rw [List.getElem?_set, List.getElem?_set, h2]
          split
          · rfl
          · exact h3 k (by omega)
        simp only [untagged, this]

/-- What a GET handler learns of the two requests is the same (R259). -/
theorem getRequest_sim (h : Sim tn s₀ t₀ s t) (reads : Request → Nat) {r : Request}
    (e : getRequest reads s = .ok r) : getRequest reads t = .ok r := by
  have hl := h.long
  simp only [getRequest, requestRead] at e ⊢
  cases hq : requestOf false s with
  | error f => simp [hq] at e
  | ok q =>
    obtain ⟨q', h1, h2⟩ := requestOf_sim h hq
    rw [h1, readByte_sim h (by omega) (by omega)]
    cases h23 : readByte s 23 with
    | error f => simp [hq, h23] at e
    | ok pdl =>
      simp only [readParams_sim h, h2]
      cases hp : readParams s pdl 0 (min (reads (untagged q)) pdl.toNat) with
      | error f => simp [hq, h23, hp] at e
      | ok ps =>
        simp only [hq, h23, hp, Except.ok.injEq] at e
        subst e
        simp only [untagged, Request.mk.injEq, PacketView.mk.injEq] at h2 ⊢
        simp only [h2]

theorem withRead_sim {α : Type} {r₁ r₂ : Except Fault α} (hr : ∀ a, r₁ = .ok a → r₂ = .ok a)
    {k₁ k₂ : α → Out} (hk : ∀ a, SimOut tn s₀ t₀ (k₁ a) (k₂ a)) :
    SimOut tn s₀ t₀ (withRead r₁ k₁) (withRead r₂ k₂) := by
  cases r₁ with
  | ok a => rw [hr a rfl]; exact hk a
  | error f => exact sim_fault f

/-- A GET handler that keeps R259, all but the fetching of a pending result. -/
theorem runGet_sim (b : GetBehaviour) (hq : quietGet b = true) (h : Sim tn s₀ t₀ s t)
    (hn : s.flags.labelPending = false ∨ b ≠ .queuedMessage) :
    SimOut tn s₀ t₀ (runGet b s) (runGet b t) := by
  have hl := h.long
  cases b with
  | supportedParameters =>
    simp only [runGet, supportedParametersGet, h.cfg, h.ctx]
    refine (startReply_sim h _ _ _ _).andThen fun a b h => ?_
    simp only [h.cfg]
    exact (putInts_sim _ h).andThen fun _ _ h => closeReply_sim h
  | queuedMessage =>
    have hn := hn.resolve_right (by simp)
    simp only [runGet, queuedMessageGet, h.flags, hn]
    simp only [emptyStatusMessages, h.cfg]
    exact sendReply_sim h _ _ _ _
  | readField f w =>
    simp only [runGet, fieldGet, h.ctx, fieldValue_sim h]
    refine withRead_sim (fun a e => (readByte_sim h (by omega) (by omega)).trans e) fun pdl => ?_
    split
    · exact sendReply_sim h _ _ _ _
    · refine withRead_sim (fun r => getRequest_sim h _) fun r => ?_
      split
      · exact nack_sim h _
      · exact sendReply_sim h _ _ _ _
  | other id =>
    simp only [runGet, otherGet, h.ctx]
    refine withRead_sim (fun r => getRequest_sim h _) fun r => ?_
    split
    · exact sendReply_sim h _ _ _ _
    · exact nack_sim h _
  | script cs => exact runPorts_sim cs h
  | agent id => simp [quietGet] at hq

/-- Where the first state has an outcome, the second has the same one, but for the echo (R259). -/
theorem Sim.outcome (h : Sim tn s₀ t₀ s t) (ho : outcomeReached s = true) :
    outcomeReached t = true ∧ ∃ bs cs, s.trace.tx = s₀.trace.tx ++ bs ∧ t.trace.tx = t₀.trace.tx ++ cs
      ∧ SameButEcho s.cfg tn bs cs ∧ (tn = s.ctx.tn → cs = bs) := by
  refine ⟨by simpa only [outcomeReached, h.busy, h.done] using ho, ?_⟩
  simp only [outcomeReached, Bool.and_eq_true, Bool.not_eq_true'] at ho
  obtain ⟨-, hd, -⟩ | ⟨_, _, _, _, hb, -⟩ | ⟨-, -, ⟨f, hf, h1, h2⟩ | ⟨k, h1, h2⟩⟩ := h.sent
  · simp [hd] at ho
  · simp [hb] at ho
  · refine ⟨_, _, h1, h2, .inl ⟨f, rfl, rfl⟩, fun e => ?_⟩
    rw [e, ← hf]
  · exact ⟨_, _, h1, h2, .inr ⟨k, rfl, rfl⟩, fun _ => rfl⟩

end Sys2Proof.Machine
end

