-- ==== Sys2Proof/Laws/Writers.lean ====
section
/-! SUPPORT. Who writes what: operations that leave the configuration, the inputs, the buffer,
    the deframer and the idle count
alone and only append to the outputs. -/

namespace Sys2Proof.Machine

theorem encodeCalls_tx {cs : List EncodeCall} {s t : State} (h : encodeCalls cs s =
    .next t) : ∃ bs, t = tx bs s := ⟨_, encodeCalls_eq_next h⟩

/-- Only the outputs, by appending, and the parts not named may have changed. -/
structure Wr (s t : State) : Prop where
  cfg : t.cfg = s.cfg
  input : t.input = s.input
  idle : t.trace.idleLog = s.trace.idleLog
  tx : s.trace.tx <+: t.trace.tx
  log : s.trace.statusLog <+: t.trace.statusLog
  fo : s.trace.frameOut <+: t.trace.frameOut
  hl : s.trace.handlerLog <+: t.trace.handlerLog
  buf : t.buf = s.buf
  rx : t.rx = s.rx
  past : t.past = s.past
  strobes : t.strobes = s.strobes

theorem Processed.wr {s t : State} (h : Processed s t) : Wr s t := by
  have e := h.eq
  exact ⟨by rw [e], by rw [e], by rw [e], h.tx, h.log, ⟨[], by rw [e, List.append_nil]⟩,
      h.handlers, by rw [e], by rw [e], by rw [e], by rw [e]⟩

theorem Handled.wr {s t : State} (h : Handled s t) : Wr s t := (Early.handled (Early.refl s) h).wr
theorem Ported.wr {s t : State} (h : Ported s t) : Wr s t := h.handled.wr
theorem wr_tx (bs : List Byte) (s : State) : Wr s (tx bs s) := ⟨rfl, rfl, rfl, by simp, by simp,
    by simp, by simp, rfl, rfl, rfl, rfl⟩
theorem wr_rfl (s : State) : Wr s s := ⟨rfl, rfl, rfl, List.prefix_rfl, List.prefix_rfl,
    List.prefix_rfl, List.prefix_rfl, rfl, rfl, rfl, rfl⟩

theorem emit_wr {l : Byte} {s t : State} (h : emit l s = .next t) : Wr s t := by
  simp only [emit] at h
  split at h
  · have := (processFrame_processed h).wr
    exact ⟨this.cfg, this.input, this.idle, this.tx, this.log, this.fo, this.hl, this.buf, this.rx,
      this.past, this.strobes⟩
  · obtain ⟨p, _, h⟩ := withRead_eq_next h
    obtain ⟨bs, rfl⟩ := encodeCalls_tx h
    exact ⟨rfl, rfl, rfl, by simp, by simp, by simp, by simp, rfl, rfl, rfl, rfl⟩

theorem codeFrame_wr {c : Byte} {s t : State} (h : codeFrame c s = .next t) : Wr s t ∧ t.flags =
    s.flags ∧ t.store = s.store ∧ t.agent = s.agent := by
  simp only [codeFrame] at h
  split at h
  · simp at h
  · simp at h; rw [← h]; exact ⟨wr_tx _ _, rfl, rfl, rfl⟩

theorem encodeFrame_wr {l p} {s t : State} (h : encodeFrame l p s = .next t) : Wr s t ∧ t.flags =
    s.flags ∧ t.store = s.store ∧ t.agent = s.agent := by
  simp only [encodeFrame] at h
  split at h
  · simp at h
  · split at h
    · simp at h
    · simp at h; rw [← h]; exact ⟨wr_tx _ _, rfl, rfl, rfl⟩

theorem closeFrame_cl {b : Byte} {s t : State} (h : closeFrame b s = .next t) : t.cfg = s.cfg ∧
    t.input = s.input
    ∧ t.trace.idleLog = s.trace.idleLog ∧ s.trace.tx <+: t.trace.tx ∧
        s.trace.statusLog <+: t.trace.statusLog
    ∧ s.trace.frameOut <+: t.trace.frameOut ∧ s.trace.handlerLog <+: t.trace.handlerLog ∧ t.buf =
        s.buf ∧ t.past = s.past ∧ t.strobes = s.strobes := by
  simp only [closeFrame] at h
  split at h
  · obtain ⟨u, hu, h⟩ := andThen_eq_next h
    have w := emit_wr hu
    simp at h; rw [← h]
    exact ⟨w.cfg, w.input, w.idle, w.tx, w.log, w.fo, w.hl, w.buf, w.past, w.strobes⟩
  · simp at h; rw [← h]
    simp

theorem handOff_wr {l : Byte} {s t : State} (h : handOff l s = .next t) : Wr s t ∧ t.flags =
    s.flags ∧ t.store = s.store ∧ t.agent = s.agent := by
  obtain ⟨p, _, h⟩ := withRead_eq_next h
  obtain ⟨bs, rfl⟩ := encodeCalls_tx h
  exact ⟨⟨rfl, rfl, rfl, by simp, by simp, by simp, by simp, rfl, rfl, rfl, rfl⟩, rfl, rfl, rfl⟩

theorem execReply_ported {f : ReplyFields} {s t : State} (h : execReply f s = .next t) : Ported s t :=
  .andThen h (fun _ => openReply_ported) fun _ h => .andThen h
      (fun _ => putBytes_ported) fun _ => closeReply_ported

theorem supp_ported {s t : State} (h : supportedParametersGet s = .next t) : Ported s t :=
  .andThen h (fun _ => openReply_ported) fun _ h => .andThen h
      (fun _ => putInts_ported) fun _ => closeReply_ported

end Sys2Proof.Machine
end

