-- ==== Sys2Proof/Tests/Slice0.lean ====
section
/-! SUPPORT. The model's own tests: ill-formed terms, one word per constructor, single steps on the vectors of
95_test_vectors.md, and a witness for the hypotheses of every statement. -/

namespace Sys2Proof.Tests

open Sys2Proof.Machine

/-! Ill-formed terms. -/

theorem test_encode_too_long : ¬ (Instr.encode 3 (List.replicate 65536 0)).WellFormed := by
  rw [Instr.WellFormed, Instr.wellFormed, List.length_replicate]
  decide

theorem test_reply_too_long :
    ¬ (Instr.reply ⟨0, 0, 0, 0, 0, 0, 0, 0, List.replicate 232 0⟩).WellFormed := by
  rw [Instr.WellFormed, Instr.wellFormed, List.length_replicate]
  decide

theorem test_label_known : ¬ (Instr.labelOther 82).WellFormed := by decide

/-! One word per constructor, written out from the encodings of 30_encoding.md. -/

/-- rx_event: `is_byte` in bit 11, `rx_state` in bits 10:8, the byte below (R111). -/
theorem test_decode_rx :
    decode .rxEvent [0b00000000, 0x00] = .ok .rxEmpty
    ∧ decode .rxEvent [0b00001000, 0x7E] = .ok (.rxPreStart 0x7E)
    ∧ decode .rxEvent [0b00001001, 0x52] = .ok (.rxGotStart 0x52)
    ∧ decode .rxEvent [0b00001010, 0x1A] = .ok (.rxGotLabel 0x1A)
    ∧ decode .rxEvent [0b00001011, 0x02] = .ok (.rxGotLengthLow 0x02)
    ∧ decode .rxEvent [0b00001100, 0xAA] = .ok (.rxInPayload 0xAA)
    ∧ decode .rxEvent [0b00001101, 0xE7] = .ok (.rxAwaitingEnd 0xE7)
    ∧ decode .rxEvent [0b00001110, 0x00] = .error .unusedRxState
    ∧ decode .rxEvent [0b00011000, 0x00] = .error .reservedBits := by
  exact ⟨rfl, rfl, rfl, rfl, rfl, rfl, rfl, rfl, rfl⟩

/-- frame_marker and the labels (R6, R99). -/
theorem test_decode_labels :
    decode .frameMarker [0b01111110] = .ok .som
    ∧ decode .frameMarker [0b11100111] = .ok .eom
    ∧ decode .outerLabel [0b00000011] = .ok .labelParameters
    ∧ decode .outerLabel [0b00000110] = .ok .labelDmxData
    ∧ decode .outerLabel [0b00001010] = .ok .labelSerialNumber
    ∧ decode .outerLabel [0b01001101] = .ok .labelManufacturer
    ∧ decode .outerLabel [0b01001110] = .ok .labelName
    ∧ decode .outerLabel [0b01010010] = .ok .labelRdm
    ∧ decode .outerLabelDefault [0b01010011] = .ok (.labelOther 83)
    ∧ decode .outerLabelDefault [0b01010010] = .error .knownLabel := by
  exact ⟨rfl, rfl, rfl, rfl, rfl, rfl, rfl, rfl, rfl, rfl⟩

/-- Whole frames: G3, the status frame of V8, and the reply D3 (R90, R97, R98). -/
theorem test_decode_frames :
    decode .outerFrame [0x7E, 0x52, 0x01, 0x00, 0x02, 0xE7] = .ok (.encode 82 [0x02])
    ∧ decode .outerFrame [0x7E, 0x52, 0x02, 0x00, 0x02, 0xE7] = .error .badFrameLength
    ∧ decode .statusFrame [0x7E, 0x52, 0x01, 0x00, 0x03, 0xE7, 0x00] = .ok (.status .badChecksum)
    ∧ decode .replyFrame [0x7E, 0x52, 0x1D, 0x00, 0x00, 0xCC, 0x01, 0x1A, 0x4F, 0x4C, 0x01, 0x02, 0x03,
        0x04, 0x7A, 0x70, 0x00, 0x00, 0x00, 0x01, 0x05, 0x02, 0x00, 0x00, 0x00, 0x21, 0x12, 0x34, 0x02,
        0x00, 0x00, 0x02, 0xE7, 0xE7]
      = .ok (.reply ⟨0x4F4C01020304, 0x7A7000000001, 5, 2, 0, 0, 0x21, 0x1234, [0, 0]⟩) := by
  exact ⟨rfl, rfl, rfl, rfl⟩

/-- The packet's codes and the check and step numbers (R6, R100, R110 and the table's step codes). -/
theorem test_decode_packet_codes :
    decode .rdmStartCode [0b11001100] = .ok .rdmSc
    ∧ decode .rdmSubStartCode [0b00000001] = .ok .rdmSubSc
    ∧ decode .rdmCommandClass [0b00100000] = .ok .ccGet
    ∧ decode .rdmCommandClass [0b00100001] = .ok .ccGetResponse
    ∧ decode .rdmCommandClass [0b00110000] = .ok .ccSet
    ∧ decode .rdmCommandClass [0b00110001] = .ok .ccSetResponse
    ∧ decode .validatorCheck [0b001] = .ok .validateSize
    ∧ decode .validatorCheck [0b010] = .ok .validateStartCodes
    ∧ decode .validatorCheck [0b011] = .ok .validateLength
    ∧ decode .validatorCheck [0b100] = .ok .validateChecksum
    ∧ decode .validatorCheck [0b101] = .ok .detectBroadcast
    ∧ decode .validatorCheck [0b110] = .ok .matchDestination
    ∧ decode .validatorCheck [0b111] = .ok .wrongDestination := by
  exact ⟨rfl, rfl, rfl, rfl, rfl, rfl, rfl, rfl, rfl, rfl, rfl, rfl, rfl⟩

/-- dispatch_step and pipeline. -/
theorem test_decode_steps :
    decode .dispatchStep [0b0001] = .ok .dispatchCcCheck
    ∧ decode .dispatchStep [0b0010] = .ok .dispatchSubdeviceRange
    ∧ decode .dispatchStep [0b0011] = .ok .dispatchUnknownPid
    ∧ decode .dispatchStep [0b0100] = .ok .dispatchGetNoHandler
    ∧ decode .dispatchStep [0b0101] = .ok .dispatchGetBroadcast
    ∧ decode .dispatchStep [0b0110] = .ok .dispatchGetSubdevice
    ∧ decode .dispatchStep [0b0111] = .ok .dispatchGetArgSize
    ∧ decode .dispatchStep [0b1000] = .ok .dispatchGetInvoke
    ∧ decode .dispatchStep [0b1001] = .ok .dispatchSetNoHandler
    ∧ decode .dispatchStep [0b1010] = .ok .dispatchSetInvoke
    ∧ decode .dispatchStep [0b1011] = .ok .dispatchPidLookup
    ∧ decode .pipeline [0b001] = .ok .emitFrame
    ∧ decode .pipeline [0b010] = .ok .processRdm
    ∧ decode .pipeline [0b011] = .ok .frameOut := by
  exact ⟨rfl, rfl, rfl, rfl, rfl, rfl, rfl, rfl, rfl, rfl, rfl, rfl, rfl, rfl⟩

/-- handler_port (R106). -/
theorem test_decode_port :
    decode .handlerPort [0x0, 0x00, 0x02, 0x21, 0x00, 0x50] = .ok (.startResponse 0 2 0x21 0x0050)
    ∧ decode .handlerPort [0x1, 0xAB] = .ok (.sendByte 0xAB)
    ∧ decode .handlerPort [0x2, 0x12, 0x34] = .ok (.sendInt 0x1234)
    ∧ decode .handlerPort [0x3, 0x01, 0x02, 0x03, 0x04] = .ok (.sendLong 0x01020304)
    ∧ decode .handlerPort [0x4] = .ok .endResponse
    ∧ decode .handlerPort [0x5] = .ok .sendEmptyAck
    ∧ decode .handlerPort [0x6, 0x00, 0x09] = .ok (.sendNack 9)
    ∧ decode .handlerPort [0x7, 0x00, 0x01] = .ok (.sendAckTimer 1)
    ∧ decode .handlerPort [0x8, 0x01, 0x00, 0x06] = .ok (.nackOrBroadcast true 6)
    ∧ decode .handlerPort [0x9, 0x06] = .ok (.reportStatus .broadcastNoReply)
    ∧ decode .handlerPort [0xB] = .ok (.handlerReservedAB 1)
    ∧ decode .handlerPort [0xE] = .ok (.handlerReservedCF 2)
    ∧ decode .handlerPort [0x10] = .error .reservedBits
    ∧ decode .handlerPort [0x4, 0x00] = .error .wrongLength := by
  exact ⟨rfl, rfl, rfl, rfl, rfl, rfl, rfl, rfl, rfl, rfl, rfl, rfl, rfl, rfl⟩

/-- The codes the block sends, and the request rows (R101, R102, R103, R252 to R257). -/
theorem test_decode_sent_codes :
    decode .rdmResponseType [0x00] = .ok .rtAck
    ∧ decode .rdmResponseType [0x01] = .ok .rtAckTimer
    ∧ decode .rdmResponseType [0x02] = .ok .rtNack
    ∧ decode .nackReason [0x00, 0x00] = .ok .nrUnknownPid
    ∧ decode .nackReason [0x00, 0x01] = .ok .nrFormatError
    ∧ decode .nackReason [0x00, 0x05] = .ok .nrUnsupportedCommandClass
    ∧ decode .nackReason [0x00, 0x06] = .ok .nrDataOutOfRange
    ∧ decode .nackReason [0x00, 0x09] = .ok .nrSubDeviceOutOfRange
    ∧ decode .statusCode [0x00] = .ok .statusOk
    ∧ decode .statusCode [0x01] = .ok .statusBroadcast
    ∧ decode .statusCode [0x02] = .ok .statusFailed
    ∧ decode .statusCode [0x03] = .ok .statusFailedChecksum
    ∧ decode .statusCode [0x04] = .ok .statusInvalidDestination
    ∧ decode .statusCode [0x05] = .ok .statusInvalidCommand
    ∧ decode .rdmRequest [0x20, 0x00, 0x50] = .ok .getSupportedParameters
    ∧ decode .rdmRequest [0x30, 0x00, 0x82] = .ok .setDeviceLabel
    ∧ decode .rdmRequest [0x30, 0x00, 0xF0] = .ok .setDmxStartAddress
    ∧ decode .rdmRequest [0x30, 0x80, 0x00] = .ok .setSerialNumber
    ∧ decode .rdmRequestPending [0x20, 0x00, 0x20] = .ok .getQueuedMessagePending
    ∧ decode .rdmRequestNotPending [0x20, 0x00, 0x20] = .ok .getQueuedMessageIdle := by
  exact ⟨rfl, rfl, rfl, rfl, rfl, rfl, rfl, rfl, rfl, rfl, rfl, rfl, rfl, rfl, rfl, rfl, rfl, rfl, rfl, rfl⟩

/-- Table words with no place given, in the order of log 3. -/
theorem test_table_words :
    decodeTableWord 16 0x0CAB = some (.rxInPayload 0xAB)
    ∧ decodeTableWord 16 0x0009 = some .nrSubDeviceOutOfRange
    ∧ decodeTableWord 8 0x7E = some .som
    ∧ decodeTableWord 8 0x02 = some (.sendInt 0)
    ∧ decodeTableWord 24 0x3000F0 = some .setDmxStartAddress
    ∧ decodeTableWord 8 0x100 = none := by
  exact ⟨rfl, rfl, rfl, rfl, rfl, rfl⟩

/-! Small states. -/

/-- The table `T_EX` of 95_test_vectors.md. -/
def tableEx : List PidDefinition :=
  [⟨0x0020, some .queuedMessage, none, 1, true⟩,
   ⟨0x0050, some .supportedParameters, none, 0, false⟩,
   ⟨0x0082, some (.readField .deviceLabel (.plain 0)), some .deviceLabel, 0, true⟩,
   ⟨0x00F0, some (.readField .startAddress (.plain 2)), some .startAddress, 0, false⟩,
   ⟨0x0202, none, some (.writeField .sensorValue), 0, true⟩]

/-- The fixture. -/
def fixture : State := { State.reset with cfg := { Config.default with pidTable := tableEx } }

/-- A list of bytes in the buffer from an offset on. -/
def cells (p : List Byte) (a : Nat) : Memory := (p.zipIdx a).map fun c => (c.2, c.1)

/-- The fixture with a frame of the given label and payload at its terminator, its size loaded. -/
def loaded (label : Byte) (p : List Byte) : State :=
  { fixture with
    buf := cells p 0
    rx := ⟨.awaitingEnd, label, BitVec.ofNat 16 p.length, BitVec.ofNat 16 p.length, false⟩
    val.size := BitVec.ofNat 16 p.length }

/-- A request to `dst` with its checksum. -/
def request (dst : List Byte) (sub : Word16) (cc : Byte) (pid : Word16) (params : List Byte) : List Byte :=
  let body := [0xCC, 0x01, BitVec.ofNat 8 (24 + params.length)] ++ dst ++ [0x4F, 0x4C, 0x01, 0x02, 0x03, 0x04]
    ++ [0x05, 0x01, 0x00] ++ bytes16 sub ++ [cc] ++ bytes16 pid ++ [BitVec.ofNat 8 params.length] ++ params
  body ++ bytes16 (checksum body)

/-- The fixture's UID. -/
def us : List Byte := [0x7A, 0x70, 0x00, 0x00, 0x00, 0x01]
/-- The all-devices destination. -/
def all : List Byte := [0xFF, 0xFF, 0xFF, 0xFF, 0xFF, 0xFF]

/-- `REQ0`. -/
def req0 : List Byte := request us 0 0x20 0x0050 []

/-- `REQ0` as the table writes it. -/
theorem test_req0 : req0 =
    [0xCC, 0x01, 0x18, 0x7A, 0x70, 0x00, 0x00, 0x00, 0x01, 0x4F, 0x4C, 0x01, 0x02, 0x03, 0x04, 0x05, 0x01,
     0x00, 0x00, 0x00, 0x20, 0x00, 0x50, 0x00, 0x02, 0xEB] := by decide

/-- What an operation adds to TX, the status log and the handler log of the fixture. -/
def outputs : Out → Option (List Byte × List StatusKind × List Invocation)
  | .next t => some (t.trace.tx, t.trace.statusLog, t.trace.handlerLog)
  | .fault _ => none
  | .refused _ => none

/-- The next state, if there is one. -/
def after : Out → Option State
  | .next t => some t
  | .fault _ => none
  | .refused _ => none

/-- The fault, if there is one. -/
def faultOf : Out → Option Fault
  | .next _ => none
  | .fault f => some f
  | .refused _ => none

/-- The processing of one RDM payload. -/
def processed (p : List Byte) : Out := exec .processRdm (loaded 82 p)

/-! Single steps on the vectors. -/

/-- V1, scenario D. -/
theorem test_V1 : outputs (processed [0xCC, 0x01, 0x08, 0, 0, 0, 0, 0, 0, 0])
    = some ([0x7E, 0x52, 0x01, 0x00, 0x02, 0xE7], [.tooShort], []) := by decide

/-- V8: one byte changed, the sum as it was. -/
theorem test_V8 : outputs (processed (req0.set 15 0x06))
    = some ([0x7E, 0x52, 0x01, 0x00, 0x03, 0xE7], [.badChecksum], []) := by decide

/-- V15: bytes 3 and 4 do not count for broadcast. -/
theorem test_V15 : outputs (processed (request [0x12, 0x34, 0xFF, 0xFF, 0xFF, 0xFF] 0 0x20 0x0050 []))
    = some ([0x7E, 0x52, 0x01, 0x00, 0x01, 0xE7], [.broadcastNoReply], []) := by decide

/-- V16. -/
theorem test_V16 : outputs (processed (request [0xFF, 0xFF, 0xFF, 0xFF, 0xFF, 0xFE] 0 0x20 0x0050 []))
    = some ([0x7E, 0x52, 0x01, 0x00, 0x04, 0xE7], [.wrongDestination], []) := by decide

/-- D2: sub-device 1. -/
theorem test_D2 : outputs (processed (request us 1 0x20 0x0050 []))
    = some ([0x7E, 0x52, 0x1D, 0x00, 0x00, 0xCC, 0x01, 0x1A, 0x4F, 0x4C, 0x01, 0x02, 0x03, 0x04, 0x7A, 0x70,
        0x00, 0x00, 0x00, 0x01, 0x05, 0x02, 0x00, 0x00, 0x01, 0x21, 0x00, 0x50, 0x02, 0x00, 0x09, 0x02,
        0xFB, 0xE7], [], []) := by decide

/-- D3: an unknown PID. -/
theorem test_D3 : outputs (processed (request us 0 0x20 0x1234 []))
    = some ([0x7E, 0x52, 0x1D, 0x00, 0x00, 0xCC, 0x01, 0x1A, 0x4F, 0x4C, 0x01, 0x02, 0x03, 0x04, 0x7A, 0x70,
        0x00, 0x00, 0x00, 0x01, 0x05, 0x02, 0x00, 0x00, 0x00, 0x21, 0x12, 0x34, 0x02, 0x00, 0x00, 0x02,
        0xE7, 0xE7], [], []) := by decide

/-- D10b: a broadcast SET is applied and silent. -/
theorem test_D10b :
    outputs (processed (request all 0 0x30 0x00F0 [0x01, 0x00]))
      = some ([0x7E, 0x52, 0x01, 0x00, 0x01, 0xE7], [.broadcastNoReply], [.set 3 true])
    ∧ (after (processed (request all 0 0x30 0x00F0 [0x01, 0x00]))).map (fun t => t.store.startAddress)
      = some 256 := by decide

/-- A1, scenario A. -/
theorem test_A1 : outputs (processed req0)
    = some ([0x7E, 0x52, 0x21, 0x00, 0x00, 0xCC, 0x01, 0x1E, 0x4F, 0x4C, 0x01, 0x02, 0x03, 0x04, 0x7A, 0x70,
        0x00, 0x00, 0x00, 0x01, 0x05, 0x00, 0x00, 0x00, 0x00, 0x21, 0x00, 0x50, 0x06, 0x00, 0x20, 0x00,
        0x82, 0x02, 0x02, 0x03, 0x9D, 0xE7], [], [.get 1]) := by decide

/-- B1, scenario B, with transaction 5: an ACK_TIMER, and the result is pending. -/
theorem test_B1 :
    (after (processed (request us 0 0x30 0x0082 [0x48, 0x65, 0x6C, 0x6C, 0x6F]))).map
      (fun t => (t.store.deviceLabel, t.flags, t.trace.tx.drop 20))
      = some ([0x48, 0x65, 0x6C, 0x6C, 0x6F], ⟨false, true, 1, false⟩,
          [0x05, 0x01, 0x00, 0x00, 0x00, 0x31, 0x00, 0x82, 0x02, 0x00, 0x01, 0x03, 0x33, 0xE7]) := by decide

/-- C1 and C2, scenario C, with transaction 5. -/
theorem test_C1_C2 :
    (outputs (processed (request us 0 0x30 0x00F0 [0x00, 0x00]))).map (fun o => o.1.drop 20)
      = some [0x05, 0x02, 0x00, 0x00, 0x00, 0x31, 0x00, 0xF0, 0x02, 0x00, 0x06, 0x03, 0xA7, 0xE7]
    ∧ (outputs (processed (request us 0 0x30 0x00F0 [0x00, 0x01]))).map (fun o => o.1.drop 20)
      = some [0x05, 0x00, 0x00, 0x00, 0x00, 0x31, 0x00, 0xF0, 0x00, 0x03, 0x9B, 0xE7] := by decide

/-- C8: declared bytes the packet does not carry. -/
theorem test_C8 :
    faultOf (processed ([0xCC, 0x01, 0x18] ++ us ++ [0x4F, 0x4C, 0x01, 0x02, 0x03, 0x04, 0x05, 0x01, 0x00, 0x00,
      0x00, 0x30, 0x00, 0xF0, 0x02, 0x03, 0x9D])) = some .bufOutOfBounds := by decide

/-- E5: misuse of the encoder. -/
theorem test_E5 :
    faultOf (exec (.sendByte 0) fixture) = some .noResponseOpen
    ∧ faultOf (exec (.startResponse 0 232 0x21 0x0050) fixture) = some .pdlTooLong := by decide

/-- F10: the length is little-endian. -/
theorem test_F10 :
    (after (exec (.rxGotLengthLow 0x01)
      { fixture with rx := ⟨.gotLengthLow, 0x4E, 0x0002, 0, false⟩ })).map (fun t => (t.rx.len, t.rx.state))
      = some (0x0102, .inPayload) := by decide

/-- F11: an empty poll in the middle of a frame. -/
theorem test_F11 :
    (after (exec .rxEmpty { fixture with rx.state := .gotLabel })).map (fun t => (t.trace.idleLog, t.rx.state))
      = some (1, .gotLabel) := by decide

/-- A word placed by the host is fetched and run. -/
theorem test_fetch_placed :
    (after (step (State.reset.withFetchWord 16 0x087E))).map (fun t => t.rx.state) = some .gotStart := by decide

/-! The agent and a struck reply. -/

/-- The request at a table with one entry, whose SET handler does the listed things. -/
def scripted (acts : List AgentAction) (p : List Byte) : State :=
  { loaded 82 p with cfg.pidTable := [⟨0x00F0, none, some (.script acts), 0, false⟩] }

/-- An agent writes its own state and a flag, then answers (R195). -/
theorem test_agent_writes :
    (after (exec .processRdm (scripted [.own [3, 1], .flags ⟨true, false, 0, false⟩, .port .sendEmptyAck]
      (request us 0 0x30 0x00F0 [0x00, 0x07])))).map (fun t => (t.agent, t.flags.identifyEnabled, t.enc.done))
      = some ([3, 1], true, true) := by decide

/-- A handler's access of a parameter byte the request does not declare (R66). -/
theorem test_agent_param :
    faultOf (exec .processRdm (scripted [.param 1, .param 2] (request us 0 0x30 0x00F0 [0x00, 0x07])))
      = some .bufOutOfBounds := by decide

/-- The reply of D3 cut off after ten bytes, and the block in `PRE_START` (R322). -/
theorem test_struck_reply :
    (after (step { loaded 82 (request us 0 0x20 0x1234 []) with
      input := [.resetDuring (some 0xE7) 10] })).map (fun t => (t.past, t.trace.tx, t.rx.state))
      = some ([[0x7E, 0x52, 0x1D, 0x00, 0x00, 0xCC, 0x01, 0x1A, 0x4F, 0x4C]], [], .preStart) := by decide

/-- A1's request under another transaction number, `06`: another echo, and another checksum at both ends (R259). -/
theorem test_retagged :
    (retagged 0x06 req0).drop 15
      = [0x06, 0x01, 0x00, 0x00, 0x00, 0x20, 0x00, 0x50, 0x00, 0x02, 0xEC]
    ∧ (outputs (processed (retagged 0x06 req0))).map (fun o => o.1.drop 20)
      = some [0x06, 0x00, 0x00, 0x00, 0x00, 0x21, 0x00, 0x50, 0x06, 0x00, 0x20, 0x00, 0x82, 0x02, 0x02, 0x03,
          0x9E, 0xE7] := by decide

/-! Witnesses: for every statement with hypotheses, states and operands that meet them, each clause at a boundary. -/

/-- `Readable`, decided. -/
def readableB (s : State) (n : Nat) : Bool :=
  decide (n ≤ s.val.size.toNat) && (List.range n).all fun i => (Memory.read s.buf i).isSome

theorem readable_of {s : State} {n : Nat} (h : readableB s n = true) : Readable s n := by
  simp only [readableB, Bool.and_eq_true, decide_eq_true_eq, List.all_eq_true, List.mem_range] at h
  exact ⟨h.1, fun i hi => Option.isSome_iff_exists.1 (h.2 i hi)⟩

/-- `PayloadFilled`, decided. -/
def filledB (s : State) : Bool := (List.range s.rx.len.toNat).all fun i => (Memory.read s.buf i).isSome

theorem filled_of {s : State} (h : filledB s = true) : PayloadFilled s := by
  simp only [filledB, List.all_eq_true, List.mem_range] at h
  exact fun i hi => Option.isSome_iff_exists.1 (h i hi)

theorem next_of {o : Out} (h : (after o).isSome = true) : ∃ t, o = .next t := by
  cases o with
  | next t => exact ⟨t, rfl⟩
  | fault f => cases h
  | refused r => cases h

/-- The loaded request, one of its flags or registers set. -/
def bcastReq (p : List Byte) : State :=
  { loaded 82 p with val.isBroadcast := true, ctx.bcast := true }
/-- A response is open with `n` bytes owed. -/
def opening (n : BitVec 9) : State := { fixture with enc := ⟨0, true, n, false⟩ }
/-- A result is pending. -/
def pending : State := { fixture with flags := ⟨false, true, 1, false⟩ }
/-- The request with the dispatcher at a table entry. -/
def atEntry (p : List Byte) (i : Nat) : State := { loaded 82 p with disp.idx := i, disp.found := true }
/-- The SET of start address 7, and a SET of five label bytes. -/
def setAddr : List Byte := request us 0 0x30 0x00F0 [0x00, 0x07]
/-- See `setAddr`. -/
def setLabel : List Byte := request us 0 0x30 0x0082 [0x48, 0x65, 0x6C, 0x6C, 0x6F]
/-- A SET of the serial number. -/
def setSerial (v : List Byte) : List Byte := request us 0 0x30 0x8000 v

theorem witness_DecodeEncodeRoundTrip :
    (Instr.encode 3 (List.replicate 65535 0)).WellFormed
    ∧ (Instr.reply ⟨0, 0, 0, 0, 0, 0, 0, 0, List.replicate 231 0⟩).WellFormed
    ∧ (Instr.labelOther 0).WellFormed ∧ (Instr.labelOther 255).WellFormed ∧ Instr.som.WellFormed := by
  refine ⟨?_, ?_, by decide, by decide, by decide⟩
  · rw [Instr.WellFormed, Instr.wellFormed, List.length_replicate]; decide
  · rw [Instr.WellFormed, Instr.wellFormed, List.length_replicate]; decide

theorem witness_DecodeIsExact :
    decode .outerFrame [0x7E, 0x03, 0x00, 0x00, 0xE7] = .ok (.encode 3 [])
    ∧ decode .rxEvent [0x07, 0xFF] = .ok .rxEmpty := ⟨rfl, rfl⟩

theorem witness_StepRunsReceivedByte : (withBytes [0x7E] fixture).input = .rxByte 0x7E :: [] := rfl

theorem witness_StepRunsDecodedInstruction :
    ({ fixture with input := [.call .pipeline [3]] } : State).input = .call .pipeline [3] :: []
    ∧ decode .pipeline [3] = .ok .frameOut
    ∧ decode .pipeline [4] = .error .unknownCode
    ∧ ({ fixture with input := [.rxEmpty] } : State).input = .rxEmpty :: []
    ∧ fixture.input = [] := ⟨rfl, rfl, rfl, rfl, rfl⟩

theorem witness_ResetLeaves :
    ({ pending with input := [.reset, .rxEmpty] } : State).input = .reset :: [.rxEmpty] := rfl

/-- A byte event that completes a reply, and an empty poll, each struck. -/
theorem witness_ResetTruncatesReply :
    (∃ u bs, step { loaded 82 req0 with input := .rxByte 0xE7 :: [] } = .next u
      ∧ u.trace.tx = (loaded 82 req0).trace.tx ++ bs ∧ bs.length = 38
      ∧ ({ loaded 82 req0 with input := [.resetDuring (some 0xE7) 20] } : State).input
        = .resetDuring (some 0xE7) 20 :: [])
    ∧ ∃ u, step { fixture with input := .rxEmpty :: [], cfg.idleCalls := [⟨3, [0xAA]⟩] } = .next u
      ∧ u.trace.tx = fixture.trace.tx ++ [0x7E, 0x03, 0x01, 0x00, 0xAA, 0xE7] :=
  ⟨⟨_, _, rfl, rfl, by decide, rfl⟩, _, rfl, rfl⟩

theorem witness_RxEmptyIdles :
    fixture.cfg.idleCalls = [] ∧ fixture.enc.busy = false
    ∧ ∀ c ∈ ([⟨3, [0xAA]⟩] : List EncodeCall), c.payload.length ≤ 65535 := by decide

theorem witness_PayloadByteIsStored :
    ({ fixture with rx.ovf := true } : State).rx.ovf = true
    ∧ ({ fixture with rx.cnt := 599 } : State).rx.cnt.toNat < fixture.cfg.frameCap := by decide

theorem witness_TerminatorEmitsOrDiscards :
    ((0x7E : Byte) ≠ 0xE7 ∧ ({ fixture with rx.ovf := true } : State).rx.ovf = true)
    ∧ (loaded 3 [0xAA]).rx.ovf = false
    ∧ (∃ t, exec .emitFrame (loaded 3 [0xAA]) = .next t)
    ∧ exec .emitFrame { loaded 3 [0xAA] with buf := [] } = .fault .readUnwritten :=
  ⟨by decide, rfl, next_of (by decide), rfl⟩

theorem witness_MarkerRows :
    ({ fixture with rx.ovf := true } : State).rx.ovf = true
    ∧ (loaded 3 [0xAA]).rx.ovf = false ∧ (∃ t, exec .emitFrame (loaded 3 [0xAA]) = .next t)
    ∧ (loaded 3 [0xAA]).rx.label ≠ 0x52 ∧ PayloadFilled (loaded 3 [0xAA])
    ∧ (loaded 3 [0xAA]).enc.busy = false
    ∧ ∀ c ∈ (loaded 3 [0xAA]).cfg.frameOutCalls, c.payload.length ≤ 65535 :=
  ⟨rfl, rfl, next_of (by decide), by decide, filled_of (by decide), rfl, by decide⟩

/-- F8: capacity 4, length 5. -/
theorem witness_OversizeFrameIsSwallowed :
    ({ fixture with cfg.frameCap := 4 } : State).rx.state = .preStart
    ∧ ({ fixture with cfg.frameCap := 4 } : State).cfg.frameCap < (5 : Word16).toNat
    ∧ [0x7E, 0x06, 0x01, 0x00, (0xE7 : Byte)].length = (5 : Word16).toNat := by decide

theorem witness_EncodedFrameIsDeframed :
    ({ fixture with cfg.frameCap := 4 } : State).rx.state = .preStart
    ∧ [0x01, 0x02, 0x03, (0x04 : Byte)].length ≤ ({ fixture with cfg.frameCap := 4 } : State).cfg.frameCap
    ∧ [0x01, 0x02, 0x03, (0x04 : Byte)].length ≤ 65535
    ∧ ∃ t, exec .emitFrame (loaded 3 [0x01, 0x02, 0x03, 0x04]) = .next t :=
  ⟨rfl, by decide, by decide, next_of (by decide)⟩

/-- The position after `k` bytes of F2. -/
def position (k : Nat) : Option RxState :=
  (after (runSteps k (withBytes ([0x7E, 0x4D, 0x00, 0x00] ++ [0xE7]) fixture))).map fun t => t.rx.state

theorem witness_DeframedBytesAreEncoding :
    fixture.rx.state = .preStart
    ∧ (∃ u, runSteps 4 (withBytes ([0x7E, 0x4D, 0x00, 0x00] ++ [0xE7]) fixture) = .next u
      ∧ u.rx.state = .awaitingEnd ∧ u.rx.ovf = false)
    ∧ ∀ k v, 0 < k → k ≤ 4 →
      runSteps k (withBytes ([0x7E, 0x4D, 0x00, 0x00] ++ [0xE7]) fixture) = .next v →
      v.rx.state ≠ .preStart := by
  refine ⟨rfl, ⟨_, rfl, by decide, by decide⟩, fun k v h0 h4 h => ?_⟩
  have p : ∀ j, j < 5 → 0 < j → position j ≠ some .preStart := by decide
  have q := p k (by omega) h0
  simp only [position, h, after, Option.map_some, ne_eq, Option.some.injEq] at q
  exact q

theorem witness_FramesAreRouted :
    (loaded 82 []).rx.label = 82
    ∧ PayloadFilled (loaded 3 [0xAA]) ∧ (loaded 3 [0xAA]).rx.label ≠ 82 ∧ (loaded 3 [0xAA]).rx.ovf = false
    ∧ (∀ c ∈ ([⟨6, [0x01]⟩] : List EncodeCall), c.payload.length ≤ 65535)
    ∧ (loaded 3 [0xAA]).cfg.frameOutCalls = [] ∧ (loaded 3 [0xAA]).enc.busy = false :=
  ⟨rfl, filled_of (by decide), by decide, rfl, by decide, rfl, rfl⟩

theorem witness_LabelRowsRoute :
    PayloadFilled (loaded 83 [0xAA])
    ∧ (∀ c ∈ (loaded 83 [0xAA]).cfg.frameOutCalls, c.payload.length ≤ 65535)
    ∧ (loaded 83 [0xAA]).cfg.frameOutCalls = [] ∧ (Instr.labelOther 83).WellFormed :=
  ⟨filled_of (by decide), by decide, rfl, by decide⟩

theorem witness_EveryLawfulFrameIsAnswered :
    Answerable (loaded 82 setAddr) ∧ Answerable (loaded 82 (List.replicate 25 0))
    ∧ (loaded 82 setAddr).enc.done = false ∧ (loaded 82 setAddr).rx.label = 82
    ∧ (loaded 82 setAddr).rx.ovf = false :=
  ⟨⟨filled_of (by decide), by decide, rfl, .inr (by decide)⟩,
   ⟨filled_of (by decide), by decide, rfl, .inl (by decide)⟩, rfl, rfl, rfl⟩

theorem witness_ExactlyOneOutcome :
    (loaded 82 req0).enc.busy = false ∧ ∃ t, exec .labelRdm (loaded 82 req0) = .next t :=
  ⟨rfl, next_of (by decide)⟩

theorem witness_BroadcastGetsNoReply :
    (loaded 82 (request all 0 0x30 0x00F0 [1, 0])).enc.busy = false
    ∧ (∀ i, 5 ≤ i → i ≤ 8 → Memory.read (loaded 82 (request all 0 0x30 0x00F0 [1, 0])).buf i = some 0xFF)
    ∧ (∃ t, exec .labelRdm (loaded 82 (request all 0 0x30 0x00F0 [1, 0])) = .next t)
    ∧ Ready (bcastReq req0) ∧ (bcastReq req0).ctx.bcast = true := by
  refine ⟨rfl, fun i h5 h8 => ?_, next_of (by decide), ⟨rfl, rfl⟩, rfl⟩
  have p : ∀ j, j < 9 → 5 ≤ j →
      Memory.read (loaded 82 (request all 0 0x30 0x00F0 [1, 0])).buf j = some 0xFF := by decide
  exact p i (by omega) h5

theorem witness_FirstFailureDecides :
    PayloadFilled (loaded 82 req0) ∧ Ready (loaded 82 req0)
    ∧ expectedEnd fixture.cfg fixture.store [] = .status .tooShort
    ∧ expectedEnd fixture.cfg fixture.store (request us 1 0x20 0x0050 []) = .nack 9
    ∧ expectedEnd fixture.cfg fixture.store req0 = .invoke (.get 1)
    ∧ payloadOf (loaded 82 req0) = req0 ∧ ∃ t, exec .processRdm (loaded 82 req0) = .next t :=
  ⟨filled_of (by decide), ⟨rfl, rfl⟩, by decide, by decide, by decide, by decide, next_of (by decide)⟩

theorem witness_SizeCheck :
    26 ≤ (loaded 82 req0).val.size.toNat ∧ (loaded 82 (req0.take 25)).val.size.toNat < 26
    ∧ Ready (loaded 82 (req0.take 25)) := ⟨by decide, by decide, rfl, rfl⟩

theorem witness_StartCodeCheck_RequestCodeRows :
    Readable (loaded 82 [0xCC, 0x01]) 2 ∧ byteAt (loaded 82 [0xCC, 0x01]) 0 = 0xCC
    ∧ byteAt (loaded 82 [0xCC, 0x01]) 1 = 0x01
    ∧ Readable (loaded 82 [0xCD, 0x02]) 2 ∧ byteAt (loaded 82 [0xCD, 0x02]) 0 ≠ 0xCC
    ∧ byteAt (loaded 82 [0xCD, 0x02]) 1 ≠ 0x01 ∧ Ready (loaded 82 [0xCD, 0x02]) :=
  ⟨readable_of (by decide), by decide, by decide, readable_of (by decide), by decide, by decide, rfl, rfl⟩

theorem witness_LengthCheck :
    Readable (loaded 82 req0) 3 ∧ (byteAt (loaded 82 req0) 2).toNat + 2 = (loaded 82 req0).val.size.toNat
    ∧ Readable (loaded 82 (req0.set 2 0x19)) 3
    ∧ (byteAt (loaded 82 (req0.set 2 0x19)) 2).toNat + 2 ≠ (loaded 82 (req0.set 2 0x19)).val.size.toNat
    ∧ Ready (loaded 82 (req0.set 2 0x19)) :=
  ⟨readable_of (by decide), by decide, readable_of (by decide), by decide, rfl, rfl⟩

theorem witness_ChecksumCheck :
    (loaded 82 req0).val.size.toNat = 24 + 2 ∧ Readable (loaded 82 req0) (24 + 2)
    ∧ bytes16 (checksum (bytesAt (loaded 82 req0) 0 24))
      = [byteAt (loaded 82 req0) 24, byteAt (loaded 82 req0) (24 + 1)]
    ∧ (loaded 82 [0x00, 0x01]).val.size.toNat = 0 + 2 ∧ Readable (loaded 82 [0x00, 0x01]) (0 + 2)
    ∧ bytes16 (checksum (bytesAt (loaded 82 [0x00, 0x01]) 0 0))
      ≠ [byteAt (loaded 82 [0x00, 0x01]) 0, byteAt (loaded 82 [0x00, 0x01]) (0 + 1)]
    ∧ Ready (loaded 82 [0x00, 0x01]) :=
  ⟨by decide, readable_of (by decide), by decide, by decide, readable_of (by decide), by decide, rfl, rfl⟩

theorem witness_BroadcastIsBytes5To8_DestinationMatch :
    Readable (loaded 82 (req0.take 9)) 9
    ∧ ({ fixture with val.toUs := true } : State).val.toUs = true
    ∧ fixture.val.toUs = false ∧ Ready fixture := ⟨readable_of (by decide), rfl, rfl, rfl, rfl⟩

theorem witness_MutationIsRejected :
    PayloadFilled (loaded 82 req0) ∧ Ready (loaded 82 req0)
    ∧ packetPasses (payloadOf (loaded 82 req0)) = true
    ∧ 23 + 3 ≤ (loaded 82 req0).rx.len.toNat
    ∧ (0x01 : Byte) ≠ byteAt (loaded 82 req0) 23
    ∧ (0x01 : Byte) ≠ byteAt (loaded 82 req0) 0 ∧ (0x01 : Byte) ≠ byteAt (loaded 82 req0) 2 :=
  ⟨filled_of (by decide), ⟨rfl, rfl⟩, by decide, by decide, by decide, by decide, by decide⟩

theorem witness_CommandClassCheck_RequestCodeRows :
    Readable (loaded 82 (req0.take 21)) 21 ∧ byteAt (loaded 82 (req0.take 21)) 20 = 0x20
    ∧ byteAt (loaded 82 setAddr) 20 = 0x30
    ∧ Readable (loaded 82 (req0.set 20 0x10)) 21 ∧ byteAt (loaded 82 (req0.set 20 0x10)) 20 ≠ 0x20
    ∧ byteAt (loaded 82 (req0.set 20 0x10)) 20 ≠ 0x30 ∧ Ready (loaded 82 (req0.set 20 0x10)) :=
  ⟨readable_of (by decide), by decide, by decide, readable_of (by decide), by decide, by decide, rfl, rfl⟩

theorem witness_SubDeviceCheck :
    Readable (loaded 82 (req0.take 20)) 20
    ∧ (0x0000 : Word16) = be16 (byteAt (loaded 82 (req0.take 20)) 18) (byteAt (loaded 82 (req0.take 20)) 19)
    ∧ (0xFFFF : Word16) = be16 (byteAt (loaded 82 (request us 0xFFFF 0x20 0x0050 [])) 18)
        (byteAt (loaded 82 (request us 0xFFFF 0x20 0x0050 [])) 19)
    ∧ (0xFFFE : Word16) = be16 (byteAt (loaded 82 (request us 0xFFFE 0x20 0x0050 [])) 18)
        (byteAt (loaded 82 (request us 0xFFFE 0x20 0x0050 [])) 19)
    ∧ (0xFFFE : Word16) ≠ 0x0000 ∧ (0xFFFE : Word16) ≠ 0xFFFF :=
  ⟨readable_of (by decide), by decide, by decide, by decide, by decide, by decide⟩

/-- A PID of the table and one outside it: both halves of the lookup are reached. -/
theorem witness_LookupTakesLastMatch :
    Readable (loaded 82 (req0.take 23)) 23
    ∧ (0x0050 : Word16) = be16 (byteAt (loaded 82 (req0.take 23)) 21) (byteAt (loaded 82 (req0.take 23)) 22)
    ∧ (after (exec .dispatchPidLookup (loaded 82 req0))).map (fun t => t.disp.found) = some true
    ∧ (after (exec .dispatchPidLookup (loaded 82 (request us 0 0x20 0x1234 [])))).map (fun t => t.disp.found)
      = some false :=
  ⟨readable_of (by decide), by decide, by decide, by decide⟩

theorem witness_MissingHandlersAreRefused :
    (atEntry req0 1).disp.found = true ∧ fixture.disp.found = false
    ∧ (∃ e, (atEntry req0 1).cfg.pidTable[(atEntry req0 1).disp.idx]? = some e
      ∧ e.get.isSome = true ∧ e.set = none)
    ∧ (∃ e, (atEntry req0 4).cfg.pidTable[(atEntry req0 4).disp.idx]? = some e
      ∧ e.get = none ∧ e.set.isSome = true) :=
  ⟨rfl, rfl, ⟨_, rfl, rfl, rfl⟩, ⟨_, rfl, rfl, rfl⟩⟩

theorem witness_GetChecks :
    (atEntry req0 1).val.isBroadcast = false ∧ (bcastReq req0).val.isBroadcast = true ∧ Ready (bcastReq req0)
    ∧ fixture.disp.sub = 0x0000 ∧ ({ fixture with disp.sub := 0xFFFF } : State).disp.sub ≠ 0x0000
    ∧ Readable (atEntry (req0.take 24) 1) 24
    ∧ (∃ e, (atEntry (req0.take 24) 1).cfg.pidTable[(atEntry (req0.take 24) 1).disp.idx]? = some e
      ∧ byteAt (atEntry (req0.take 24) 1) 23 = e.getArgLen)
    ∧ (∃ e, (atEntry (req0.take 24) 0).cfg.pidTable[(atEntry (req0.take 24) 0).disp.idx]? = some e
      ∧ byteAt (atEntry (req0.take 24) 0) 23 ≠ e.getArgLen) :=
  ⟨rfl, rfl, ⟨rfl, rfl⟩, rfl, by decide, readable_of (by decide), ⟨_, rfl, by decide⟩, ⟨_, rfl, by decide⟩⟩

theorem witness_ClassRowsRunTheirPath :
    Readable (atEntry req0 1) 24
    ∧ (∃ e, (atEntry req0 1).cfg.pidTable[(atEntry req0 1).disp.idx]? = some e
      ∧ e.get.isSome = true ∧ (atEntry req0 1).val.isBroadcast = false ∧ (atEntry req0 1).disp.sub = 0x0000
      ∧ byteAt (atEntry req0 1) 23 = e.getArgLen ∧ e.set = none)
    ∧ (∃ e, (atEntry req0 4).cfg.pidTable[(atEntry req0 4).disp.idx]? = some e
      ∧ e.get = none ∧ e.set.isSome = true)
    ∧ (∃ e, (atEntry req0 0).cfg.pidTable[(atEntry req0 0).disp.idx]? = some e
      ∧ e.get.isSome = true ∧ byteAt (atEntry req0 0) 23 ≠ e.getArgLen)
    ∧ ({ atEntry req0 1 with val.isBroadcast := true } : State).val.isBroadcast = true
    ∧ ({ atEntry req0 1 with disp.sub := 0xFFFF } : State).disp.sub ≠ 0x0000 :=
  ⟨readable_of (by decide), ⟨_, rfl, rfl, rfl, rfl, by decide, rfl⟩, ⟨_, rfl, rfl, rfl⟩,
   ⟨_, rfl, rfl, by decide⟩, rfl, by decide⟩

theorem witness_LawfulHandlersComplete :
    Ready (atEntry req0 1) ∧ (includedPids (atEntry req0 1).cfg).length ≤ 115
    ∧ (∃ e b, (atEntry req0 1).cfg.pidTable[(atEntry req0 1).disp.idx]? = some e ∧ e.get = some b
      ∧ lawfulGet b = true ∧ byteAt (atEntry req0 1) 23 = e.getArgLen)
    ∧ (atEntry req0 1).ctx.bcast = false
    ∧ Readable (atEntry req0 1) (24 + (byteAt (atEntry req0 1) 23).toNat)
    ∧ 26 + (byteAt (atEntry req0 1) 23).toNat ≤ (atEntry req0 1).val.size.toNat
    ∧ (atEntry req0 1).val.isBroadcast = false ∧ (atEntry req0 1).disp.sub = 0x0000
    ∧ (∃ e b, (atEntry setAddr 3).cfg.pidTable[(atEntry setAddr 3).disp.idx]? = some e ∧ e.set = some b
      ∧ lawfulSet b = true)
    ∧ (atEntry setAddr 3).ctx.bcast = (atEntry setAddr 3).val.isBroadcast
    ∧ Readable (atEntry setAddr 3) (24 + (byteAt (atEntry setAddr 3) 23).toNat)
    ∧ 26 + (byteAt (atEntry setAddr 3) 23).toNat ≤ (atEntry setAddr 3).val.size.toNat :=
  ⟨⟨rfl, rfl⟩, by decide, ⟨_, _, rfl, rfl, rfl, by decide⟩, rfl, readable_of (by decide), by decide,
   rfl, rfl, ⟨_, _, rfl, rfl, rfl⟩, rfl, readable_of (by decide), by decide⟩

theorem witness_InvocationFrame :
    (∃ t, exec .dispatchGetInvoke (atEntry req0 1) = .next t)
    ∧ (∃ t, exec .dispatchSetInvoke (atEntry setAddr 3) = .next t)
    ∧ (∃ t, exec .ccGet (atEntry req0 1) = .next t) ∧ (∃ t, exec .ccSet (atEntry setAddr 3) = .next t)
    ∧ quietConfig (atEntry req0 1).cfg = true ∧ (atEntry req0 1).flags.labelPending = false
    ∧ (∃ t, exec .processRdm (loaded 82 setLabel) = .next t)
    ∧ ∃ t, exec .labelRdm (loaded 82 setLabel) = .next t :=
  ⟨next_of (by decide), next_of (by decide), next_of (by decide), next_of (by decide), by decide,
   rfl, next_of (by decide), next_of (by decide)⟩

/-- A ready encoder and a unicast request: the hypotheses of the replies, up to the longest parameter data. -/
theorem witness_StartResponseBytes_ConvenienceReplies_SentCodeRows_ReplyFrameLayout :
    Ready fixture ∧ fixture.ctx.bcast = false ∧ (231 : Byte).toNat ≤ 231
    ∧ (List.replicate 231 (0 : Byte)).length ≤ 231 :=
  ⟨⟨rfl, rfl⟩, rfl, by decide, Nat.le_of_eq List.length_replicate⟩

theorem witness_SendsAreBigEndian_EndResponseCloses :
    (opening 1).enc.busy = true ∧ 1 ≤ (opening 1).enc.remaining.toNat
    ∧ 2 ≤ (opening 2).enc.remaining.toNat ∧ 4 ≤ (opening 4).enc.remaining.toNat
    ∧ (opening 0).enc.remaining = 0 := by decide

theorem witness_SuppressedReplies_StatusIsTaken :
    (bcastReq req0).ctx.bcast = true ∧ Ready (bcastReq req0)
    ∧ fixture.ctx.bcast = false ∧ Ready fixture
    ∧ (StatusKind.tooShort ≠ .broadcastNoReply ∨ (bcastReq req0).ctx.bcast = false)
    ∧ (StatusKind.broadcastNoReply ≠ .broadcastNoReply ∨ fixture.ctx.bcast = false) :=
  ⟨rfl, ⟨rfl, rfl⟩, rfl, ⟨rfl, rfl⟩, .inl (by decide), .inr rfl⟩

theorem witness_MisuseFaults :
    (opening 0).enc.busy = true ∧ (opening 0).enc.remaining.toNat < 1
    ∧ (opening 1).enc.remaining.toNat < 2 ∧ (opening 3).enc.remaining.toNat < 4
    ∧ (opening 1).enc.remaining ≠ 0
    ∧ fixture.enc.busy = false ∧ ({ fixture with enc.done := true } : State).enc.done = true
    ∧ Ready fixture ∧ (bcastReq req0).ctx.bcast = true ∧ 231 < (232 : Byte).toNat :=
  ⟨rfl, by decide, by decide, by decide, by decide, rfl, rfl, ⟨rfl, rfl⟩, rfl, by decide⟩

theorem witness_ReservedPortCodesStop :
    10 ≤ (0xA : Byte).toNat ∧ (0xA : Byte).toNat ≤ 15 ∧ 10 ≤ (0xF : Byte).toNat ∧ (0xF : Byte).toNat ≤ 15 := by
  decide

theorem witness_EncodeFrames :
    fixture.enc.busy = false ∧ (opening 0).enc.busy = true
    ∧ (List.replicate 65535 (0 : Byte)).length ≤ 65535
    ∧ 65535 < (List.replicate 65536 (0 : Byte)).length := by
  rw [List.length_replicate, List.length_replicate]
  decide

theorem witness_RepliesAreWellFormed :
    (List.replicate 231 (0 : Byte)).length ≤ 231 ∧ fixture.rx.state = .preStart
    ∧ 27 + 231 ≤ fixture.cfg.frameCap
    ∧ (loaded 82 req0).val.size.toNat = req0.length ∧ Readable (loaded 82 req0) req0.length
    ∧ bytesAt (loaded 82 req0) 0 req0.length = req0 :=
  ⟨Nat.le_of_eq List.length_replicate, rfl, by decide, by decide, readable_of (by decide), by decide⟩

/-- A table with `n` included entries. -/
def included (n : Nat) : State :=
  { fixture with cfg.pidTable := List.replicate n ⟨0x0050, some .supportedParameters, none, 0, true⟩ }

theorem witness_SupportedParametersReply :
    Ready (included 115) ∧ (included 115).ctx.bcast = false
    ∧ (((included 115).cfg.pidTable.filter fun e => e.included).map fun e => e.pid).length ≤ 115
    ∧ 115 < (((included 116).cfg.pidTable.filter fun e => e.included).map fun e => e.pid).length :=
  ⟨⟨rfl, rfl⟩, rfl, by decide, by decide⟩

theorem witness_DeviceLabelSetIsDeferred :
    Readable (loaded 82 setLabel) 24 ∧ (byteAt (loaded 82 setLabel) 23).toNat = 5
    ∧ 5 ≤ (loaded 82 setLabel).cfg.labelMax ∧ Readable (loaded 82 setLabel) (24 + 5)
    ∧ 26 + 5 ≤ (loaded 82 setLabel).val.size.toNat ∧ Ready (loaded 82 setLabel)
    ∧ (loaded 82 setLabel).ctx.bcast = (loaded 82 setLabel).val.isBroadcast
    ∧ (loaded 82 setLabel).val.isBroadcast = false ∧ (bcastReq setLabel).val.isBroadcast = true
    ∧ (bcastReq setLabel).ctx.bcast = (bcastReq setLabel).val.isBroadcast
    ∧ Readable (loaded 82 (request us 0 0x30 0x0082 (List.replicate 33 0))) 24
    ∧ fixture.cfg.labelMax
      < (byteAt (loaded 82 (request us 0 0x30 0x0082 (List.replicate 33 0))) 23).toNat :=
  ⟨readable_of (by decide), by decide, by decide, readable_of (by decide), by decide, ⟨rfl, rfl⟩, rfl, rfl, rfl,
   rfl, readable_of (by decide), by decide⟩

theorem witness_QueuedMessageReplies :
    Ready pending ∧ pending.ctx.bcast = false ∧ pending.flags.labelPending = true
    ∧ Ready fixture ∧ fixture.flags.labelPending = false := ⟨⟨rfl, rfl⟩, rfl, rfl, ⟨rfl, rfl⟩, rfl⟩

/-- The start address's byte string `p` declares two bytes and carries the value `v`. -/
def CarriesAddress (p : List Byte) (v : Word16) : Prop :=
  Readable (loaded 82 p) 26 ∧ byteAt (loaded 82 p) 23 = 2 ∧ 28 ≤ (loaded 82 p).val.size.toNat
    ∧ v = be16 (byteAt (loaded 82 p) 24) (byteAt (loaded 82 p) 25)

theorem witness_StartAddressSet :
    (Readable (loaded 82 req0) 24 ∧ byteAt (loaded 82 req0) 23 ≠ 2)
    ∧ (byteAt (loaded 82 (req0.set 23 2)) 23 = 2 ∧ (loaded 82 (req0.set 23 2)).val.size.toNat < 28
      ∧ Readable (loaded 82 (req0.set 23 2)) (loaded 82 (req0.set 23 2)).val.size.toNat)
    ∧ CarriesAddress (request us 0 0x30 0x00F0 [0x00, 0x00]) 0
    ∧ CarriesAddress (request us 0 0x30 0x00F0 [0x02, 0x01]) 513
    ∧ fixture.cfg.startAddressMax < (513 : Word16).toNat
    ∧ CarriesAddress (request us 0 0x30 0x00F0 [0x02, 0x00]) 512
    ∧ (512 : Word16) ≠ 0 ∧ (512 : Word16).toNat ≤ fixture.cfg.startAddressMax
    ∧ Ready (loaded 82 setAddr) ∧ (loaded 82 setAddr).ctx.bcast = (loaded 82 setAddr).val.isBroadcast :=
  ⟨⟨readable_of (by decide), by decide⟩, ⟨by decide, by decide, readable_of (by decide)⟩,
   ⟨readable_of (by decide), by decide, by decide, by decide⟩,
   ⟨readable_of (by decide), by decide, by decide, by decide⟩, by decide,
   ⟨readable_of (by decide), by decide, by decide, by decide⟩, by decide, by decide, ⟨rfl, rfl⟩, rfl⟩

theorem witness_SerialNumberSet :
    (Readable (loaded 82 req0) 24 ∧ byteAt (loaded 82 req0) 23 ≠ 4)
    ∧ (byteAt (loaded 82 (setSerial [0xFF, 0xFF, 0xFF, 0xFF])) 23 = 4
      ∧ 30 ≤ (loaded 82 (setSerial [0xFF, 0xFF, 0xFF, 0xFF])).val.size.toNat
      ∧ Readable (loaded 82 (setSerial [0xFF, 0xFF, 0xFF, 0xFF])) 28
      ∧ (0xFFFFFFFF : Word32) = be32 (byteAt (loaded 82 (setSerial [0xFF, 0xFF, 0xFF, 0xFF])) 24)
        (byteAt (loaded 82 (setSerial [0xFF, 0xFF, 0xFF, 0xFF])) 25)
        (byteAt (loaded 82 (setSerial [0xFF, 0xFF, 0xFF, 0xFF])) 26)
        (byteAt (loaded 82 (setSerial [0xFF, 0xFF, 0xFF, 0xFF])) 27))
    ∧ (0xFFFFFFFE : Word32) = be32 (byteAt (loaded 82 (setSerial [0xFF, 0xFF, 0xFF, 0xFE])) 24)
        (byteAt (loaded 82 (setSerial [0xFF, 0xFF, 0xFF, 0xFE])) 25)
        (byteAt (loaded 82 (setSerial [0xFF, 0xFF, 0xFF, 0xFE])) 26)
        (byteAt (loaded 82 (setSerial [0xFF, 0xFF, 0xFF, 0xFE])) 27)
    ∧ (0xFFFFFFFE : Word32) ≠ 0xFFFFFFFF ∧ Ready (loaded 82 (setSerial [0xFF, 0xFF, 0xFF, 0xFE]))
    ∧ (loaded 82 (setSerial [0xFF, 0xFF, 0xFF, 0xFE])).ctx.bcast
      = (loaded 82 (setSerial [0xFF, 0xFF, 0xFF, 0xFE])).val.isBroadcast
    ∧ Ready (bcastReq (setSerial [0x00, 0x00, 0x00, 0x07]))
    ∧ (bcastReq (setSerial [0x00, 0x00, 0x00, 0x07])).ctx.bcast
      = (bcastReq (setSerial [0x00, 0x00, 0x00, 0x07])).val.isBroadcast
    ∧ (bcastReq (setSerial [0x00, 0x00, 0x00, 0x07])).val.isBroadcast = true
    ∧ Readable (bcastReq (setSerial [0x00, 0x00, 0x00, 0x07])) 28
    ∧ byteAt (bcastReq (setSerial [0x00, 0x00, 0x00, 0x07])) 23 = 4
    ∧ 30 ≤ (bcastReq (setSerial [0x00, 0x00, 0x00, 0x07])).val.size.toNat
    ∧ (7 : Word32) = be32 (byteAt (bcastReq (setSerial [0x00, 0x00, 0x00, 0x07])) 24)
        (byteAt (bcastReq (setSerial [0x00, 0x00, 0x00, 0x07])) 25)
        (byteAt (bcastReq (setSerial [0x00, 0x00, 0x00, 0x07])) 26)
        (byteAt (bcastReq (setSerial [0x00, 0x00, 0x00, 0x07])) 27)
    ∧ (7 : Word32) ≠ 0xFFFFFFFF :=
  ⟨⟨readable_of (by decide), by decide⟩, ⟨by decide, by decide, readable_of (by decide), by decide⟩, by decide,
   by decide, ⟨rfl, rfl⟩, rfl, ⟨rfl, rfl⟩, rfl, rfl, readable_of (by decide), by decide, by decide, by decide,
   by decide⟩

theorem witness_GetIsIdempotent :
    quietConfig (loaded 82 req0).cfg = true ∧ PayloadFilled (loaded 82 req0) ∧ (loaded 82 req0).enc.busy = false ∧ byteAt (loaded 82 req0) 20 = 0x20
    ∧ (∃ t, exec .labelRdm (loaded 82 req0) = .next t ∧ t.flags = (loaded 82 req0).flags)
    ∧ (loaded 82 req0).flags.labelPending = false
    ∧ packetPasses (payloadOf (loaded 82 req0)) = true
    ∧ PayloadFilled (loaded 82 (retagged 0x06 req0))
    ∧ payloadOf { loaded 82 req0 with buf := (loaded 82 (retagged 0x06 req0)).buf }
      = retagged 0x06 (payloadOf (loaded 82 req0)) :=
  ⟨by decide, filled_of (by decide), rfl, by decide, ⟨_, rfl, by decide⟩, rfl, by decide, filled_of (by decide),
   by decide⟩

/-- A SET of the label changes flags and store; so do both halves of the statements about writers. -/
theorem witness_OnlyItsOwnWriter_OnlyHandlersWriteFlags :
    Instr.processRdm.WellFormed
    ∧ ∃ t, exec .processRdm (loaded 82 setLabel) = .next t
      ∧ (t.flags ≠ (loaded 82 setLabel).flags ∨ t.agent ≠ (loaded 82 setLabel).agent
        ∨ t.store ≠ (loaded 82 setLabel).store) :=
  ⟨rfl, _, rfl, .inl (by decide)⟩

theorem witness_InvKept :
    Inv fixture ∧ (∃ t, step fixture = .next t) ∧ Inv (withBytes [0x7E] fixture)
    ∧ (∃ t, step (withBytes [0x7E] fixture) = .next t) ∧ settledConfig fixture.cfg = true
    ∧ Input.isEvent .reset = true ∧ Input.isEvent (.resetDuring none 0) = true :=
  ⟨⟨rfl, rfl, fun _ h => (List.not_mem_nil h).elim, trivial, rfl, fun _ => rfl⟩, next_of rfl,
   ⟨rfl, rfl, fun _ h => (List.not_mem_nil h).elim, trivial, rfl, fun _ => rfl⟩, next_of rfl, by decide, rfl, rfl⟩

end Sys2Proof.Tests
end

section
/-! SUPPORT. What a step does with each kind of input other than a received byte (`step_byte`) and a reset: an instruction word
is decoded and run, or refused by name; an empty poll, or no input at all, is `RX_EMPTY` (R8, R130). -/

namespace Sys2Proof.Machine

theorem fetch_call {s : State} {f : Format} {bs : List Byte} {rest : List Input} (h : s.input = .call f bs :: rest) :
    fetch s = fetchWord f bs { s with input := rest } := by
  simp only [fetch, h]

theorem fetchWord_of_decode_ok {f : Format} {bs : List Byte} {i : Instr} (h : decode f bs = .ok i) (s : State) :
    fetchWord f bs s = .run i s := by
  simp only [fetchWord, h]

theorem fetchWord_of_decode_error {f : Format} {bs : List Byte} {e : DecodeError} (h : decode f bs = .error e)
    (s : State) : fetchWord f bs s = .done (.refused (.undecodable e)) := by
  simp only [fetchWord, h]

theorem step_of_fetch_run {s t : State} {i : Instr} (h : fetch s = .run i t) : step s = exec i t := by
  simp only [step, h]

theorem step_of_fetch_done {s : State} {o : Out} (h : fetch s = .done o) : step s = o := by
  simp only [step, h]

theorem fetch_rxEmpty {s : State} {rest : List Input} (h : s.input = .rxEmpty :: rest) :
    fetch s = .run .rxEmpty { s with input := rest } := by
  simp only [fetch, h]

theorem fetch_nil {s : State} (h : s.input = []) : fetch s = .run .rxEmpty s := by
  simp only [fetch, h]

/-- A word that decodes runs its instruction, the word consumed. -/
theorem step_call_of_decode_ok {s : State} {f : Format} {bs : List Byte} {rest : List Input} {i : Instr}
    (h : s.input = .call f bs :: rest) (hd : decode f bs = .ok i) : step s = exec i { s with input := rest } :=
  step_of_fetch_run ((fetch_call h).trans (fetchWord_of_decode_ok hd _))

/-- A word that does not decode is refused under the decoder's own reason. -/
theorem step_call_of_decode_error {s : State} {f : Format} {bs : List Byte} {rest : List Input} {e : DecodeError}
    (h : s.input = .call f bs :: rest) (hd : decode f bs = .error e) : step s = .refused (.undecodable e) :=
  step_of_fetch_done ((fetch_call h).trans (fetchWord_of_decode_error hd _))

end Sys2Proof.Machine
end

section
/-! The statements about the step itself: which instruction an input stands for (O4, O5). -/

namespace Sys2Proof.Machine

/-- Settles O4: the event word of the current `rx_state` decodes to that state's event (`step_byte`). -/
theorem stepRunsReceivedByte : Obligations.StepRunsReceivedByte := by
  unfold Obligations.StepRunsReceivedByte
  intro s b rest hinput
  exact step_byte s b rest hinput

/-- Settles O5: one rule of the step for each of the four inputs. -/
theorem stepRunsDecodedInstruction : Obligations.StepRunsDecodedInstruction := by
  unfold Obligations.StepRunsDecodedInstruction
  intro s rest
  refine ⟨?decodes, ?refuses, ?emptyPoll, ?noInput⟩
  case decodes => exact fun _ _ _ hinput hd => step_call_of_decode_ok hinput hd
  case refuses => exact fun _ _ _ hinput hd => step_call_of_decode_error hinput hd
  case emptyPoll => exact fun hinput => step_of_fetch_run (fetch_rxEmpty hinput)
  case noInput => exact fun hinput => step_of_fetch_run (fetch_nil hinput)

end Sys2Proof.Machine
end

section
/-! SUPPORT. What each RX event and each marker row can do when it answers a next state: the payload byte's store and count
(R135), the terminator's emission (R136, R137), the idle strobe (R130). -/

namespace Sys2Proof.Machine

/-- The state after one payload byte: the buffer `m`, one byte more counted (R135). -/
def counted (m : Memory) (s : State) : State :=
  { s with
    buf := m
    rx := { s.rx with
      state := if s.rx.cnt + 1 = s.rx.len then .awaitingEnd else .inPayload
      cnt := s.rx.cnt + 1 } }

/-- A payload byte is stored at the count, or skipped under `rx_ovf`, and counted (R135, R137). -/
theorem execRxInPayload_eq_next {b : Byte} {s t : State} (h : execRxInPayload b s = .next t) :
    (s.rx.ovf = true ∧ t = counted s.buf s)
      ∨ s.rx.ovf = false ∧ s.rx.cnt.toNat < s.cfg.frameCap
        ∧ t = counted (Memory.write s.buf s.rx.cnt.toNat b) s := by
  obtain ⟨u, hu, h⟩ := andThen_eq_next h
  simp only [countPayload, Host.Outcome.next.injEq] at h
  subst h
  split at hu
  · next hovf =>
    simp only [Host.Outcome.next.injEq] at hu
    subst hu
    exact .inl ⟨hovf, rfl⟩
  · next hovf =>
    simp only [memWrite] at hu
    split at hu
    · next hcap =>
      simp only [Host.Outcome.next.injEq] at hu
      subst hu
      exact .inr ⟨Bool.eq_false_iff.2 hovf, hcap, rfl⟩
    · simp at hu

/-- A byte at the terminator's place emits the frame, if it is the terminator of a frame that fits, and returns the deframer to
`PRE_START` (R136, R137). -/
theorem closeFrame_eq_next {b : Byte} {s t : State} (h : closeFrame b s = .next t) :
    (b = eomByte ∧ s.rx.ovf = false ∧ ∃ u, emit s.rx.label s = .next u ∧ t = goState .preStart u)
      ∨ ¬ (b = eomByte ∧ s.rx.ovf = false) ∧ t = goState .preStart s := by
  simp only [closeFrame] at h
  split at h
  · next hend =>
    obtain ⟨u, hu, h⟩ := andThen_eq_next h
    exact .inl ⟨hend.1, hend.2, u, hu, by simpa using h.symm⟩
  · next hend => exact .inr ⟨hend, by simpa using h.symm⟩

/-- The state after an idle strobe, before the application's callback runs (R130, R261). -/
def strobed (s : State) : State :=
  { s with
    trace.idleLog := s.trace.idleLog + 1
    strobes := s.strobes + 1
    store.committedLabel :=
      if Config.commitsAtIdle s.strobes then s.store.deviceLabel else s.store.committedLabel }

/-- An idle strobe puts the application's calls on TX and changes nothing more (R130, R330). -/
theorem idleStrobe_eq_next {s t : State} (h : idleStrobe s = .next t) :
    t = tx (callBytes s.cfg.idleCalls) (strobed s) :=
  encodeCalls_eq_next h

end Sys2Proof.Machine
end

section
/-! Who writes what (O57). An instruction that is no RX event and no marker row only appends to the outputs (`Wr`); an RX event
does so from the state with the deframer, and for a payload byte the buffer, already replaced. -/

namespace Sys2Proof.Machine

theorem txAcc_wr (b : Byte) (s : State) : Wr s (txAcc b s) :=
  ⟨rfl, rfl, rfl, by simp, by simp, by simp, by simp, rfl, rfl, rfl, rfl⟩

theorem processFrame_wr {s t : State} (h : processFrame s = .next t) : Wr s t :=
  (processFrame_processed h).wr

theorem Checks.wr {s t : State} {f : Flow} (c : Checks s f) (h : f.out = .next t) : Wr s t := (c.processed h).wr

theorem Ends.wr {s t : State} {f : Flow} (e : Ends s f) (h : f.out = .next t) : Wr s t := (e.processed h).wr

theorem Decides.wr {s t : State} {f : Flow} (d : Decides s f) (h : f.out = .next t) : Wr s t := d.ends.wr h

/-- An operation run inside a frame's processing leaves the deframer, the buffer and the strobe alone. -/
theorem exec_wr {i : Instr} {s t : State} (hevent : i.format ≠ .rxEvent) (hmarker : i.format ≠ .frameMarker)
    (h : exec i s = .next t) : Wr s t := by
  cases i with
  | rxEmpty | rxPreStart b | rxGotStart b | rxGotLabel b | rxGotLengthLow b | rxInPayload b | rxAwaitingEnd b =>
    exact absurd rfl hevent
  | som | eom => exact absurd rfl hmarker
  | labelParameters => exact emit_wr (l := 3) h
  | labelDmxData => exact emit_wr (l := 6) h
  | labelSerialNumber => exact emit_wr (l := 10) h
  | labelManufacturer => exact emit_wr (l := 77) h
  | labelName => exact emit_wr (l := 78) h
  | labelRdm => exact emit_wr (l := rdmLabel) h
  | labelOther l | emitFrame => exact emit_wr h
  | processRdm => exact processFrame_wr h
  | frameOut => exact (handOff_wr h).1
  | encode l p => exact (encodeFrame_wr h).1
  | status k | ccSetResponse => exact (takeStatus_ported h).wr
  | reply f => exact (execReply_ported h).wr
  | rdmSc | rdmSubSc => exact (checkStartByte_checks _ _ s).wr h
  | validateSize => exact (checkSize_checks s).wr h
  | validateStartCodes => exact (checkStartCodes_checks s).wr h
  | validateLength => exact (checkLength_checks s).wr h
  | validateChecksum => exact (checkChecksum_checks s).wr h
  | detectBroadcast => exact (broadcastDetection_checks s).wr h
  | matchDestination => exact (destinationMatch_checks s).wr h
  | wrongDestination => exact (destinationReject_checks s).wr h
  | ccGet => exact (getPath_ends s).wr h
  | ccGetResponse => exact (Checks.status _ (.refl s)).wr h
  | ccSet => exact (setPath_ends s).wr h
  | dispatchCcCheck => exact (ccCheck_decides s).wr h
  | dispatchSubdeviceRange => exact (subDeviceRange_decides s).wr h
  | dispatchUnknownPid => exact (unknownPid_decides s).wr h
  | dispatchGetNoHandler => exact (getNoHandler_decides s).wr h
  | dispatchGetBroadcast => exact (getBroadcast_decides s).wr h
  | dispatchGetSubdevice => exact (getSubDevice_decides s).wr h
  | dispatchGetArgSize => exact (getArgSize_decides s).wr h
  | dispatchGetInvoke => exact (getInvoke_ends s).wr h
  | dispatchSetNoHandler => exact (setNoHandler_decides s).wr h
  | dispatchSetInvoke => exact (setInvoke_ends s).wr h
  | dispatchPidLookup => exact (pidLookup_decides s).wr h
  | startResponse rt pdl cc pid => exact (openReply_ported h).wr
  | sendByte v => exact (putByte_ported h).wr
  | sendInt v => exact (putInt_ported h).wr
  | sendLong v => exact (putLong_ported h).wr
  | endResponse => exact (closeReply_ported h).wr
  | sendEmptyAck => exact (emptyAck_ported h).wr
  | sendAckTimer d => exact (ackTimer_ported h).wr
  | sendNack r | nrUnknownPid | nrFormatError | nrUnsupportedCommandClass | nrDataOutOfRange | nrSubDeviceOutOfRange =>
    exact (nack_ported h).wr
  | nackOrBroadcast wb r => exact (nackOrSilent_ported h).wr
  | reportStatus k => exact (reportKind_ported h).wr
  | handlerReservedAB low | handlerReservedCF low => simp [exec, execHandlerReservedAB, execHandlerReservedCF] at h
  | rtAck | rtAckTimer | rtNack =>
    cases h
    exact txAcc_wr _ s
  | statusOk =>
    cases h
    exact statusMarker_eq s ▸ wr_tx _ s
  | statusBroadcast | statusFailed | statusFailedChecksum | statusInvalidDestination | statusInvalidCommand =>
    exact (codeFrame_wr h).1
  | getSupportedParameters => exact (supp_ported h).wr
  | getQueuedMessagePending | getQueuedMessageIdle =>
    exact (runGet_handled (b := .queuedMessage) h fun _ => rfl).1.wr
  | setDeviceLabel => exact (deviceLabelSet_handled h).wr
  | setDmxStartAddress => exact (startAddressSet_handled h).wr
  | setSerialNumber => exact (serialNumberSet_handled h).wr

theorem closeFrame_wr {b : Byte} {s t : State} (h : closeFrame b s = .next t) : Wr { s with rx := t.rx } t := by
  obtain ⟨cfg, input, idle, tx, log, fo, hl, buf, past, strobes⟩ := closeFrame_cl h
  exact ⟨cfg, input, idle, tx, log, fo, hl, buf, rfl, past, strobes⟩

/-- An RX event or a marker row, the idle strobe and the payload byte apart, writes the deframer's registers beside the
outputs. -/
theorem exec_rx_wr {i : Instr} {s t : State} (hf : i.format = .rxEvent ∨ i.format = .frameMarker) (hidle : i ≠ .rxEmpty)
    (hpayload : ∀ b, i ≠ .rxInPayload b) (h : exec i s = .next t) : Wr { s with rx := t.rx } t := by
  cases i with
  | rxEmpty => exact absurd rfl hidle
  | rxInPayload b => exact absurd rfl (hpayload b)
  | rxPreStart b | rxGotStart b | rxGotLabel b | rxGotLengthLow b | som =>
    cases h
    exact wr_rfl _
  | rxAwaitingEnd b | eom => exact closeFrame_wr h
  | _ => exact absurd hf (by simp [Instr.format])

/-- A payload byte writes the buffer and the deframer's registers. -/
theorem execRxInPayload_wr {b : Byte} {s t : State} (h : execRxInPayload b s = .next t) :
    Wr { s with rx := t.rx, buf := t.buf } t := by
  obtain ⟨-, rfl⟩ | ⟨-, -, rfl⟩ := execRxInPayload_eq_next h
  · exact wr_rfl _
  · exact wr_rfl _

/-- Settles O57: `exec_wr` for what runs inside a frame's processing, and one case for each of the events' own writes. -/
theorem onlyItsOwnWriter : Obligations.OnlyItsOwnWriter := by
  unfold Obligations.OnlyItsOwnWriter
  intro i s t h
  by_cases hidle : i = .rxEmpty
  · subst hidle
    have w : Wr (strobed s) t := idleStrobe_eq_next h ▸ wr_tx _ _
    exact ⟨w.cfg, w.input, w.idle, w.past, w.strobes, w.tx, w.log, w.fo, w.hl, fun _ => w.buf, fun _ _ => w.rx⟩
  simp only [if_neg hidle, Nat.add_zero]
  by_cases hpayload : ∃ b, i = .rxInPayload b
  · obtain ⟨b, rfl⟩ := hpayload
    have w := execRxInPayload_wr h
    exact ⟨w.cfg, w.input, w.idle, w.past, w.strobes, w.tx, w.log, w.fo, w.hl, fun hn => absurd rfl (hn b),
      fun hn => absurd rfl hn⟩
  by_cases hf : i.format = .rxEvent ∨ i.format = .frameMarker
  · have w := exec_rx_wr hf hidle (not_exists.1 hpayload) h
    exact ⟨w.cfg, w.input, w.idle, w.past, w.strobes, w.tx, w.log, w.fo, w.hl, fun _ => w.buf,
      fun hevent hmarker => (hf.elim hevent hmarker).elim⟩
  · have w := exec_wr (fun he => hf (.inl he)) (fun hm => hf (.inr hm)) h
    exact ⟨w.cfg, w.input, w.idle, w.past, w.strobes, w.tx, w.log, w.fo, w.hl, fun _ => w.buf, fun _ _ => w.rx⟩

end Sys2Proof.Machine
end

section
/-! The invariant (O60): each RX event keeps it, and a reset establishes it. -/

namespace Sys2Proof.Machine

/-! What the emission of a frame keeps. -/

/-- The hand-off ends with the encoder as it was (R140). -/
theorem handOff_enc {l : Byte} {s t : State} (h : handOff l s = .next t) : t.enc = s.enc := by
  obtain ⟨p, -, h⟩ := withRead_eq_next h
  rw [encodeCalls_eq_next h, tx_enc]

/-- A frame's processing leaves no response open (R70, R139). -/
theorem emit_closed {l : Byte} {s t : State} (hb : s.enc.busy = false) (h : emit l s = .next t) : t.enc.busy = false := by
  simp only [emit] at h
  split at h
  · have ho := (processFrame_eq_next h).2
    simp only [outcomeReached, Bool.and_eq_true, Bool.not_eq_true'] at ho
    exact ho.2
  · rw [handOff_enc h]
    exact hb

/-- A frame's processing keeps the queued count equal to the pending flag, where it has to (R253, R260). -/
theorem emit_queue {l : Byte} {s t : State} (hs : settledConfig s.cfg = true) (hq : QueueAgrees s.flags)
    (h : emit l s = .next t) : QueueAgrees t.flags := by
  simp only [emit] at h
  split at h
  · exact (processFrame_processed h).queue hs hq
  · obtain ⟨-, hflags, -, -⟩ := handOff_wr h
    rw [hflags]
    exact hq

/-! Each RX event. -/

theorem idleStrobe_keeps_inv {s t : State} (k : Inv s) (h : idleStrobe s = .next t) : Inv t := by
  rw [idleStrobe_eq_next h]
  exact ⟨k.events, k.bufWf, k.bufFits, k.deframes, k.closed, k.queue⟩

/-- Of the deframer's registers the invariant asks only that they agree. -/
theorem Inv.withRx {s : State} (k : Inv s) {r : RxRegs} (h : Deframing { s with rx := r }) : Inv { s with rx := r } :=
  ⟨k.events, k.bufWf, k.bufFits, h, k.closed, k.queue⟩

/-- The last header byte starts the payload, or for length 0 goes to the terminator, with a count of 0 (R134). -/
theorem execRxGotLengthLow_keeps_inv {b : Byte} {s t : State} (k : Inv s) (h : execRxGotLengthLow b s = .next t) :
    Inv t := by
  cases h
  refine k.withRx ?_
  by_cases hlen : le16 (loByte s.rx.len) b = 0
  · simp only [Deframing, if_pos hlen]
    exact ⟨hlen.symm, trivial, fun _ a ha => absurd ha a.not_lt_zero⟩
  · have hne : (le16 (loByte s.rx.len) b).toNat ≠ 0 := fun h0 => hlen (BitVec.eq_of_toNat_eq h0)
    simp only [Deframing, if_neg hlen]
    exact ⟨Nat.pos_of_ne_zero hne, trivial, fun _ a ha => absurd ha a.not_lt_zero⟩

/-- Counting one byte more in the payload, its cell filled unless it is skipped, keeps the registers in agreement (R135). -/
theorem deframing_counted {m : Memory} {s : State} (hlt : s.rx.cnt.toNat < s.rx.len.toNat)
    (hovf : s.rx.ovf = overflowFlag s.cfg s.rx.len)
    (hm : s.rx.ovf = false → ∀ a, a < s.rx.cnt.toNat + 1 → ∃ b, Memory.read m a = some b) :
    Deframing (counted m s) := by
  have hcnt := cnt_succ hlt
  rw [← hcnt] at hm
  by_cases hend : s.rx.cnt + 1 = s.rx.len
  · simp only [Deframing, counted, if_pos hend]
    exact ⟨hend, hovf, hm⟩
  · have hne : (s.rx.cnt + 1).toNat ≠ s.rx.len.toNat := fun e => hend (BitVec.eq_of_toNat_eq e)
    simp only [Deframing, counted, if_neg hend]
    exact ⟨by omega, hovf, hm⟩

/-- A write at the count fills one cell more. -/
theorem Memory.filled_write {m : Memory} {n : Nat} (v : Byte) (h : ∀ a, a < n → ∃ b, Memory.read m a = some b) :
    ∀ a, a < n + 1 → ∃ b, Memory.read (Memory.write m n v) a = some b := by
  intro a ha
  rw [Memory.read_write]
  split
  · exact ⟨v, rfl⟩
  · exact h a (by omega)

theorem execRxInPayload_keeps_inv {b : Byte} {s t : State} (k : Inv s) (hs : s.rx.state = .inPayload)
    (h : execRxInPayload b s = .next t) : Inv t := by
  have hd := k.deframes
  simp only [Deframing, hs] at hd
  obtain ⟨hlt, hovf, hcells⟩ := hd
  obtain ⟨hskip, rfl⟩ | ⟨hstore, hcap, rfl⟩ := execRxInPayload_eq_next h
  · have hd := deframing_counted (m := s.buf) hlt hovf fun hn => absurd hn (by simp [hskip])
    exact ⟨k.events, k.bufWf, k.bufFits, hd, k.closed, k.queue⟩
  · have hd := deframing_counted hlt hovf fun hn => Memory.filled_write b (hcells hn)
    refine ⟨k.events, Memory.wf_write _ _ k.bufWf, fun c hc => ?_, hd, k.closed, k.queue⟩
    obtain hnew | hold := Memory.mem_write _ _ _ c hc
    · rw [hnew]
      exact hcap
    · exact k.bufFits c hold

theorem closeFrame_keeps_inv {b : Byte} {s t : State} (k : Inv s) (h : closeFrame b s = .next t) : Inv t := by
  obtain ⟨-, -, u, hu, rfl⟩ | ⟨-, rfl⟩ := closeFrame_eq_next h
  case inr => exact k.withRx trivial
  have w := emit_wr hu
  refine ⟨?events, ?bufWf, ?bufFits, trivial, ?closed, fun hs => ?queue⟩
  case events => exact w.input ▸ k.events
  case bufWf => exact w.buf ▸ k.bufWf
  case bufFits => simpa only [goState_buf, goState_cfg, w.buf, w.cfg] using k.bufFits
  case closed => exact goState_enc _ u ▸ emit_closed k.closed hu
  case queue =>
    rw [goState_cfg, w.cfg] at hs
    have hq : QueueAgrees u.flags := emit_queue hs (k.queue hs) hu
    exact hq

/-! The step. -/

/-- The event that a received byte is in a deframer state (R111). -/
def eventOf (b : Byte) : RxState → Instr
  | .preStart => .rxPreStart b
  | .gotStart => .rxGotStart b
  | .gotLabel => .rxGotLabel b
  | .gotLengthLow => .rxGotLengthLow b
  | .inPayload => .rxInPayload b
  | .awaitingEnd => .rxAwaitingEnd b

theorem step_byte_eventOf {s : State} {b : Byte} {rest : List Input} (h : s.input = .rxByte b :: rest) :
    step s = exec (eventOf b s.rx.state) { s with input := rest } := by
  rw [step_byte s b rest h]
  cases s.rx.state <;> rfl

/-- A received byte keeps the invariant, in every deframer state. -/
theorem eventOf_keeps_inv {b : Byte} {s t : State} (k : Inv s) (h : exec (eventOf b s.rx.state) s = .next t) : Inv t := by
  cases hs : s.rx.state with
  | preStart =>
    rw [hs] at h
    cases h
    refine k.withRx ?_
    by_cases hb : b = somByte
    · simp only [Deframing, if_pos hb]
    · simp only [Deframing, if_neg hb]
  | gotStart | gotLabel =>
    rw [hs] at h
    cases h
    exact k.withRx trivial
  | gotLengthLow =>
    rw [hs] at h
    exact execRxGotLengthLow_keeps_inv k h
  | inPayload =>
    rw [hs] at h
    exact execRxInPayload_keeps_inv k hs h
  | awaitingEnd =>
    rw [hs] at h
    exact closeFrame_keeps_inv k h

/-- The inputs still to come do not matter to the invariant, as long as they are events and resets. -/
theorem Inv.withInput {s : State} (k : Inv s) {inputs : List Input} (h : inputs.all Input.isEvent = true) :
    Inv { s with input := inputs } :=
  ⟨h, k.bufWf, k.bufFits, k.deframes, k.closed, k.queue⟩

/-- A reset makes the invariant hold, whatever state it strikes (R320, R321). -/
theorem inv_resetBlock {s : State} (h : s.input.all Input.isEvent = true) : Inv (resetBlock s) :=
  ⟨h, rfl, fun _ hc => absurd hc List.not_mem_nil, trivial, rfl, fun _ => rfl⟩

/-- What a struck event leaves is a reset state (R322). -/
theorem inv_strike {n : Nat} {s t : State} {o : Out} (ho : ∀ u, o = .next u → Inv u) (h : strike n s o = .next t) :
    Inv t := by
  obtain ⟨u, hu, rfl⟩ := strike_eq_next h
  exact inv_resetBlock (ho u hu).events

theorem Inv.events_rest {i : Input} {rest : List Input} {s : State} (k : Inv s) (hi : s.input = i :: rest) :
    rest.all Input.isEvent = true := by
  have hall := k.events
  rw [hi, List.all_cons, Bool.and_eq_true] at hall
  exact hall.2

theorem step_rxByte_keeps_inv {b : Byte} {rest : List Input} {s t : State} (k : Inv s)
    (hi : s.input = .rxByte b :: rest) (h : step s = .next t) : Inv t := by
  rw [step_byte_eventOf hi] at h
  exact eventOf_keeps_inv (k.withInput (k.events_rest hi)) h

theorem step_rxEmpty_keeps_inv {rest : List Input} {s t : State} (k : Inv s) (hi : s.input = .rxEmpty :: rest)
    (h : step s = .next t) : Inv t := by
  rw [step_of_fetch_run (fetch_rxEmpty hi)] at h
  exact idleStrobe_keeps_inv (k.withInput (k.events_rest hi)) h

theorem fetch_reset {s : State} {rest : List Input} (h : s.input = .reset :: rest) :
    fetch s = .done (.next (resetBlock { s with input := rest })) := by
  simp only [fetch, h]

/-- Settles O60: by cases on the input the step takes; a struck event is the event, then a reset. -/
theorem invKept : Obligations.InvKept := by
  unfold Obligations.InvKept
  intro s t k h
  cases hi : s.input with
  | nil =>
    rw [step_of_fetch_run (fetch_nil hi)] at h
    exact idleStrobe_keeps_inv k h
  | cons input rest =>
    have hrest := k.events_rest hi
    cases input with
    | rxByte b => exact step_rxByte_keeps_inv k hi h
    | rxEmpty => exact step_rxEmpty_keeps_inv k hi h
    | reset =>
      rw [step_of_fetch_done (fetch_reset hi)] at h
      cases h
      exact inv_resetBlock hrest
    | resetDuring event n =>
      cases event with
      | some b =>
        rw [step_struck s b n rest hi] at h
        have kb : Inv { s with input := .rxByte b :: rest } := k.withInput hrest
        exact inv_strike (fun u hu => step_rxByte_keeps_inv kb rfl hu) h
      | none =>
        rw [step_struck_idle s n rest hi] at h
        have ke : Inv { s with input := .rxEmpty :: rest } := k.withInput hrest
        exact inv_strike (fun u hu => step_rxEmpty_keeps_inv ke rfl hu) h
    | call f bs =>
      have hall := k.events
      rw [hi] at hall
      exact absurd hall (by simp [Input.isEvent])

end Sys2Proof.Machine
end

section
/-! SUPPORT. The handler-port operands (R106; log 19): each operand form accepts exactly the bytes its command is encoded with, and
yields that command. Read from left to right these are the decoder's exactness, from right to left the round trip. -/

namespace Sys2Proof.Machine

theorem portPlain_eq_ok_iff {i j : Instr} {ops : List Byte} : portPlain i ops = .ok j ↔ ops = [] ∧ j = i := by
  cases ops with
  | nil => simp [portPlain, eq_comm]
  | cons a ops => simp [portPlain]

theorem portByte_eq_ok_iff {k : Byte → Except DecodeError Instr} {ops : List Byte} {j : Instr} :
    portByte k ops = .ok j ↔ ∃ a, ops = [a] ∧ k a = .ok j := by
  constructor
  · intro h
    unfold portByte at h
    split at h
    · next a => exact ⟨a, rfl, h⟩
    · cases h
  · rintro ⟨a, rfl, h⟩
    exact h

theorem portWord_eq_ok_iff {k : Word16 → Instr} {ops : List Byte} {j : Instr} :
    portWord k ops = .ok j ↔ ∃ w, ops = bytes16 w ∧ j = k w := by
  constructor
  · intro h
    unfold portWord at h
    split at h
    · next a b =>
      cases h
      exact ⟨be16 a b, (bytes16_be16 a b).symm, rfl⟩
    · cases h
  · rintro ⟨w, rfl, rfl⟩
    exact congrArg (fun w => Except.ok (k w)) (be16_bytes16 w)

theorem portLong_eq_ok_iff {ops : List Byte} {j : Instr} :
    portLong ops = .ok j ↔ ∃ w, ops = bytes32 w ∧ j = .sendLong w := by
  constructor
  · intro h
    unfold portLong at h
    split at h
    · next a b c d =>
      cases h
      exact ⟨be32 a b c d, (bytes32_be32 a b c d).symm, rfl⟩
    · cases h
  · rintro ⟨w, rfl, rfl⟩
    exact congrArg (fun w => Except.ok (Instr.sendLong w)) (be32_bytes32 w)

theorem portStart_eq_ok_iff {ops : List Byte} {j : Instr} :
    portStart ops = .ok j ↔
      ∃ rt pdl cc pid, ops = [rt, pdl, cc] ++ bytes16 pid ∧ j = .startResponse rt pdl cc pid := by
  constructor
  · intro h
    unfold portStart at h
    split at h
    · next rt pdl cc p0 p1 =>
      cases h
      exact ⟨rt, pdl, cc, be16 p0 p1, by rw [bytes16_be16]; rfl, rfl⟩
    · cases h
  · rintro ⟨rt, pdl, cc, pid, rfl, rfl⟩
    exact congrArg (fun pid => Except.ok (Instr.startResponse rt pdl cc pid)) (be16_bytes16 pid)

/-- The byte of a one-bit flag. -/
theorem flagByte_eq {w : Byte} (h : w.toNat < 2) : w = if decide (w = 1) then 1 else 0 := by
  by_cases h1 : w = 1
  · simp [h1]
  · have h1 : w.toNat ≠ 1 := fun e => h1 (BitVec.eq_of_toNat_eq e)
    have h0 : w = 0 := byte_eq_of (n := 0) (by omega)
    simp [h0]

theorem portRefuse_eq_ok_iff {ops : List Byte} {j : Instr} :
    portRefuse ops = .ok j ↔
      ∃ (wb : Bool) (reason : Word16), ops = (if wb then 1 else 0) :: bytes16 reason ∧ j = .nackOrBroadcast wb reason := by
  constructor
  · intro h
    unfold portRefuse at h
    split at h
    · next w a b =>
      split at h
      · cases h
      · next hw =>
        cases h
        refine ⟨decide (w = 1), be16 a b, ?_, rfl⟩
        rw [bytes16_be16, ← flagByte_eq (Nat.lt_of_not_le hw)]
    · cases h
  · rintro ⟨wb, reason, rfl, rfl⟩
    cases wb <;> exact congrArg (fun r => Except.ok (Instr.nackOrBroadcast _ r)) (be16_bytes16 reason)

theorem kindOfNumber_eq_some {n : Nat} {k : StatusKind} (h : kindOfNumber n = some k) : n = k.number := by
  unfold kindOfNumber at h
  split at h <;> cases h <;> rfl

theorem portReport_eq_ok_iff {b : Byte} {j : Instr} :
    portReport b = .ok j ↔ ∃ k : StatusKind, b = BitVec.ofNat 8 k.number ∧ j = .reportStatus k := by
  constructor
  · intro h
    unfold portReport at h
    split at h
    · cases h
    · split at h
      · next k hk =>
        cases h
        exact ⟨k, byte_eq_of (kindOfNumber_eq_some hk), rfl⟩
      · cases h
  · rintro ⟨k, rfl, rfl⟩
    cases k <;> rfl

end Sys2Proof.Machine
end

section
/-! Decoding an encoded instruction (O1), and words written out from the spec (O3). -/

namespace Sys2Proof.Machine

theorem decode_frameBytes (label : Byte) {payload : List Byte} (h : payload.length ≤ 65535) :
    decode .outerFrame (frameBytes label payload) = .ok (.encode label payload) := by
  simp only [decode, parseFrame_frameBytes label payload h]

theorem decode_replyFrameBytes {f : ReplyFields} (h : f.data.length ≤ 231) :
    decode .replyFrame (replyFrameBytes 0 f) = .ok (.reply f) := by
  simp only [decode, parseFrame_replyFrameBytes 0 f h, parsePacket_packetBytes f h]
  rfl

theorem decode_labelOther {label : Byte} (h : (Instr.labelOther label).WellFormed) :
    decode .outerLabelDefault [label] = .ok (.labelOther label) := by
  have hunknown : knownLabels.contains label = false := (Bool.not_eq_true' _).mp h
  simp only [decode, hunknown, Bool.false_eq_true, if_false]

theorem decode_reservedAB (low : BitVec 1) :
    decode .handlerPort (encode (.handlerReservedAB low)) = .ok (.handlerReservedAB low) := by
  have hlow : ∀ low : BitVec 1, low = 0 ∨ low = 1 := by decide
  obtain rfl | rfl := hlow low
  · rfl
  · rfl

theorem decode_reservedCF (low : BitVec 2) :
    decode .handlerPort (encode (.handlerReservedCF low)) = .ok (.handlerReservedCF low) := by
  have hlow : ∀ low : BitVec 2, low = 0 ∨ low = 1 ∨ low = 2 ∨ low = 3 := by decide
  obtain rfl | rfl | rfl | rfl := hlow low
  · rfl
  · rfl
  · rfl
  · rfl

/-- Settles O1: a code without operands decodes by evaluation; a word with operands by the layout lemma of its operands. -/
theorem decodeEncodeRoundTrip : Obligations.DecodeEncodeRoundTrip := by
  unfold Obligations.DecodeEncodeRoundTrip
  intro i hwf
  cases i with
  | encode label payload => exact decode_frameBytes label (of_decide_eq_true hwf)
  | reply f => exact decode_replyFrameBytes (of_decide_eq_true hwf)
  | labelOther label => exact decode_labelOther hwf
  | status k => cases k <;> rfl
  | startResponse rt pdl cc pid => exact portStart_eq_ok_iff.2 ⟨rt, pdl, cc, pid, rfl, rfl⟩
  | sendInt w | sendNack w | sendAckTimer w => exact portWord_eq_ok_iff.2 ⟨w, rfl, rfl⟩
  | sendLong w => exact portLong_eq_ok_iff.2 ⟨w, rfl, rfl⟩
  | nackOrBroadcast wb reason => exact portRefuse_eq_ok_iff.2 ⟨wb, reason, rfl, rfl⟩
  | reportStatus k => exact portReport_eq_ok_iff.2 ⟨k, rfl, rfl⟩
  | handlerReservedAB low => exact decode_reservedAB low
  | handlerReservedCF low => exact decode_reservedCF low
  | _ => rfl

/-- Settles O3: each of the nine words is the encoding of its instruction, so O1 decodes it. -/
theorem specWordsDecode : Obligations.SpecWordsDecode :=
  have decodes := decodeEncodeRoundTrip
  ⟨decodes (.rxInPayload 0xAB) rfl, decodes .eom rfl, decodes .labelRdm rfl, decodes (.encode 3 [0xAA, 0xBB]) rfl,
    decodes (.status .badChecksum) rfl, decodes .ccSet rfl, decodes (.sendInt 0x1234) rfl,
    decodes .setDmxStartAddress rfl, decodes .nrSubDeviceOutOfRange rfl⟩

end Sys2Proof.Machine
end

section
/-! What a word that decodes is (O2), format by format. -/

namespace Sys2Proof.Machine

/-- The bytes are the word of a well-formed instruction of the format. -/
structure IsWordOf (f : Format) (bs : List Byte) (i : Instr) : Prop where
  wellFormed : i.WellFormed
  format     : i.format = f
  word       : bs = encode i

/-! Bytes from their numbers. -/

theorem singleton_eq_of_toNat {b c : Byte} (h : b.toNat = c.toNat) : [b] = [c] :=
  congrArg (fun b => [b]) (BitVec.eq_of_toNat_eq h)

theorem pair_eq_of_be16_toNat {a b c d : Byte} (h : (be16 a b).toNat = (be16 c d).toNat) : [a, b] = [c, d] := by
  rw [← bytes16_be16 a b, BitVec.eq_of_toNat_eq h, bytes16_be16]

/-! Event and handler-port words. -/

/-- A first event byte that is not RX_EMPTY's holds bit 11 and the state code (R111). -/
theorem eventByte_eq {hi : Byte} {n : Nat} (h8 : ¬ hi.toNat < 8) (hn : hi.toNat - 8 = n) : hi = BitVec.ofNat 8 (8 + n) :=
  byte_eq_of (by omega)

/-- An event word is its event's, but for the bits that RX_EMPTY ignores (R111; log 29). -/
theorem decodeRxEvent_exact {bs : List Byte} {i : Instr} (h : decodeRxEvent bs = .ok i) :
    IsWordOf .rxEvent bs i ∨ (i = .rxEmpty ∧ ∃ hi b : Byte, bs = [hi, b] ∧ hi.toNat < 8) := by
  unfold decodeRxEvent at h
  split at h
  · next hi b =>
    split at h
    · cases h
    · split at h
      · next h8 =>
        cases h
        exact .inr ⟨rfl, hi, b, rfl, h8⟩
      · next h8 =>
        split at h <;> cases h <;>
          exact .inl ⟨rfl, rfl, congrArg (fun hi => [hi, b]) (eventByte_eq h8 ‹_›)⟩
  · cases h

/-- A handler-port word is its command's code and operands (R106). -/
theorem decodePort_exact {bs : List Byte} {i : Instr} (h : decodePort bs = .ok i) : IsWordOf .handlerPort bs i := by
  unfold decodePort at h
  split at h
  · next code ops =>
    split at h
    · cases h
    · split at h
      case h_1 hcode =>
        obtain ⟨rt, pdl, cc, pid, rfl, rfl⟩ := portStart_eq_ok_iff.1 h
        exact ⟨rfl, rfl, by rw [byte_eq_of hcode]; rfl⟩
      case h_2 hcode =>
        obtain ⟨v, rfl, hv⟩ := portByte_eq_ok_iff.1 h
        cases hv
        exact ⟨rfl, rfl, by rw [byte_eq_of hcode]; rfl⟩
      case h_3 hcode | h_7 hcode | h_8 hcode =>
        obtain ⟨w, rfl, rfl⟩ := portWord_eq_ok_iff.1 h
        exact ⟨rfl, rfl, by rw [byte_eq_of hcode]; rfl⟩
      case h_4 hcode =>
        obtain ⟨w, rfl, rfl⟩ := portLong_eq_ok_iff.1 h
        exact ⟨rfl, rfl, by rw [byte_eq_of hcode]; rfl⟩
      case h_9 hcode =>
        obtain ⟨wb, reason, rfl, rfl⟩ := portRefuse_eq_ok_iff.1 h
        exact ⟨rfl, rfl, by rw [byte_eq_of hcode]; rfl⟩
      case h_10 hcode =>
        obtain ⟨b, rfl, hb⟩ := portByte_eq_ok_iff.1 h
        obtain ⟨k, rfl, rfl⟩ := portReport_eq_ok_iff.1 hb
        exact ⟨rfl, rfl, by rw [byte_eq_of hcode]; rfl⟩
      case h_17 => cases h
      all_goals
        next hcode =>
        obtain ⟨rfl, rfl⟩ := portPlain_eq_ok_iff.1 h
        exact ⟨rfl, rfl, by rw [byte_eq_of hcode]; rfl⟩
  · cases h

/-! Frames. -/

theorem decode_outerFrame_exact {bs : List Byte} {i : Instr} (h : decode .outerFrame bs = .ok i) :
    IsWordOf .outerFrame bs i := by
  simp only [decode] at h
  split at h
  · next label payload hparse =>
    cases h
    obtain ⟨hword, hlen⟩ := parseFrame_exact hparse
    exact ⟨decide_eq_true hlen, rfl, hword⟩
  · cases h

/-- A reply word is a frame under label 82 whose payload is the marker, then a packet (R97). -/
theorem decode_replyFrame_exact {bs : List Byte} {i : Instr} (h : decode .replyFrame bs = .ok i) :
    IsWordOf .replyFrame bs i := by
  simp only [decode] at h
  split at h
  · cases h
  · next label payload hframe =>
    obtain ⟨hword, hlen⟩ := parseFrame_exact hframe
    split at h
    · cases h
    · next hlabel =>
      split at h
      · next ok p =>
        split at h
        · cases h
        · next hok =>
          split at h
          · next fields hpacket =>
            cases h
            obtain ⟨hp, hdata⟩ := parsePacket_exact (Nat.le_of_succ_le hlen) hpacket
            exact ⟨decide_eq_true hdata, rfl, by rw [hword, Decidable.not_not.1 hlabel, Decidable.not_not.1 hok, hp]; rfl⟩
          · cases h
      · cases h

/-- A status word is its kind's frame, then the selector among the kinds of that code (R98; log 20). -/
theorem decode_statusFrame_exact {bs : List Byte} {i : Instr} (h : decode .statusFrame bs = .ok i) :
    IsWordOf .statusFrame bs i := by
  simp only [decode] at h
  split at h
  · next a b c d code e sel =>
    split at h
    · cases h
    · next hmarks =>
      have hmarks := Decidable.not_not.1 hmarks
      simp only [List.cons.injEq, and_true] at hmarks
      obtain ⟨rfl, rfl, rfl, rfl, rfl⟩ := hmarks
      split at h <;> cases h
      all_goals
        next hcode hsel =>
        exact ⟨rfl, rfl, by rw [byte_eq_of hcode, byte_eq_of hsel]; rfl⟩
  · cases h

/-! Codes. -/

theorem decode_nackReason_exact {bs : List Byte} {i : Instr} (h : decode .nackReason bs = .ok i) :
    IsWordOf .nackReason bs i := by
  simp only [decode] at h
  split at h
  · split at h <;> cases h <;> exact ⟨rfl, rfl, pair_eq_of_be16_toNat ‹_›⟩
  · cases h

/-- A request word is a command class and a PID (R100, R107). -/
theorem decode_rdmRequest_exact {bs : List Byte} {i : Instr} (h : decode .rdmRequest bs = .ok i) :
    IsWordOf .rdmRequest bs i := by
  simp only [decode] at h
  split at h
  · next cc a b =>
    split at h <;> cases h
    all_goals
      next hcc hpid =>
      exact ⟨rfl, rfl, congr (congrArg List.cons (byte_eq_of hcc)) (pair_eq_of_be16_toNat hpid)⟩
  · cases h

/-- In every format but the RX event's, a word that decodes is its instruction's; a format of one-byte codes has one code for
each number its decoder knows. -/
theorem decode_exact_of_ne_rxEvent {f : Format} {bs : List Byte} {i : Instr} (hf : f ≠ .rxEvent)
    (h : decode f bs = .ok i) : IsWordOf f bs i := by
  cases f with
  | rxEvent => exact absurd rfl hf
  | handlerPort => exact decodePort_exact h
  | outerFrame => exact decode_outerFrame_exact h
  | statusFrame => exact decode_statusFrame_exact h
  | replyFrame => exact decode_replyFrame_exact h
  | nackReason => exact decode_nackReason_exact h
  | rdmRequest => exact decode_rdmRequest_exact h
  | rdmRequestPending | rdmRequestNotPending =>
    simp only [decode] at h
    split at h
    · next hword =>
      cases h
      exact ⟨rfl, rfl, hword⟩
    · split at h <;> cases h
  | frameMarker =>
    simp only [decode] at h
    split at h
    · split at h
      · next hb =>
        cases h
        exact ⟨rfl, rfl, congrArg (fun b => [b]) hb⟩
      · split at h <;> cases h
        exact ⟨rfl, rfl, congrArg (fun b => [b]) ‹_›⟩
    · cases h
  | rdmStartCode | rdmSubStartCode =>
    simp only [decode] at h
    split at h
    · split at h <;> cases h
      exact ⟨rfl, rfl, congrArg (fun b => [b]) ‹_›⟩
    · cases h
  | outerLabelDefault =>
    simp only [decode] at h
    split at h
    · split at h <;> cases h
      next hunknown => exact ⟨(Bool.not_eq_true' _).mpr (Bool.eq_false_iff.2 hunknown), rfl, rfl⟩
    · cases h
  | outerLabel | rdmCommandClass | rdmResponseType | statusCode =>
    simp only [decode] at h
    split at h
    · split at h <;> cases h <;> exact ⟨rfl, rfl, singleton_eq_of_toNat ‹_›⟩
    · cases h
  | validatorCheck | dispatchStep | pipeline =>
    simp only [decode] at h
    split at h
    · split at h
      · cases h
      · split at h <;> cases h <;> exact ⟨rfl, rfl, singleton_eq_of_toNat ‹_›⟩
    · cases h

/-- Settles O2: only the RX event has a word that is not the encoding of what it decodes to. -/
theorem decodeIsExact : Obligations.DecodeIsExact := by
  unfold Obligations.DecodeIsExact
  intro f bs i h
  by_cases hf : f = .rxEvent
  · subst hf
    obtain ⟨hwf, hformat, hword⟩ | ⟨rfl, hbits⟩ := decodeRxEvent_exact h
    · exact ⟨hwf, hformat, .inl hword⟩
    · exact ⟨rfl, rfl, .inr ⟨rfl, hbits⟩⟩
  · obtain ⟨hwf, hformat, hword⟩ := decode_exact_of_ne_rxEvent hf h
    exact ⟨hwf, hformat, .inl hword⟩

end Sys2Proof.Machine
end

section
/-! The label rows (O18): a frame under any label but RDM's is handed to the application (R138, R140). -/

namespace Sys2Proof.Machine

/-- The application's calls with nothing to call, or with a closed encoder (R140, R150). -/
theorem encodeCalls_callBytes {cs : List EncodeCall} {s : State} (hfit : ∀ c ∈ cs, c.payload.length ≤ 65535)
    (hfree : cs = [] ∨ s.enc.busy = false) : encodeCalls cs s = .next (tx (callBytes cs) s) := by
  obtain rfl | hclosed := hfree
  · simp only [encodeCalls, tx, callBytes, List.flatMap_nil, List.append_nil]
  · exact encodeCalls_eq cs s hclosed hfit

theorem handOff_handedOver {s : State} (label : Byte) (hfilled : PayloadFilled s)
    (hfit : ∀ c ∈ s.cfg.frameOutCalls, c.payload.length ≤ 65535)
    (hfree : s.cfg.frameOutCalls = [] ∨ s.enc.busy = false) : handOff label s = .next (handedOver label s) := by
  rw [handOff, payloadRun_payloadOf hfilled, withRead_ok]
  exact encodeCalls_callBytes hfit hfree

theorem emit_rdmLabel (s : State) : emit rdmLabel s = processFrame { s with enc.done := false } := rfl

theorem emit_of_ne_rdmLabel {label : Byte} (h : label ≠ rdmLabel) (s : State) :
    emit label s = handOff label { s with enc.done := false } := if_neg h

/-- A label other than RDM's hands the frame over, `e_done` cleared (R138, R140). -/
theorem emit_handedOver {s : State} {label : Byte} (h : label ≠ rdmLabel) (hfilled : PayloadFilled s)
    (hfit : ∀ c ∈ s.cfg.frameOutCalls, c.payload.length ≤ 65535)
    (hfree : s.cfg.frameOutCalls = [] ∨ s.enc.busy = false) :
    emit label s = .next { handedOver label s with enc.done := false } := by
  rw [emit_of_ne_rdmLabel h]
  exact handOff_handedOver (s := { s with enc.done := false }) label hfilled hfit hfree

/-- LABEL_OTHER carries no known label, so not RDM's (R99). -/
theorem ne_rdmLabel_of_labelOther {label : Byte} (h : (Instr.labelOther label).WellFormed) : label ≠ rdmLabel := by
  rintro rfl
  exact absurd h (by decide)

/-- Settles O18: every label row is the frame's emission under its label. -/
theorem labelRowsRoute : Obligations.LabelRowsRoute := by
  unfold Obligations.LabelRowsRoute
  refine fun s => ⟨emit_rdmLabel s, fun hfilled hfit hfree => ?_⟩
  have routes (label : Byte) (h : label ≠ rdmLabel) := emit_handedOver h hfilled hfit hfree
  exact ⟨routes 3 (by decide), routes 6 (by decide), routes 10 (by decide), routes 77 (by decide), routes 78 (by decide),
    fun l hwf => routes l (ne_rdmLabel_of_labelOther hwf)⟩

end Sys2Proof.Machine
end

section
/-! The reserved handler-port codes (O46), the reply frame (O48) and the rows of the codes the block sends (O50). -/

namespace Sys2Proof.Machine

/-- Settles O46: each of the six codes is the word of a reserved row (R106). -/
theorem reservedPortCodesStop : Obligations.ReservedPortCodesStop := by
  unfold Obligations.ReservedPortCodesStop
  intro s code hmin hmax
  have hcodes : code.toNat = 10 ∨ code.toNat = 11 ∨ code.toNat = 12 ∨ code.toNat = 13 ∨ code.toNat = 14
      ∨ code.toNat = 15 := by omega
  obtain hcode | hcode | hcode | hcode | hcode | hcode := hcodes
  all_goals
    obtain rfl := byte_eq_of hcode
    exact ⟨_, rfl, rfl⟩

theorem replyFrameBytes_length (ok : Byte) (f : ReplyFields) : (replyFrameBytes ok f).length = 32 + f.data.length := by
  simp only [replyFrameBytes, frameBytes, frameHeader, List.length_append, List.length_cons, List.length_nil,
    packetBytes_length]
  omega

/-- REPLY is a whole response (R97, R210). -/
theorem exec_reply {s : State} {f : ReplyFields} (hready : Ready s) (hunicast : s.ctx.bcast = false)
    (hdata : f.data.length ≤ 231) : exec (.reply f) s = .next (replied f s) :=
  openFillClose_eq f s (openFault_eq_none hready.1 hready.2 hunicast hdata)

/-- The reply frame written out: outer header, marker, packet, checksum, terminator (R97). -/
theorem replyFrameBytes_eq (ok : Byte) (f : ReplyFields) :
    replyFrameBytes ok f =
      [0x7E, 82, BitVec.ofNat 8 ((27 + f.data.length) % 256), BitVec.ofNat 8 ((27 + f.data.length) / 256), ok]
        ++ packetBody f ++ bytes16 (checksum (packetBody f)) ++ [0xE7] := by
  have hlen : (ok :: packetBytes f).length = 27 + f.data.length := by
    rw [List.length_cons, packetBytes_length]
    omega
  rw [replyFrameBytes, frameBytes, hlen]
  simp only [frameHeader, packetBytes, List.cons_append, List.nil_append, List.append_assoc]
  rfl

/-- Settles O48: the stated packet is `packetBody`, and REPLY puts its frame on TX. -/
theorem replyFrameLayout : Obligations.ReplyFrameLayout := by
  unfold Obligations.ReplyFrameLayout
  intro s f packet hready hunicast hdata hpacket
  obtain rfl : packet = packetBody f := hpacket
  refine ⟨packetBody_length f, replyFrameBytes_length _ f, ?_⟩
  rw [exec_reply hready hunicast hdata, replied, replyFrameBytes_eq]
  simp only [List.append_assoc]

/-- A NACK reason row in a ready encoder is the whole NACK for a unicast request (R102, R217). -/
theorem nack_answered {s : State} (hready : Ready s) (hunicast : s.ctx.bcast = false) (reason : Word16) :
    nack reason s = .next (answered 2 (bytes16 reason) s) :=
  nack_eq reason s (openFault_eq_none hready.1 hready.2 hunicast (by decide))

/-- The status frame written out (R98). -/
theorem statusFrameBytes_eq (code : Byte) : statusFrameBytes code = [0x7E, 82, 1, 0, code, 0xE7] := by
  simp only [statusFrameBytes, frameBytes, frameHeader, List.length_singleton]
  rfl

/-- A status code row with no response open is one status frame (R98, R103; log 21). -/
theorem codeFrame_eq {s : State} (hclosed : s.enc.busy = false) (code : Byte) :
    codeFrame code s = .next { s with trace.tx := s.trace.tx ++ [0x7E, 82, 1, 0, code, 0xE7] } := by
  rw [codeFrame, if_neg (Bool.eq_false_iff.1 hclosed), tx, statusFrameBytes_eq]

/-- A zero byte adds nothing to the sum. -/
theorem txAcc_zero (s : State) : txAcc 0 s = tx [0] s := by
  simp [txAcc, tx, sumByte]

/-- Settles O50: one emission rule for each kind of code. -/
theorem sentCodeRows : Obligations.SentCodeRows := by
  unfold Obligations.SentCodeRows
  intro s
  refine ⟨congrArg Host.Outcome.next (txAcc_zero s), rfl, rfl, ?reasons, congrArg Host.Outcome.next (statusMarker_eq s), ?codes⟩
  case reasons =>
    intro hready hunicast
    have hnack := nack_answered hready hunicast
    exact ⟨hnack 0, hnack 1, hnack 5, hnack 6, hnack 9⟩
  case codes =>
    intro hclosed
    exact ⟨codeFrame_eq hclosed _, codeFrame_eq hclosed _, codeFrame_eq hclosed _, codeFrame_eq hclosed _,
      codeFrame_eq hclosed _⟩

end Sys2Proof.Machine
end

section
/-! SUPPORT. The payload byte and the byte at the terminator's place in closed form (R135 to R137). -/

namespace Sys2Proof.Machine

theorem exec_rxInPayload_stored {s : State} (hfits : s.rx.ovf = false) (hcap : s.rx.cnt.toNat < s.cfg.frameCap) (b : Byte) :
    exec (.rxInPayload b) s = .next (counted (Memory.write s.buf s.rx.cnt.toNat b) s) := by
  simp only [exec, execRxInPayload, hfits, Bool.false_eq_true, if_false, memWrite, if_pos hcap, andThen_next]
  rfl

theorem exec_rxInPayload_skipped {s : State} (hovf : s.rx.ovf = true) (b : Byte) :
    exec (.rxInPayload b) s = .next (counted s.buf s) := by
  simp only [exec, execRxInPayload, if_pos hovf, andThen_next]
  rfl

/-- A byte that is no terminator, or one after an oversize frame, discards the frame (R136, R137). -/
theorem closeFrame_discard {s : State} {b : Byte} (h : b ≠ eomByte ∨ s.rx.ovf = true) :
    closeFrame b s = .next (goState .preStart s) := by
  refine if_neg fun hend => ?_
  obtain ⟨rfl, hfits⟩ := hend
  simp [hfits] at h

theorem closeFrame_eom {s : State} (hfits : s.rx.ovf = false) :
    closeFrame eomByte s = andThen (emit s.rx.label s) fun t => .next (goState .preStart t) :=
  if_pos ⟨rfl, hfits⟩

/-- The terminator of a frame that fits ends the frame's emission in `PRE_START` (R136). -/
theorem closeFrame_of_emit {s t : State} (hfits : s.rx.ovf = false) (hemit : emit s.rx.label s = .next t) :
    closeFrame eomByte s = .next (goState .preStart t) := by
  rw [closeFrame_eom hfits, hemit, andThen_next]

theorem closeFrame_of_emit_fault {s : State} {f : Fault} (hfits : s.rx.ovf = false)
    (hemit : emit s.rx.label s = .fault f) : closeFrame eomByte s = .fault f := by
  rw [closeFrame_eom hfits, hemit, andThen_fault]

end Sys2Proof.Machine
end


section
/-! SUPPORT. Whole frames through the deframer, from `PRE_START` to the terminator's place (R131 to R137). -/

namespace Sys2Proof.Machine

/-- The bytes `SOM, label, length` that open a frame (R90). -/
def openingBytes (label : Byte) (len : Word16) : List Byte := [0x7E, label, loByte len, hiByte len]

/-- The state at the end of a frame's header (R134). -/
def headed (label : Byte) (len : Word16) (s : State) : State :=
  { s with rx := ⟨if len = 0 then .awaitingEnd else .inPayload, label, len, 0, overflowFlag s.cfg len⟩ }

/-- The state at a frame's terminator: all of the payload is counted, and what was stored of it is in the buffer `m`. -/
def received (label : Byte) (len : Word16) (m : Memory) (s : State) : State :=
  { s with buf := m, rx := ⟨.awaitingEnd, label, len, len, overflowFlag s.cfg len⟩ }

theorem overflowFlag_eq_false {c : Config} {len : Word16} (h : len.toNat ≤ c.frameCap) : overflowFlag c len = false :=
  decide_eq_false (Nat.not_lt.2 h)

theorem overflowFlag_eq_true {c : Config} {len : Word16} (h : c.frameCap < len.toNat) : overflowFlag c len = true :=
  decide_eq_true h

theorem withBytes_append (bs cs : List Byte) (s : State) : withBytes (bs ++ cs) s = withBytes bs (withBytes cs s) := by
  simp only [withBytes, List.map_append, List.append_assoc]

theorem runSteps_one (s : State) : runSteps 1 s = step s := by
  rw [runSteps]
  cases step s <;> rfl

theorem headed_inPayload {len : Word16} (h : 0 < len.toNat) (label : Byte) (s : State) :
    (headed label len s).rx.state = .inPayload := by
  refine if_neg ?_
  rintro rfl
  exact absurd h (by decide)

section
variable {s : State} {label : Byte} {len : Word16} {ps : List Byte} (hs : s.rx.state = .preStart)
include hs

/-- The header of a frame, then its payload. -/
theorem runSteps_opening (n : Nat) :
    runSteps (n + 4) (withBytes (openingBytes label len ++ ps) s)
      = runSteps n (headed label len (withBytes ps s)) := by
  have hheader := header_run (withBytes (openingBytes label len ++ ps) s) label (loByte len) (hiByte len)
    (ps.map .rxByte ++ s.input) hs rfl
  have hlen : hiByte len ++ loByte len = len := be16_bytes16 len
  rw [hlen] at hheader
  rw [Nat.add_comm, runSteps_add, hheader]
  rfl

/-- A frame that fits the buffer is stored (R135). -/
theorem frame_run_stored (hlen : ps.length = len.toNat) (hcap : len.toNat ≤ s.cfg.frameCap) :
    ∃ m, runSteps (ps.length + 4) (withBytes (openingBytes label len ++ ps) s) = .next (received label len m s)
      ∧ ∀ a, Memory.read m a = if a < len.toNat then ps[a]? else Memory.read s.buf a := by
  rw [runSteps_opening hs]
  cases ps with
  | nil =>
    obtain rfl : len = 0 := BitVec.eq_of_toNat_eq hlen.symm
    exact ⟨s.buf, rfl, fun a => by simp⟩
  | cons p ps =>
    have hstate := headed_inPayload (by rw [← hlen]; simp) label (withBytes (p :: ps) s)
    obtain ⟨m, hrun, hread⟩ := payload_run (p :: ps) (headed label len (withBytes (p :: ps) s)) s.input rfl hstate
      (overflowFlag_eq_false hcap) hcap (by simpa [headed] using hlen) (List.cons_ne_nil p ps)
    exact ⟨m, hrun, fun a => by simpa [headed, withBytes] using hread a⟩

/-- An oversize frame is counted through (R137). -/
theorem frame_run_skipped (hlen : ps.length = len.toNat) (hcap : s.cfg.frameCap < len.toNat) :
    runSteps (ps.length + 4) (withBytes (openingBytes label len ++ ps) s) = .next (received label len s.buf s) := by
  rw [runSteps_opening hs]
  have hpos : 0 < len.toNat := by omega
  exact skip_run ps (headed label len (withBytes ps s)) s.input rfl (headed_inPayload hpos label _)
    (overflowFlag_eq_true hcap) (by simpa [headed] using hlen) (List.ne_nil_of_length_pos (hlen ▸ hpos))

/-- Either way the deframer comes to the terminator's place. -/
theorem frame_run (hlen : ps.length = len.toNat) :
    ∃ m, runSteps (ps.length + 4) (withBytes (openingBytes label len ++ ps) s) = .next (received label len m s) := by
  obtain hcap | hcap := Nat.lt_or_ge s.cfg.frameCap len.toNat
  · exact ⟨s.buf, frame_run_skipped hs hlen hcap⟩
  · obtain ⟨m, hrun, -⟩ := frame_run_stored hs hlen hcap
    exact ⟨m, hrun⟩

end

/-- The payload of a frame that was stored. -/
theorem payloadOf_received {s : State} {label : Byte} {len : Word16} {m old : Memory} {ps : List Byte}
    (hlen : ps.length = len.toNat)
    (hread : ∀ a, Memory.read m a = if a < len.toNat then ps[a]? else Memory.read old a) :
    payloadOf (received label len m s) = ps := by
  have hrun := run_eq m ps 0 fun a ha => by rw [Nat.zero_add, hread, if_pos (hlen ▸ ha)]
  rwa [hlen] at hrun

/-- The encoding of a frame is its opening bytes, its payload and the terminator (R90, R91). -/
theorem frameBytes_eq_openingBytes {label : Byte} {ps : List Byte} (h : ps.length ≤ 65535) :
    frameBytes label ps = openingBytes label (BitVec.ofNat 16 ps.length) ++ ps ++ [0xE7] := by
  have hlo := be16_lo (BitVec.ofNat 8 (ps.length / 256)) (BitVec.ofNat 8 (ps.length % 256))
  have hhi := be16_hi (BitVec.ofNat 8 (ps.length / 256)) (BitVec.ofNat 8 (ps.length % 256))
  have hlen : be16 (BitVec.ofNat 8 (ps.length / 256)) (BitVec.ofNat 8 (ps.length % 256)) = BitVec.ofNat 16 ps.length :=
    len_bytes ps.length h
  rw [hlen] at hlo hhi
  rw [openingBytes, hlo, hhi]
  rfl

/-- The byte at a frame's terminator. -/
theorem step_received (label b : Byte) (len : Word16) (m : Memory) (s : State) :
    step (received label len m (withBytes [b] s)) = closeFrame b (received label len m s) :=
  step_byte_eventOf rfl

/-- How many header bytes a deframer state still waits for (R131 to R134). -/
def headerLeft : RxState → Nat
  | .preStart => 4 | .gotStart => 3 | .gotLabel => 2 | .gotLengthLow => 1 | .inPayload | .awaitingEnd => 0

/-- A received byte is at most one header byte. -/
theorem headerLeft_step {b : Byte} {st : RxState} {s t : State} (hs : s.rx.state = st)
    (h : exec (eventOf b st) s = .next t) : headerLeft st ≤ headerLeft t.rx.state + 1 := by
  cases st with
  | preStart =>
    cases h
    by_cases hb : b = somByte
    · simp [hb, headerLeft]
    · simp [hb, headerLeft]
  | gotStart | gotLabel =>
    cases h
    simp [headerLeft]
  | gotLengthLow => simp [headerLeft]
  | inPayload | awaitingEnd => exact Nat.zero_le _

/-- No frame comes to its end before its header is complete. -/
theorem headerLeft_run {bs : List Byte} {rest : List Input} {s u : State} (hin : s.input = bs.map .rxByte ++ rest)
    (h : runSteps bs.length s = .next u) : headerLeft s.rx.state ≤ headerLeft u.rx.state + bs.length := by
  induction bs generalizing s with
  | nil =>
    cases h
    exact Nat.le_refl _
  | cons b bs ih =>
    obtain ⟨v, hv, hu⟩ := andThen_eq_next h
    rw [step_byte_eventOf hin] at hv
    have hfirst : headerLeft s.rx.state ≤ headerLeft v.rx.state + 1 :=
      headerLeft_step (s := { s with input := bs.map .rxByte ++ rest }) rfl hv
    have hrest := ih (onlyItsOwnWriter _ _ v hv).2.1 hu
    rw [List.length_cons]
    omega

/-- Only SOM leaves `PRE_START` (R131). -/
theorem eq_som_of_leaves_preStart {s : State} {b : Byte} {bs : List Byte} (hs : s.rx.state = .preStart)
    (h : ∀ v, runSteps 1 (withBytes (b :: bs) s) = .next v → v.rx.state ≠ .preStart) : b = 0x7E := by
  have hstep : runSteps 1 (withBytes (b :: bs) s) = seekStart b (withBytes bs s) := by
    rw [runSteps_one, step_byte_eventOf (b := b) (rest := bs.map .rxByte ++ s.input) rfl]
    exact congrArg (fun st => exec (eventOf b st) (withBytes bs s)) hs
  exact Decidable.byContradiction fun hb => h _ hstep (if_neg hb)

/-- Bytes after the header that end at the terminator, and have not passed `PRE_START`, are as many as the length says: fewer
leave the deframer in the payload, and the byte after them would return it to `PRE_START` (R135, R136). -/
theorem payload_length_of_run {s u : State} {label : Byte} {len : Word16} {ps : List Byte} (hs : s.rx.state = .preStart)
    (hrun : runSteps (ps.length + 4) (withBytes (openingBytes label len ++ ps) s) = .next u)
    (hpass : ∀ k v, 0 < k → k ≤ ps.length + 4 → runSteps k (withBytes (openingBytes label len ++ ps) s) = .next v →
      v.rx.state ≠ .preStart)
    (hend : u.rx.state = .awaitingEnd) : ps.length = len.toNat := by
  obtain hshort | hlen | hlong := Nat.lt_trichotomy ps.length len.toNat
  case inr.inl => exact hlen
  case inl =>
    rw [runSteps_opening hs] at hrun
    have hstate := partial_run ps _ u s.input rfl (headed_inPayload (by omega) label _) (by simpa [headed] using hshort) hrun
    rw [hend] at hstate
    exact absurd hstate (by decide)
  case inr.inr =>
    have hne : ps.drop len.toNat ≠ [] := by
      refine List.ne_nil_of_length_pos ?_
      rw [List.length_drop]
      omega
    obtain ⟨b, after, hafter⟩ := List.exists_cons_of_ne_nil hne
    have hsplit : ps = ps.take len.toNat ++ b :: after := by rw [← hafter, List.take_append_drop]
    have htake : (ps.take len.toNat).length = len.toNat := List.length_take_of_le (by omega)
    obtain ⟨m, hframe⟩ := frame_run (s := withBytes (b :: after) s) (label := label) hs htake
    rw [htake, ← withBytes_append, List.append_assoc, ← hsplit] at hframe
    obtain ⟨w, hw, hstep⟩ := one_more hframe hrun (by omega)
    have hpre := awaiting_next _ w b (after.map .rxByte ++ s.input) rfl rfl hstep
    exact absurd hpre (hpass _ w (by omega) (by omega) hw)

end Sys2Proof.Machine
end

section
/-! The oversize frame (O14) and the two halves of the round trip (O15, O16). -/

namespace Sys2Proof.Machine

/-- Settles O14: the frame is counted through to its terminator's place, where any byte discards it. -/
theorem oversizeFrameIsSwallowed : Obligations.OversizeFrameIsSwallowed := by
  unfold Obligations.OversizeFrameIsSwallowed
  intro s label len payload b hs hcap hlen
  have hrun := frame_run_skipped (s := withBytes [b] s) (label := label) hs hlen hcap
  have hovf : overflowFlag s.cfg len = true := overflowFlag_eq_true hcap
  rw [← hlen, withBytes_append]
  refine (runSteps_add (payload.length + 4) 1 _).trans ?_
  refine (congrArg (andThen · (runSteps 1)) hrun).trans ?_
  rw [andThen_next, runSteps_one, step_received, closeFrame_discard (.inr hovf)]
  simp only [goState, received, hovf]
  rfl

/-- Settles O15: the deframer stores the frame and comes to its terminator, which the last byte is. -/
theorem encodedFrameIsDeframed : Obligations.EncodedFrameIsDeframed := by
  unfold Obligations.EncodedFrameIsDeframed
  intro s label payload hs hcap h16
  have hlen : payload.length = (BitVec.ofNat 16 payload.length).toNat := by
    rw [BitVec.toNat_ofNat]
    omega
  have hfits : (BitVec.ofNat 16 payload.length).toNat ≤ s.cfg.frameCap := hlen ▸ hcap
  have hovf := overflowFlag_eq_false hfits
  obtain ⟨m, hrun, hread⟩ := frame_run_stored (s := withBytes [0xE7] s) (label := label) hs hlen hfits
  rw [frameBytes_eq_openingBytes h16, withBytes_append]
  refine ⟨_, hrun, rfl, ?rx, payloadOf_received hlen hread, ?cells, ?last⟩
  case rx => exact congrArg (RxRegs.mk _ _ _ _) hovf
  case cells =>
    intro a ha
    exact (hread a).trans (if_neg (by omega))
  case last =>
    intro t hemit
    exact (step_received ..).trans (closeFrame_of_emit hovf hemit)

/-- Settles O16: the bytes are a header and exactly the payload it declares, and the deframer has stored that payload. -/
theorem deframedBytesAreEncoding : Obligations.DeframedBytesAreEncoding := by
  unfold Obligations.DeframedBytesAreEncoding
  intro s u bs hs hrun hpass hend hfits
  rw [withBytes_append] at hrun hpass
  have hheader := headerLeft_run rfl hrun
  rw [show (withBytes bs (withBytes [0xE7] s)).rx.state = .preStart from hs, hend] at hheader
  obtain ⟨som, label, lo, hi, ps, rfl⟩ : ∃ som label lo hi ps, bs = som :: label :: lo :: hi :: ps := by
    match bs, hheader with
    | som :: label :: lo :: hi :: ps, _ => exact ⟨som, label, lo, hi, ps, rfl⟩
  obtain rfl := eq_som_of_leaves_preStart (s := withBytes [0xE7] s) hs fun v hv => hpass 1 v Nat.one_pos (by simp) hv
  have hopening : 0x7E :: label :: lo :: hi :: ps = openingBytes label (le16 lo hi) ++ ps := by
    rw [openingBytes, le16, show loByte (hi ++ lo) = lo from be16_lo hi lo, show hiByte (hi ++ lo) = hi from be16_hi hi lo]
    rfl
  rw [hopening] at hrun hpass ⊢
  have hlen := payload_length_of_run (s := withBytes [0xE7] s) (ps := ps) hs hrun hpass hend
  have h16 := (le16 lo hi).isLt
  obtain hcap | hcap := Nat.lt_or_ge s.cfg.frameCap (le16 lo hi).toNat
  · have hu := (frame_run_skipped (s := withBytes [0xE7] s) (label := label) hs hlen hcap).symm.trans hrun
    cases hu
    exact absurd ((overflowFlag_eq_true hcap).symm.trans hfits) (by decide)
  · obtain ⟨m, hframe, hread⟩ := frame_run_stored (s := withBytes [0xE7] s) (label := label) hs hlen hcap
    have hu := hframe.symm.trans hrun
    cases hu
    rw [payloadOf_received hlen hread, frameBytes_eq_openingBytes (by omega), hlen, BitVec.ofNat_toNat, BitVec.setWidth_eq]
    rfl

end Sys2Proof.Machine
end

section
/-! SUPPORT. A frame that lawful handlers answer comes to an outcome in every branch of its processing (R139, R196, R285). -/

namespace Sys2Proof.Machine

/-- The pipeline stops with an outcome and a closed encoder. -/
def Answers (f : Flow) : Prop := ∃ o, f = .stop o ∧ Completes o

theorem Answers.stop {o : Out} (h : Completes o) : Answers (.stop o) := ⟨o, rfl, h⟩

theorem raiseStatus_answers (k : StatusKind) {s : State} (h : Ready s) : Answers (raiseStatus k s) :=
  .stop (takeStatus_completes h)

theorem rejectPacket_answers (v : Verdict) (k : StatusKind) {s : State} (h : Ready s) : Answers (rejectPacket v k s) :=
  raiseStatus_answers k (s := { s with val.verdict := v }) h

/-- A handler that comes to an outcome returns. -/
theorem handlerReturn_completes {o : Out} (h : Completes o) : Completes (andThen o handlerReturn) := by
  obtain ⟨t, rfl, ho⟩ := h
  exact ⟨t, if_pos ho, ho⟩

theorem lawfulConfig_included {c : Config} (h : lawfulConfig c = true) : (includedPids c).length ≤ 115 := by
  simp only [lawfulConfig, Bool.and_eq_true, decide_eq_true_eq] at h
  exact h.1

/-- The handlers of a table entry keep the contract (R196). -/
theorem lawfulConfig_entry {c : Config} {i : Nat} {e : PidDefinition} (he : c.pidTable[i]? = some e)
    (h : lawfulConfig c = true) :
    (∀ b, e.get = some b → lawfulGet b = true) ∧ ∀ b, e.set = some b → lawfulSet b = true := by
  simp only [lawfulConfig, Bool.and_eq_true, List.all_eq_true] at h
  obtain ⟨hget, hset⟩ := h.2 e (List.mem_of_getElem? he)
  exact ⟨fun b hb => by simpa only [hb] using hget, fun b hb => by simpa only [hb] using hset⟩

/-- A request under dispatch whose declared parameters are there: the encoder is ready, and the `ResponseContext` has the
request's broadcast flag (R180). -/
structure Dispatchable (p : List Byte) (s : State) : Prop where
  carries : Carries s p
  header  : 26 + (p.getD 23 0).toNat ≤ p.length
  ready   : Ready s
  bcast   : s.ctx.bcast = s.val.isBroadcast
  lawful  : lawfulConfig s.cfg = true

namespace Dispatchable
variable {p : List Byte} {s : State}

/-- The dispatcher's own registers do not matter. -/
theorem withDisp (h : Dispatchable p s) (d : DispRegs) : Dispatchable p { s with disp := d } :=
  ⟨h.carries.congr rfl rfl, h.header, h.ready, h.bcast, h.lawful⟩

theorem withHandlerLog (h : Dispatchable p s) (l : List Invocation) :
    Dispatchable p { s with trace := { s.trace with handlerLog := l } } :=
  ⟨h.carries.congr rfl rfl, h.header, h.ready, h.bcast, h.lawful⟩

theorem readable (h : Dispatchable p s) : Readable s (24 + (byteAt s 23).toNat) := by
  have hheader := h.header
  rw [h.carries.byteAt (by omega)]
  exact h.carries.readable (by omega)

theorem readable_header (h : Dispatchable p s) : Readable s 24 := h.readable.mono (by omega)

theorem size (h : Dispatchable p s) : 26 + (byteAt s 23).toNat ≤ s.val.size.toNat := by
  have hheader := h.header
  rw [h.carries.byteAt (by omega), h.carries.size]
  exact hheader

theorem refusal_answers (h : Dispatchable p s) (reason : Word16) :
    Answers (.stop (nackOrSilent s.val.isBroadcast reason s)) :=
  .stop (nackOrSilent_completes h.ready h.bcast)

theorem getInvoke_answers (h : Dispatchable p s) {e : PidDefinition} (he : s.cfg.pidTable[s.disp.idx]? = some e)
    {b : GetBehaviour} (hb : e.get = some b) (hunicast : s.val.isBroadcast = false) : Answers (getInvoke s) := by
  rw [getInvoke_eq (tableEntry_eq he) hb]
  have hl := h.withHandlerLog (s.trace.handlerLog ++ [.get s.disp.idx])
  exact .stop (handlerReturn_completes (runGet_completes ((lawfulConfig_entry he h.lawful).1 b hb) hl.ready
    (h.bcast.trans hunicast) hl.readable_header hl.readable hl.size (lawfulConfig_included h.lawful)))

theorem setInvoke_answers (h : Dispatchable p s) {e : PidDefinition} (he : s.cfg.pidTable[s.disp.idx]? = some e)
    {b : SetBehaviour} (hb : e.set = some b) : Answers (setInvoke s) := by
  rw [setInvoke_eq (tableEntry_eq he) hb]
  have hl := h.withHandlerLog (s.trace.handlerLog ++ [.set s.disp.idx s.val.isBroadcast])
  exact .stop (handlerReturn_completes (runSet_completes ((lawfulConfig_entry he h.lawful).2 b hb) hl.ready h.bcast
    hl.readable_header hl.readable hl.size))

/-- The GET path answers: it refuses, or a lawful GET does (R185 to R189). -/
theorem getPath_answers (h : Dispatchable p s) {e : PidDefinition} (he : s.cfg.pidTable[s.disp.idx]? = some e) :
    Answers (getPath s) := by
  rw [getPath_eq (tableEntry_eq he) h.readable_header]
  cases hget : e.get with
  | none => exact h.refusal_answers _
  | some b =>
    rw [if_neg (by simp)]
    split
    · exact .stop (takeStatus_completes h.ready)
    · next hunicast =>
      rw [Bool.not_eq_true] at hunicast
      have hbcast := h.bcast.trans hunicast
      split
      · exact .stop (nack_completes h.ready hbcast)
      · split
        · exact .stop (nack_completes h.ready hbcast)
        · exact (h.withDisp _).getInvoke_answers he hget hunicast

/-- The SET path answers: it refuses, or a lawful SET does (R190, R191). -/
theorem setPath_answers (h : Dispatchable p s) {e : PidDefinition} (he : s.cfg.pidTable[s.disp.idx]? = some e) :
    Answers (setPath s) := by
  rw [setPath_eq (tableEntry_eq he)]
  cases hset : e.set with
  | none => exact h.refusal_answers _
  | some b =>
    rw [if_neg (by simp)]
    exact h.setInvoke_answers he hset

/-- The dispatcher answers, whatever class, sub-device and PID the request names (R180 to R191). -/
theorem dispatchLoaded_answers (h : Dispatchable p s) : Answers (dispatchLoaded s) := by
  have h24 : 24 ≤ p.length := by have := h.header; omega
  by_cases hclass : p.getD 20 0 ≠ 0x20 ∧ p.getD 20 0 ≠ 0x30
  · rw [dispatchLoaded_class h.carries h24 hclass]
    exact raiseStatus_answers _ h.ready
  by_cases hsub : subOf p ≠ 0x0000 ∧ subOf p ≠ 0xFFFF
  · rw [dispatchLoaded_sub h.carries h24 hclass hsub]
    have hclassed : Dispatchable p (classed p s) := h.withDisp _
    exact hclassed.refusal_answers _
  cases hentry : lastEntry s.cfg (pidOf p) with
  | none =>
    rw [dispatchLoaded_unknown h.carries h24 hclass hsub hentry]
    have hunfound : Dispatchable p (unfound p s) := h.withDisp _
    exact hunfound.refusal_answers _
  | some found =>
    obtain ⟨e, i⟩ := found
    rw [dispatchLoaded_found h.carries h24 hclass hsub hentry]
    have hfound : Dispatchable p (Machine.found p i s) := h.withDisp _
    split
    · exact hfound.getPath_answers (lastEntry_getElem hentry)
    · exact hfound.setPath_answers (lastEntry_getElem hentry)

end Dispatchable

/-- The dispatch of a screened request: the broadcast flag goes to the `ResponseContext` (R180). -/
theorem dispatch_screened_answers {s : State} {p : List Byte} (h : Carries s p)
    (hparams : 26 + (p.getD 23 0).toNat ≤ p.length) (hready : Ready s) (hlawful : lawfulConfig s.cfg = true) :
    Answers (dispatch (screened p s)) := by
  have hcarries : Carries (screened p s) p := h.congr rfl rfl
  rw [dispatch_carries hcarries (by omega)]
  exact Dispatchable.dispatchLoaded_answers ⟨hcarries.congr rfl rfl, hparams, hready, rfl, hlawful⟩

/-- A packet that fails a check, or is for another device, gets its status; any other is dispatched (R160 to R168). -/
theorem screenFrame_answers {s : State} {p : List Byte} (h : Carries s p)
    (hparams : p.length < 26 ∨ 26 + (p.getD 23 0).toNat ≤ p.length) (hready : Ready s)
    (hlawful : lawfulConfig s.cfg = true) : Answers ((screenFrame s).andThen dispatch) := by
  have rejected {v : Verdict} {k : StatusKind} {u : State} (hu : Ready u) (hv : validatePacket s = rejectPacket v k u) :
      Answers ((screenFrame s).andThen dispatch) := by
    rw [screenFrame_reject hv]
    exact rejectPacket_answers v k hu
  obtain h26 | h26 := Nat.lt_or_ge p.length 26
  · exact rejected hready (validatePacket_short h h26)
  by_cases h0 : p.getD 0 0 = 0xCC
  case neg => exact rejected hready (validatePacket_start h h26 (.inl h0))
  by_cases h1 : p.getD 1 0 = 0x01
  case neg => exact rejected hready (validatePacket_start h h26 (.inr h1))
  by_cases hlength : (p.getD 2 0).toNat + 2 = p.length
  case neg => exact rejected hready (validatePacket_length h h26 h0 h1 hlength)
  by_cases hsum : sumOk p
  case neg =>
    exact rejected (u := { s with val.sum := checksum (p.take (p.length - 2)) }) hready
      (validatePacket_checksum h h26 h0 h1 hlength hsum)
  have hvalid := validatePacket_go h h26 h0 h1 hlength hsum
  cases hus : broadcastOf p || namesUs s.store p with
  | false =>
    rw [screenFrame_stranger h (by omega) hvalid hus]
    exact raiseStatus_answers _ hready
  | true =>
    rw [screenFrame_go h (by omega) hvalid hus, Flow.andThen_go]
    exact dispatch_screened_answers h (hparams.resolve_left (by omega)) hready hlawful

/-- `ProcessRdm` completes on an answerable frame that has no outcome yet (R139). -/
theorem processFrame_completes {s : State} (h : Answerable s) (hdone : s.enc.done = false) : Completes (processFrame s) := by
  have hcarries := h.filled.carries
  have hlen : (payloadOf s).length = s.rx.len.toNat := hcarries.size.symm
  have hparams : (payloadOf s).length < 26 ∨ 26 + ((payloadOf s).getD 23 0).toNat ≤ (payloadOf s).length := by
    obtain hshort | hcarried := h.carries
    · exact .inl (hlen ▸ hshort)
    · rw [← hcarries.byteAt (by omega), hlen]
      exact .inr hcarried
  obtain ⟨o, hstop, t, rfl, ho⟩ := screenFrame_answers hcarries hparams ⟨h.closed, hdone⟩ h.lawful
  exact ⟨t, processFrame_stop hstop ho, ho⟩

theorem Answerable.clearDone {s : State} (h : Answerable s) : Answerable { s with enc.done := false } :=
  ⟨h.filled, h.lawful, h.closed, h.carries⟩

/-- What `ProcessRdm` leaves of a frame with no outcome yet is exactly one (R285). -/
theorem processFrame_outcomeSent {s t : State} (hready : Ready s) (h : processFrame s = .next t) : OutcomeSent s t :=
  ((processFrame_processed h).progress s rfl ⟨hready.1, hready.2, rfl, rfl⟩).outcome (processFrame_eq_next h).2

end Sys2Proof.Machine
end

section
/-! Every answerable frame is answered, on every path to `ProcessRdm` (O19). -/

namespace Sys2Proof.Machine

/-- Settles O19: the processing completes with one outcome, and the four paths are that processing. -/
theorem everyLawfulFrameIsAnswered : Obligations.EveryLawfulFrameIsAnswered := by
  unfold Obligations.EveryLawfulFrameIsAnswered
  intro s h
  obtain ⟨t, hprocess, -⟩ := processFrame_completes h.clearDone rfl
  have hready : Ready { s with enc.done := false } := ⟨h.closed, rfl⟩
  have hsent := processFrame_outcomeSent hready hprocess
  have ⟨hbusy, hdone, _⟩ := hsent
  have hemit : emit rdmLabel s = .next t := hprocess
  refine ⟨t, hemit, hsent.oneOutcome, hbusy, hdone, fun hs => ?alone, fun hlabel => ?routed⟩
  case alone =>
    have hsame : { s with enc.done := false } = s := by rw [← hs]
    rwa [hsame] at hprocess
  case routed =>
    have hlabelled : emit s.rx.label s = .next t := hlabel ▸ hemit
    exact ⟨hlabelled, fun hfits => ⟨closeFrame_of_emit hfits hlabelled, closeFrame_of_emit hfits hlabelled⟩⟩

end Sys2Proof.Machine
end

section
/-! The deframer's events one by one (O8 to O12) and the marker rows (O13). -/

namespace Sys2Proof.Machine

/-- An idle strobe whose callbacks keep their contract (R130, R330). -/
theorem idleStrobe_eq {s : State} (hfit : ∀ c ∈ s.cfg.idleCalls, c.payload.length ≤ 65535)
    (hfree : s.cfg.idleCalls = [] ∨ s.enc.busy = false) :
    idleStrobe s = .next (tx (callBytes s.cfg.idleCalls) (strobed s)) :=
  encodeCalls_callBytes (s := strobed s) hfit hfree

theorem strobed_committedLabel (s : State) :
    (strobed s).store.committedLabel = s.store.committedLabel
      ∨ (strobed s).store.committedLabel = s.store.deviceLabel := by
  simp only [strobed]
  split
  · exact .inr rfl
  · exact .inl rfl

/-- Settles O8: the strobe, then the application's calls. -/
theorem rxEmptyIdles : Obligations.RxEmptyIdles := by
  unfold Obligations.RxEmptyIdles
  intro s hfree hfit
  exact ⟨_, strobed_committedLabel s, idleStrobe_eq hfit hfree⟩

/-- Settles O9: RX_PRE_START as R131 writes it. -/
theorem preStartSeeksSom : Obligations.PreStartSeeksSom := by
  unfold Obligations.PreStartSeeksSom
  exact fun _ _ => rfl

/-- Settles O10: each header event as R132 to R134 write it. -/
theorem headerBytesLoad : Obligations.HeaderBytesLoad := by
  unfold Obligations.HeaderBytesLoad
  exact fun _ _ => ⟨rfl, rfl, rfl⟩

/-- Settles O11: an oversize frame's byte is skipped, any other is written at the count. -/
theorem payloadByteIsStored : Obligations.PayloadByteIsStored := by
  unfold Obligations.PayloadByteIsStored
  intro s b hplace
  cases hovf : s.rx.ovf with
  | true => exact ⟨_, exec_rxInPayload_skipped hovf b, fun a => by simp [counted], rfl⟩
  | false =>
    have hcap : s.rx.cnt.toNat < s.cfg.frameCap := hplace.resolve_left (by simp [hovf])
    exact ⟨_, exec_rxInPayload_stored hovf hcap b, fun a => by simp [counted, Memory.read_write], rfl⟩

/-- Settles O12: the byte either discards the frame or ends its emission. -/
theorem terminatorEmitsOrDiscards : Obligations.TerminatorEmitsOrDiscards := by
  unfold Obligations.TerminatorEmitsOrDiscards
  intro s b
  refine ⟨fun h => closeFrame_discard h, ?_⟩
  rintro rfl hfits
  exact ⟨fun t hemit => closeFrame_of_emit hfits hemit, fun f hemit => closeFrame_of_emit_fault hfits hemit⟩

/-- Settles O13: SOM is looked for, EOM closes the frame, which is handed off unless it is RDM's. -/
theorem markerRows : Obligations.MarkerRows := by
  unfold Obligations.MarkerRows
  intro s
  refine ⟨rfl, fun hovf => closeFrame_discard (.inr hovf), fun hfits t hemit => closeFrame_of_emit hfits hemit, ?handOff⟩
  case handOff =>
    intro hfits hlabel hfilled hclosed hfit
    exact closeFrame_of_emit hfits (emit_handedOver hlabel hfilled hfit (.inr hclosed))

end Sys2Proof.Machine
end

section
/-! Routing (O17) and `encode` (O47). -/

namespace Sys2Proof.Machine

/-- Settles O17: the label chooses between `ProcessRdm` and the hand-off. -/
theorem framesAreRouted : Obligations.FramesAreRouted := by
  unfold Obligations.FramesAreRouted
  intro s
  refine ⟨fun hlabel => (congrArg (emit · s) hlabel).trans (emit_rdmLabel s), fun hfilled hfit hfree => ?_⟩
  refine ⟨handOff_handedOver s.rx.label hfilled hfit hfree, fun hlabel => ?_⟩
  have hemit := emit_handedOver hlabel hfilled hfit hfree
  exact ⟨hemit, fun hfits => closeFrame_of_emit hfits hemit⟩

theorem encodeFrame_of_busy {s : State} (h : s.enc.busy = true) (label : Byte) (payload : List Byte) :
    encodeFrame label payload s = .fault .encoderBusy := if_pos h

theorem encodeFrame_of_closed {s : State} (h : s.enc.busy = false) (label : Byte) (payload : List Byte) :
    encodeFrame label payload s =
      if 65535 < payload.length then .fault .encodeTooLong else .next (tx (frameBytes label payload) s) :=
  if_neg (Bool.eq_false_iff.1 h)

/-- Settles O47: an open response is the first misuse, a payload too long the second; else the frame goes on TX. -/
theorem encodeFrames : Obligations.EncodeFrames := by
  unfold Obligations.EncodeFrames
  intro s label payload
  refine ⟨fun hclosed hlen => ?_, fun hclosed hlong => ?_, fun hbusy => encodeFrame_of_busy hbusy label payload⟩
  · have hframe := (encodeFrame_of_closed hclosed label payload).trans (if_neg (Nat.not_lt.2 hlen))
    rw [tx, frameBytes, ← List.append_assoc, ← List.append_assoc] at hframe
    exact hframe
  · exact (encodeFrame_of_closed hclosed label payload).trans (if_pos hlong)

end Sys2Proof.Machine
end

section
/-! SUPPORT. A packet that the validator rejects ends there; a packet that passes the four checks, one byte before its checksum
changed, is rejected by the check that covers the byte (R169). -/

namespace Sys2Proof.Machine

/-! A frame that a check rejects. -/

/-- A rejected frame leaves the verdict and the status, and nothing more is done with it (R160, R286). -/
theorem processFrame_of_reject {s u : State} {v : Verdict} {k : StatusKind}
    (h : validatePacket { s with val.size := s.rx.len } = rejectPacket v k u) (hready : Ready u) :
    processFrame s = .next (withStatus k { u with val.verdict := v }) := by
  have houtcome : outcomeReached (withStatus k { u with val.verdict := v }) = true := by
    simp [outcomeReached, hready.1]
  refine processFrame_stop ?_ houtcome
  rw [screenFrame_reject h, rejectPacket_eq v k hready, Flow.andThen_stop]

/-! One byte changed. -/

theorem packetPasses_iff (p : List Byte) :
    packetPasses p = true ↔
      26 ≤ p.length ∧ p.getD 0 0 = 0xCC ∧ p.getD 1 0 = 0x01 ∧ (p.getD 2 0).toNat + 2 = p.length ∧ sumOk p := by
  simp only [packetPasses, Bool.and_eq_true, decide_eq_true_eq, and_assoc]
  rfl

theorem getD_set_same {p : List Byte} {j : Nat} (h : j < p.length) (v : Byte) : (p.set j v).getD j 0 = v := by
  rw [List.getD_eq_getElem?_getD, List.getElem?_set_self h, Option.getD_some]

theorem getD_set_other (p : List Byte) {i j : Nat} (h : j ≠ i) (v : Byte) : (p.set j v).getD i 0 = p.getD i 0 := by
  rw [List.getD_eq_getElem?_getD, List.getElem?_set_ne h, List.getD_eq_getElem?_getD]

/-- A changed byte before the checksum no longer agrees with it (R164). -/
theorem not_sumOk_set {p : List Byte} {j : Nat} {v : Byte} (hj : j + 3 ≤ p.length) (hv : v ≠ p.getD j 0)
    (hsum : sumOk p) : ¬ sumOk (p.set j v) := by
  intro hset
  have hbefore : (p.set j v).take (p.length - 2) = (p.take (p.length - 2)).set j v := List.take_set
  have hafter : (p.set j v).drop (p.length - 2) = p.drop (p.length - 2) := List.drop_set_of_lt (by omega)
  rw [sumOk, List.length_set, hbefore, hafter, ← hsum] at hset
  have hj' : j < (p.take (p.length - 2)).length := by rw [List.length_take]; omega
  have hsame := (checksum_set _ j v hj').1 (bytes16_inj hset)
  rw [List.getD_eq_getElem?_getD, List.getElem?_take_of_lt (by omega), ← List.getD_eq_getElem?_getD] at hsame
  exact hv hsame

/-- The check that covers byte `j` of a packet, as the status and the verdict of its rejection (R169). -/
def rejectionAt (j : Nat) : StatusKind × Verdict :=
  if j < 2 then (.badStartCode, .badStartCode)
  else if j = 2 then (.badLength, .badLength)
  else (.badChecksum, .badChecksum)

theorem rejectionAt_start {j : Nat} (h : j < 2) : rejectionAt j = (.badStartCode, .badStartCode) := if_pos h

theorem rejectionAt_length : rejectionAt 2 = (.badLength, .badLength) := rfl

theorem rejectionAt_later {j : Nat} (h : 2 < j) : rejectionAt j = (.badChecksum, .badChecksum) := by
  rw [rejectionAt, if_neg (by omega), if_neg (by omega)]

/-- The checks before the one that covers the changed byte see the valid packet's bytes and pass; that one rejects. Of the state
only the validator's sum can have changed. -/
theorem validatePacket_changed {s : State} {p : List Byte} {j : Nat} {v : Byte} (h : Carries s (p.set j v))
    (hvalid : packetPasses p = true) (hj : j + 3 ≤ p.length) (hv : v ≠ p.getD j 0) :
    ∃ sum, validatePacket s =
      rejectPacket (rejectionAt j).2 (rejectionAt j).1 { s with val := { s.val with sum := sum } } := by
  obtain ⟨h26, h0, h1, hlength, hsum⟩ := (packetPasses_iff p).1 hvalid
  have hsize : (p.set j v).length = p.length := List.length_set
  have hchanged : (p.set j v).getD j 0 ≠ p.getD j 0 := by
    rwa [getD_set_same (show j < p.length by omega)]
  have hcodes (hj2 : 2 ≤ j) : (p.set j v).getD 0 0 = 0xCC ∧ (p.set j v).getD 1 0 = 0x01 :=
    ⟨(getD_set_other p (by omega) v).trans h0, (getD_set_other p (by omega) v).trans h1⟩
  obtain hstart | rfl | hlater := Nat.lt_trichotomy j 2
  · have hbad : (p.set j v).getD 0 0 ≠ 0xCC ∨ (p.set j v).getD 1 0 ≠ 0x01 := by
      obtain rfl | rfl : j = 0 ∨ j = 1 := by omega
      · exact .inl (h0 ▸ hchanged)
      · exact .inr (h1 ▸ hchanged)
    rw [rejectionAt_start hstart]
    exact ⟨s.val.sum, validatePacket_start h (by omega) hbad⟩
  · obtain ⟨h0', h1'⟩ := hcodes (Nat.le_refl 2)
    have hlen : ((p.set 2 v).getD 2 0).toNat + 2 ≠ (p.set 2 v).length := by
      rw [hsize, ← hlength]
      exact fun he => hchanged (BitVec.eq_of_toNat_eq (Nat.add_right_cancel he))
    rw [rejectionAt_length]
    exact ⟨s.val.sum, validatePacket_length h (by omega) h0' h1' hlen⟩
  · obtain ⟨h0', h1'⟩ := hcodes (by omega)
    have hlen : ((p.set j v).getD 2 0).toNat + 2 = (p.set j v).length := by
      rw [getD_set_other p (Nat.ne_of_gt hlater), hsize, hlength]
    rw [rejectionAt_later hlater]
    have hreject := validatePacket_checksum h (by omega) h0' h1' hlen (not_sumOk_set hj hv hsum)
    exact ⟨_, hreject⟩

/-! One cell of the buffer written. -/

theorem PayloadFilled.write {s : State} (h : PayloadFilled s) (j : Nat) (v : Byte) :
    PayloadFilled { s with buf := Memory.write s.buf j v } := by
  intro i hi
  rw [Memory.read_write]
  split
  · exact ⟨v, rfl⟩
  · exact h i hi

theorem payloadOf_write {s : State} {j : Nat} (h : j < s.rx.len.toNat) (v : Byte) :
    payloadOf { s with buf := Memory.write s.buf j v } = (payloadOf s).set j v :=
  Memory.run_write s.buf _ j v h

theorem payloadOf_length (s : State) : (payloadOf s).length = s.rx.len.toNat := bytesAt_length s 0 _

theorem byteAt_eq_payloadOf_getD {s : State} (h : PayloadFilled s) {j : Nat} (hj : j < s.rx.len.toNat) :
    byteAt s j = (payloadOf s).getD j 0 :=
  h.carries.byteAt (payloadOf_length s ▸ hj)

end Sys2Proof.Machine
end

section
/-! A changed packet is rejected (O30). -/

namespace Sys2Proof.Machine

/-- Settles O30: the changed packet is what the buffer carries, and the check that covers the changed byte rejects it. -/
theorem mutationIsRejected : Obligations.MutationIsRejected := by
  unfold Obligations.MutationIsRejected
  intro s j v hfilled hready hvalid hj hv
  have hcarries := (hfilled.write j v).carries
  rw [payloadOf_write (by omega)] at hcarries
  rw [byteAt_eq_payloadOf_getD hfilled (by omega)] at hv
  rw [← payloadOf_length] at hj
  obtain ⟨sum, hreject⟩ := validatePacket_changed hcarries hvalid hj hv
  exact ⟨_, _, _, processFrame_of_reject hreject hready, rfl, rfl, rfl⟩

end Sys2Proof.Machine
end

section
/-! SUPPORT. A step of the validator run alone: where its test passes it answers the state it leaves, where it rejects the verdict
and the status. -/

namespace Sys2Proof.Machine

theorem raiseStatus_out (k : StatusKind) {s : State} (h : Ready s) : (raiseStatus k s).out = .next (withStatus k s) :=
  congrArg Flow.out (raiseStatus_eq k h)

theorem rejectPacket_out (v : Verdict) (k : StatusKind) {s : State} (h : Ready s) :
    (rejectPacket v k s).out = .next (withStatus k { s with val.verdict := v }) :=
  congrArg Flow.out (rejectPacket_eq v k h)

/-- A check is one test: it goes on in `t`, or rejects from `u`. -/
theorem check_out {f : Flow} {c : Prop} [Decidable c] {v : Verdict} {k : StatusKind} {t u : State}
    (h : f = if c then rejectPacket v k u else .go t) :
    (¬ c → f.out = .next t) ∧ (c → Ready u → f.out = .next (withStatus k { u with val.verdict := v })) := by
  refine ⟨fun hpass => ?passes, fun hfail hready => ?rejects⟩
  case passes => rw [h, if_neg hpass, Flow.out_go]
  case rejects => rw [h, if_pos hfail, rejectPacket_out v k hready]

theorem checkSize_eq (s : State) :
    checkSize s = if s.val.size.toNat < 26 then rejectPacket .tooShort .tooShort s else .go s := rfl

theorem checkStartByte_eq {s : State} {n a : Nat} (h : Readable s n) (ha : a < n) (expected : Byte) :
    checkStartByte a expected s =
      if byteAt s a ≠ expected then rejectPacket .badStartCode .badStartCode s else .go s := by
  rw [checkStartByte, readByte_eq h ha, Flow.withRead_ok]

end Sys2Proof.Machine
end

section
/-! The checks and the destination match one by one (O23 to O29). -/

namespace Sys2Proof.Machine

/-- Settles O23: the test is `size < 26`. -/
theorem sizeCheck : Obligations.SizeCheck := by
  unfold Obligations.SizeCheck
  intro s
  obtain ⟨passes, rejects⟩ := check_out (checkSize_eq s)
  exact ⟨fun hsize => passes (Nat.not_lt.2 hsize), rejects⟩

/-- Settles O24: the test is that either byte differs. -/
theorem startCodeCheck : Obligations.StartCodeCheck := by
  unfold Obligations.StartCodeCheck
  intro s hread
  obtain ⟨passes, rejects⟩ := check_out (checkStartCodes_eq hread)
  exact ⟨fun h0 h1 => passes (not_or.2 ⟨not_not_intro h0, not_not_intro h1⟩), rejects⟩

/-- Settles O25: each start-code row tests its own byte, and each response class raises its status. -/
theorem requestCodeRows : Obligations.RequestCodeRows := by
  unfold Obligations.RequestCodeRows
  intro s
  refine ⟨fun hread => ?startCodes, fun hready => ?responseClasses⟩
  case startCodes =>
    obtain ⟨scPasses, scRejects⟩ := check_out (checkStartByte_eq hread (a := 0) (by omega) startCode)
    obtain ⟨subPasses, subRejects⟩ := check_out (checkStartByte_eq hread (a := 1) (by omega) subStartCode)
    exact ⟨fun h0 => scPasses (not_not_intro h0), scRejects, fun h1 => subPasses (not_not_intro h1), subRejects⟩
  case responseClasses => exact ⟨raiseStatus_out _ hready, raiseStatus_out _ hready⟩

/-- Settles O26: the test is of natural numbers, so nothing wraps. -/
theorem lengthCheck : Obligations.LengthCheck := by
  unfold Obligations.LengthCheck
  intro s hread
  obtain ⟨passes, rejects⟩ := check_out (checkLength_eq hread)
  exact ⟨fun heq => passes (not_not_intro heq), rejects⟩

/-- Settles O27: both outcomes start from the state with `v_sum` written. -/
theorem checksumCheck : Obligations.ChecksumCheck := by
  unfold Obligations.ChecksumCheck
  intro s n hsize hread
  obtain ⟨passes, rejects⟩ := check_out ((checkChecksum_eq hsize hread).trans (ite_not ..).symm)
  exact ⟨fun heq => passes (not_not_intro heq), rejects⟩

/-- Settles O28: the four bytes read as one number are all ones just if each byte is (`broadcastDetection_eq`). -/
theorem broadcastIsBytes5To8 : Obligations.BroadcastIsBytes5To8 := by
  unfold Obligations.BroadcastIsBytes5To8
  intro s hread
  exact congrArg Flow.out (broadcastDetection_eq hread)

/-- Settles O29: the six bytes are compared as a UID (`destinationMatch_eq`), and the reject step looks at `to_us` alone. The
plain name is the model's function. -/
theorem destinationMatch_holds : Obligations.DestinationMatch := by
  unfold Obligations.DestinationMatch
  intro s
  refine ⟨fun hread => ?compares, fun hus => ?accepts, fun hother hready => ?rejects⟩
  case compares =>
    have hmatch := congrArg Flow.out (destinationMatch_eq hread)
    rwa [← Bool.decide_coe s.val.isBroadcast, ← Bool.decide_or] at hmatch
  case accepts =>
    have hgo : destinationReject s = .go s := if_pos hus
    exact congrArg Flow.out hgo
  case rejects =>
    have hreject : destinationReject s = raiseStatus .wrongDestination s := if_neg (Bool.eq_false_iff.1 hother)
    exact (congrArg Flow.out hreject).trans (raiseStatus_out _ hready)

end Sys2Proof.Machine
end

section
/-! SUPPORT. A broadcast frame: what goes on to the dispatcher is marked broadcast, and the mark reaches `c_bcast` (R166, R180). -/

namespace Sys2Proof.Machine

/-! The pipeline backwards. -/

theorem Flow.andThen_eq_go {f : Flow} {k : State → Flow} {t : State} (h : f.andThen k = .go t) :
    ∃ s, f = .go s ∧ k s = .go t := by
  cases f with
  | go s => exact ⟨s, rfl, h⟩
  | stop o => cases h

theorem Flow.withRead_eq_go {α : Type} {r : Except Fault α} {k : α → Flow} {t : State}
    (h : Flow.withRead r k = .go t) : ∃ a, r = .ok a ∧ k a = .go t := by
  cases r with
  | ok a => exact ⟨a, rfl, h⟩
  | error f => cases h

/-- TX and the log have grown by one status. -/
def StatusAdded (s t : State) : Prop :=
  ∃ k, t.trace.tx = s.trace.tx ++ statusBytes s.cfg k ∧ t.trace.statusLog = s.trace.statusLog ++ [k]

/-- A step before the dispatcher that stops with a next state has added one status. -/
theorem Checks.statusAdded {s t : State} {f : Flow} (h : Checks s f) (hstop : f = .stop (.next t)) : StatusAdded s t := by
  obtain ⟨k, u, hearly, htake⟩ := h.2 t hstop
  obtain ⟨-, -, rfl⟩ := takeStatus_eq_next htake
  unfold Early at hearly
  rw [hearly]
  exact ⟨k, rfl, rfl⟩

theorem Early.buf {s t : State} (h : Early s t) : t.buf = s.buf := by
  unfold Early at h
  rw [h]

theorem Dispatching.ctx {s t : State} (h : Dispatching s t) : t.ctx = s.ctx := by
  unfold Dispatching at h
  rw [h]

theorem Ported.ctx {s t : State} (h : Ported s t) : t.ctx = s.ctx := by rw [h.eq]

theorem Handled.ctx {s t : State} (h : Handled s t) : t.ctx = s.ctx := by rw [h.eq]

/-- Nothing the dispatcher does after its entry writes the `ResponseContext`. -/
theorem Ends.ctx {s t : State} {f : Flow} (h : Ends s f) (hout : f.out = .next t) : t.ctx = s.ctx := by
  obtain hgo | hstop := Flow.out_eq_next hout
  · exact (h.1 t hgo).ctx
  · obtain ⟨u, hdispatching, hported | ⟨v, hhandled, -⟩⟩ := h.2 t hstop
    · exact hported.ctx.trans hdispatching.ctx
    · exact hhandled.ctx.trans hdispatching.ctx

/-! The broadcast mark. -/

/-- Bytes 5 to 8 of the frame in `buf` are all ones (R166). -/
def AddressesAll (s : State) : Prop := ∀ i, 5 ≤ i → i ≤ 8 → Memory.read s.buf i = some 0xFF

theorem Early.addressesAll {s t : State} (h : Early s t) (hall : AddressesAll s) : AddressesAll t := by
  rwa [AddressesAll, h.buf]

theorem memRead_addressesAll {s : State} {n : Nat} (hall : AddressesAll s) (h : memRead s 5 4 = .ok n) :
    n = natOfBytes [0xFF, 0xFF, 0xFF, 0xFF] := by
  simp only [memRead] at h
  split at h
  case isFalse => cases h
  case isTrue hsize =>
    have hbyte (i : Nat) (h5 : 5 ≤ i) (h8 : i ≤ 8) : readByte s i = .ok 0xFF := by
      rw [readByte, if_pos (by omega), hall i h5 h8]
    have hrun : readRun s 5 4 = .ok [0xFF, 0xFF, 0xFF, 0xFF] := by
      simp only [readRun, hbyte 5, hbyte 6, hbyte 7, hbyte 8, Nat.reduceLeDiff]
    rw [hrun] at h
    exact (Except.ok.inj h).symm

theorem broadcastDetection_addressesAll {s t : State} (hall : AddressesAll s) (h : broadcastDetection s = .go t) :
    t.val.isBroadcast = true := by
  obtain ⟨n, hread, hgo⟩ := Flow.withRead_eq_go h
  obtain rfl := memRead_addressesAll hall hread
  cases hgo
  rfl

/-- The destination match leaves the broadcast flag as it is. -/
theorem destinationMatch_isBroadcast {s t : State} (h : destinationMatch s = .go t) :
    t.val.isBroadcast = s.val.isBroadcast := by
  obtain ⟨n, -, hgo⟩ := Flow.withRead_eq_go h
  cases hgo
  rfl

theorem destinationReject_eq_go {s t : State} (h : destinationReject s = .go t) : t = s := by
  unfold destinationReject at h
  split at h
  · cases h; rfl
  · cases h

/-- A broadcast frame that reaches the dispatcher is marked broadcast. -/
theorem screenFrame_addressesAll {s t : State} (hall : AddressesAll s) (h : screenFrame s = .go t) :
    t.val.isBroadcast = true := by
  obtain ⟨w, hmatched, hreject⟩ := Flow.andThen_eq_go h
  obtain ⟨v, hdetected, hmatch⟩ := Flow.andThen_eq_go hmatched
  obtain ⟨u, hvalid, hdetect⟩ := Flow.andThen_eq_go hdetected
  have hearly : Early s u := (validatePacket_checks s).1 u hvalid
  rw [destinationReject_eq_go hreject, destinationMatch_isBroadcast hmatch]
  exact broadcastDetection_addressesAll (hearly.addressesAll hall) hdetect

/-- On entry the dispatcher copies the mark into `c_bcast` (R30, R180). -/
theorem loadContext_bcast {s t : State} (h : loadContext s = .go t) : t.ctx.bcast = s.val.isBroadcast := by
  obtain ⟨dst, -, h⟩ := Flow.withRead_eq_go h
  obtain ⟨tn, -, h⟩ := Flow.withRead_eq_go h
  obtain ⟨sub, -, h⟩ := Flow.withRead_eq_go h
  obtain ⟨cc, -, h⟩ := Flow.withRead_eq_go h
  obtain ⟨pid, -, h⟩ := Flow.withRead_eq_go h
  cases h
  rfl

/-- The processing of a broadcast frame ends in a status before the dispatcher has loaded `c_bcast`, or with `c_bcast` set. -/
theorem processFrame_addressesAll {s t : State} (hall : AddressesAll s) (h : processFrame s = .next t) :
    StatusAdded s t ∨ t.ctx.bcast = true := by
  obtain ⟨hout, -⟩ := processFrame_eq_next h
  have hchecks := screenFrame_checks { s with val.size := s.rx.len }
  cases hscreen : screenFrame { s with val.size := s.rx.len } with
  | stop o =>
    rw [hscreen, Flow.andThen_stop, Flow.out_stop] at hout
    exact .inl (hchecks.statusAdded (hscreen.trans (congrArg Flow.stop hout)))
  | go u =>
    have hmark : u.val.isBroadcast = true := screenFrame_addressesAll (s := { s with val.size := s.rx.len }) hall hscreen
    rw [hscreen, Flow.andThen_go, dispatch_eq] at hout
    cases hload : loadContext u with
    | stop o =>
      rw [hload, Flow.andThen_stop, Flow.out_stop] at hout
      have hboth := hchecks.andThen (k := loadContext) fun u _ => loadContext_checks u
      rw [hscreen, Flow.andThen_go, hload, hout] at hboth
      exact .inl (hboth.statusAdded rfl)
    | go v =>
      rw [hload, Flow.andThen_go] at hout
      right
      rw [(dispatchLoaded_ends v).ctx hout, loadContext_bcast hload, hmark]

end Sys2Proof.Machine
end

section
/-! A broadcast request gets no reply frame (O21). -/

namespace Sys2Proof.Machine

/-- The one outcome of a broadcast frame is a status: a reply goes out only while `c_bcast` is clear (`OutcomeSent`). -/
theorem processFrame_broadcast_statusAdded {s t : State} (hready : Ready s) (hall : AddressesAll s)
    (h : processFrame s = .next t) : StatusAdded s t := by
  obtain hstatus | hmark := processFrame_addressesAll hall h
  · exact hstatus
  · obtain ⟨-, -, ⟨f, -, -, -, hunicast⟩ | hstatus⟩ := processFrame_outcomeSent hready h
    · rw [hmark] at hunicast
      cases hunicast
    · exact hstatus

/-- A response to a broadcast request is the third misuse in the order of log 16; a ready encoder rules out the first two. -/
theorem openFault_of_broadcast {s : State} (hready : Ready s) (hmark : s.ctx.bcast = true) (pdl : Nat) :
    openFault s pdl = some .replyToBroadcast := by
  simp [openFault, hready.1, hready.2, hmark]

/-- Settles O21: the outcome is a status, and `startResponse` finds the misuse. -/
theorem broadcastGetsNoReply : Obligations.BroadcastGetsNoReply := by
  unfold Obligations.BroadcastGetsNoReply
  refine ⟨fun s t hclosed hall h => ?frame, fun s rt pdl cc pid hready hmark => ?startResponse⟩
  case frame => exact processFrame_broadcast_statusAdded (s := { s with enc.done := false }) ⟨hclosed, rfl⟩ hall h
  case startResponse =>
    have hfault : exec (.startResponse rt pdl cc pid) s = unlessFault (openFault s pdl.toNat) _ :=
      openReply_eq (replyFieldsOf s rt cc pid []) pdl.toNat s
    rw [hfault, openFault_of_broadcast hready hmark, unlessFault_some]

end Sys2Proof.Machine
end

section
/-! SUPPORT. The invocation of a handler that keeps the contract: it is logged, and from a ready encoder it leaves exactly one
outcome (R189, R191, R196). -/

namespace Sys2Proof.Machine

theorem quietGet_of_lawfulGet {b : GetBehaviour} (h : lawfulGet b = true) : quietGet b = true := by
  cases b with
  | agent id => cases h
  | supportedParameters | queuedMessage | readField f w | other id | script cmds => rfl

theorem settledSet_of_lawfulSet {b : SetBehaviour} (h : lawfulSet b = true) : settledSet b = true := by
  cases b with
  | script acts => cases h
  | agent id => cases h
  | deviceLabel | startAddress | serialNumber | writeField f | other id => rfl

/-- The state in which a handler starts: its invocation is in `HANDLER_LOG`. -/
def logged (v : Invocation) (s : State) : State :=
  { s with trace.handlerLog := s.trace.handlerLog ++ [v] }

/-- A handler that starts with nothing sent and returns with an outcome has served the request. -/
theorem served_of_handled {v : Invocation} {s t : State} (hready : Ready s) (h : Handled (logged v s) t)
    (ho : outcomeReached t = true) : Served v s t := by
  have hstart : Progress s (logged v s) := ⟨rfl, .inl ⟨hready.1, hready.2, rfl, rfl⟩⟩
  have hsent := (h.progress s hstart).outcome ho
  have hlog : t.trace.handlerLog = s.trace.handlerLog ++ [v] := by rw [h.eq]; rfl
  have ⟨hbusy, hdone, _⟩ := hsent
  exact ⟨hsent.oneOutcome, hbusy, hdone, hlog⟩

/-- A handler's operation that comes to an outcome returns, and has served the request. -/
theorem handlerReturn_served {v : Invocation} {s : State} {o : Out} (hready : Ready s) (hcompletes : Completes o)
    (hhandled : ∀ t, o = .next t → Handled (logged v s) t) :
    ∃ t, andThen o handlerReturn = .next t ∧ Served v s t := by
  obtain ⟨t, rfl, ho⟩ := hcompletes
  exact ⟨t, if_pos ho, served_of_handled hready (hhandled t rfl) ho⟩

section
variable {s : State} {e : PidDefinition} (he : s.cfg.pidTable[s.disp.idx]? = some e) (hready : Ready s)
  (hread : Readable s (24 + (byteAt s 23).toNat)) (hsize : 26 + (byteAt s 23).toNat ≤ s.val.size.toNat)
include he hready hread hsize

/-- A lawful GET handler serves a unicast request (R189). -/
theorem getInvoke_served {b : GetBehaviour} (hb : e.get = some b) (hlawful : lawfulGet b = true)
    (hincluded : (includedPids s.cfg).length ≤ 115) (hunicast : s.ctx.bcast = false) :
    ∃ t, (getInvoke s).out = .next t ∧ Served (.get s.disp.idx) s t := by
  rw [getInvoke_eq (tableEntry_eq he) hb]
  refine handlerReturn_served hready ?_ fun t h => (runGet_handled h fun _ => quietGet_of_lawfulGet hlawful).1
  exact runGet_completes (s := logged (.get s.disp.idx) s) hlawful hready hunicast (hread.mono (by omega)) hread hsize
    hincluded

/-- A lawful SET handler serves a request, broadcast or not (R191). -/
theorem setInvoke_served {b : SetBehaviour} (hb : e.set = some b) (hlawful : lawfulSet b = true)
    (hbcast : s.ctx.bcast = s.val.isBroadcast) :
    ∃ t, (setInvoke s).out = .next t ∧ Served (.set s.disp.idx s.val.isBroadcast) s t := by
  rw [setInvoke_eq (tableEntry_eq he) hb]
  refine handlerReturn_served hready ?_ fun t h => runSet_handled h fun _ => settledSet_of_lawfulSet hlawful
  exact runSet_completes (s := logged (.set s.disp.idx s.val.isBroadcast) s) hlawful hready hbcast
    (hread.mono (by omega)) hread hsize

end

/-- The SET path of an entry with a SET handler invokes it (R190, R191). -/
theorem setPath_of_handler {s : State} {e : PidDefinition} (he : s.cfg.pidTable[s.disp.idx]? = some e)
    (hset : e.set.isSome = true) : setPath s = setInvoke s := by
  rw [setPath_eq (tableEntry_eq he), if_neg (ne_false_of_eq_true hset)]

/-- The GET path of an entry with a GET handler invokes it for a unicast request to the root device that declares the entry's
length (R185 to R189). -/
theorem getPath_of_handler {s : State} {e : PidDefinition} (he : s.cfg.pidTable[s.disp.idx]? = some e)
    (hread : Readable s 24) (hget : e.get.isSome = true) (hunicast : s.val.isBroadcast = false)
    (hroot : s.disp.sub = 0x0000) (hlen : byteAt s 23 = e.getArgLen) :
    getPath s = getInvoke { s with disp.pdl := byteAt s 23 } := by
  rw [getPath_eq (tableEntry_eq he) hread, if_neg (ne_false_of_eq_true hget), if_neg (Bool.eq_false_iff.1 hunicast),
    if_neg (not_not_intro hroot), if_neg (not_not_intro hlen)]

end Sys2Proof.Machine
end

section
/-! The PID lookup (O33) and lawful handlers (O37). -/

namespace Sys2Proof.Machine

/-- Settles O33: the scan of the whole table keeps the last index that matched (`scanTable_spec`), and the lookup keeps `d_idx`
where none did. -/
theorem lookupTakesLastMatch : Obligations.LookupTakesLastMatch := by
  unfold Obligations.LookupTakesLastMatch
  rintro s pid hread rfl
  have hlookup := congrArg Flow.out (pidLookup_eq hread)
  obtain ⟨hscan, hnone⟩ | ⟨k, e, hscan, hentry, hpid, hlast⟩ :=
    scanTable_spec (be16 (byteAt s 21) (byteAt s 22)) s.cfg.pidTable 0 none
  case inl =>
    rw [hscan] at hlookup
    refine ⟨_, hlookup, rfl, ?_, nofun, nofun, fun _ => rfl⟩
    exact ⟨nofun, fun ⟨e, hmem, hpid⟩ => absurd hpid (hnone e hmem)⟩
  case inr =>
    rw [hscan, Nat.zero_add] at hlookup
    refine ⟨_, hlookup, rfl, ?_, fun _ => ⟨e, hentry, hpid⟩, fun _ => hlast, nofun⟩
    exact ⟨fun _ => ⟨e, List.mem_of_getElem? hentry, hpid⟩, fun _ => rfl⟩

/-- Settles O37: each invoking step serves the request, and each class row comes to its invoking step. -/
theorem lawfulHandlersComplete : Obligations.LawfulHandlersComplete := by
  unfold Obligations.LawfulHandlersComplete
  intro s e he hready hincluded hread hsize
  refine ⟨fun b hb hlawful hunicast => ⟨?getStep, fun hflag hroot hlen => ?getRow⟩, fun b hb hlawful hbcast => ?set⟩
  case getStep => exact getInvoke_served he hready hread hsize hb hlawful hincluded hunicast
  case getRow =>
    have hrow : exec .ccGet s = (getInvoke { s with disp.pdl := byteAt s 23 }).out :=
      congrArg Flow.out (getPath_of_handler he (hread.mono (by omega)) (by simp [hb]) hflag hroot hlen)
    rw [hrow]
    exact getInvoke_served (s := { s with disp.pdl := byteAt s 23 }) he hready hread hsize hb hlawful hincluded hunicast
  case set =>
    obtain ⟨t, hstep, hserved⟩ := setInvoke_served he hready hread hsize hb hlawful hbcast
    have hrow : exec .ccSet s = (setInvoke s).out := congrArg Flow.out (setPath_of_handler he (by simp [hb]))
    exact ⟨t, hstep, hrow.trans hstep, hserved⟩

end Sys2Proof.Machine
end

section
/-! The dispatcher's checks one by one (O31, O32, O34, O35), and the class rows that run them in order (O36). -/

namespace Sys2Proof.Machine

/-- Settles O31: both outcomes start from the state with `d_cc` loaded. -/
theorem commandClassCheck : Obligations.CommandClassCheck := by
  unfold Obligations.CommandClassCheck
  intro s hread
  have hcheck := congrArg Flow.out (ccCheck_eq hread)
  refine ⟨fun hclass => ?passes, fun hget hset hready => ?rejects⟩
  case passes =>
    rw [if_neg fun ⟨hget, hset⟩ => hclass.elim hget hset] at hcheck
    exact hcheck
  case rejects =>
    rw [if_pos ⟨hget, hset⟩] at hcheck
    exact hcheck.trans (raiseStatus_out _ hready)

/-- Settles O32: both outcomes start from the state with `d_sub` loaded. -/
theorem subDeviceCheck : Obligations.SubDeviceCheck := by
  unfold Obligations.SubDeviceCheck
  rintro s sub hread rfl
  have hcheck := congrArg Flow.out (subDeviceRange_eq hread)
  refine ⟨fun hrange => ?passes, fun hroot hall => ?refuses⟩
  case passes =>
    rw [if_neg fun ⟨hroot, hall⟩ => hrange.elim hroot hall] at hcheck
    exact hcheck
  case refuses =>
    rw [if_pos ⟨hroot, hall⟩] at hcheck
    exact hcheck

/-- A step that goes on where `b` holds and refuses where it does not, run alone. -/
theorem refusal_out {f : Flow} {b : Bool} {s : State} {o : Out} (h : f = if b then .go s else .stop o) :
    (b = true → f.out = .next s) ∧ (b = false → f.out = o) := by
  subst h
  cases b
  · exact ⟨nofun, fun _ => rfl⟩
  · exact ⟨fun _ => rfl, nofun⟩

/-- Settles O34: each of the three steps is one test (`refusal_out`). -/
theorem missingHandlersAreRefused : Obligations.MissingHandlersAreRefused := by
  unfold Obligations.MissingHandlersAreRefused
  intro s
  obtain ⟨known, unknown⟩ := refusal_out (f := unknownPid s) rfl
  refine ⟨known, unknown, fun e he => ?_⟩
  obtain ⟨hasGet, noGet⟩ := refusal_out (getNoHandler_eq (tableEntry_eq he))
  obtain ⟨hasSet, noSet⟩ := refusal_out (setNoHandler_eq (tableEntry_eq he))
  exact ⟨hasGet, fun hget => noGet (by rw [hget]; rfl), hasSet, fun hset => noSet (by rw [hset]; rfl)⟩

/-- Settles O35: each of the three steps is one test, the length check's from the state with `d_pdl` loaded. -/
theorem getChecks : Obligations.GetChecks := by
  unfold Obligations.GetChecks
  intro s
  refine ⟨fun hunicast => ?unicast, fun hbcast hready => ?broadcast, fun hroot => ?root, fun hsub => ?subDevice,
    fun e he hread => ?_⟩
  case unicast => exact congrArg Flow.out (if_neg (Bool.eq_false_iff.1 hunicast))
  case broadcast => exact (congrArg Flow.out (if_pos hbcast)).trans (takeStatus_eq _ s hready.1 hready.2)
  case root => exact congrArg Flow.out (if_neg (not_not_intro hroot))
  case subDevice => exact congrArg Flow.out (if_pos hsub)
  have hcheck := congrArg Flow.out (getArgSize_eq (tableEntry_eq he) hread)
  refine ⟨fun hlen => ?length, fun hlen => ?wrongLength⟩
  case length =>
    rw [if_neg (not_not_intro hlen)] at hcheck
    exact hcheck
  case wrongLength =>
    rw [if_pos hlen] at hcheck
    exact hcheck

/-- Settles O36: a row is its path in closed form (`getPath_eq`, `setPath_eq`), and the path's end is that of the first step
that refuses. -/
theorem classRowsRunTheirPath : Obligations.ClassRowsRunTheirPath := by
  unfold Obligations.ClassRowsRunTheirPath
  intro s e he hread
  have getRow : exec .ccGet s = _ := congrArg Flow.out (getPath_eq (tableEntry_eq he) hread)
  have setRow : exec .ccSet s = _ := congrArg Flow.out (setPath_eq (tableEntry_eq he))
  refine ⟨fun hnone => ?getNoHandler, fun hsome hbcast => ?getBroadcast, fun hsome hunicast hsub => ?getSubDevice,
    fun hsome hunicast hroot hlen => ?getArgSize, fun hsome hunicast hroot hlen => ?getInvoke,
    fun hnone => ?setNoHandler, fun hsome => ?setInvoke⟩
  case getNoHandler =>
    have hmissing : e.get.isSome = false := by rw [hnone]; rfl
    rw [if_pos hmissing] at getRow
    exact getRow.trans ((refusal_out (getNoHandler_eq (tableEntry_eq he))).2 hmissing).symm
  case getBroadcast =>
    rw [if_neg (ne_false_of_eq_true hsome), if_pos hbcast] at getRow
    exact getRow.trans (congrArg Flow.out (if_pos hbcast)).symm
  case getSubDevice =>
    rw [if_neg (ne_false_of_eq_true hsome), if_neg (Bool.eq_false_iff.1 hunicast), if_pos hsub] at getRow
    exact getRow.trans (congrArg Flow.out (if_pos hsub)).symm
  case getArgSize =>
    rw [if_neg (ne_false_of_eq_true hsome), if_neg (Bool.eq_false_iff.1 hunicast), if_neg (not_not_intro hroot),
      if_pos hlen] at getRow
    exact getRow.trans (congrArg Flow.out ((getArgSize_eq (tableEntry_eq he) hread).trans (if_pos hlen))).symm
  case getInvoke => exact congrArg Flow.out (getPath_of_handler he hread hsome hunicast hroot hlen)
  case setNoHandler =>
    have hmissing : e.set.isSome = false := by rw [hnone]; rfl
    rw [if_pos hmissing] at setRow
    exact setRow.trans ((refusal_out (setNoHandler_eq (tableEntry_eq he))).2 hmissing).symm
  case setInvoke => exact congrArg Flow.out (setPath_of_handler he hsome)

end Sys2Proof.Machine
end

section
/-! SUPPORT. A reply packet passes the four checks, as a byte string (`packetPasses`) and under the machine's own check operations
(R160 to R164, R225). -/

namespace Sys2Proof.Machine

/-- The last two bytes of a reply packet are the checksum of the others (R95). -/
theorem sumOk_packetBytes (f : ReplyFields) : sumOk (packetBytes f) := by
  have hbody : (packetBytes f).length - 2 = (packetBody f).length := by
    rw [packetBytes, List.length_append, bytes16_length, Nat.add_sub_cancel]
  rw [sumOk, hbody, packetBytes, List.take_left, List.drop_left]

theorem packetPasses_packetBytes {f : ReplyFields} (hdata : f.data.length ≤ 231) : packetPasses (packetBytes f) = true := by
  have hlength : (packetBytes f).getD 2 0 = BitVec.ofNat 8 (24 + f.data.length) := rfl
  refine (packetPasses_iff _).2 ⟨?size, rfl, rfl, ?declared, sumOk_packetBytes f⟩
  case size =>
    rw [packetBytes_length]
    omega
  case declared =>
    rw [hlength, packetBytes_length, BitVec.toNat_ofNat]
    omega

/-- The four check operations, run one by one on a packet that passes, write nothing but `v_sum`. -/
theorem checkOperations_pass {s : State} {p : List Byte} (hcarries : Carries s p) (hpasses : packetPasses p = true) :
    exec .validateSize s = .next s ∧ exec .validateStartCodes s = .next s ∧ exec .validateLength s = .next s
      ∧ exec .validateChecksum s = .next { s with val.sum := checksum (p.take (p.length - 2)) } := by
  obtain ⟨h26, h0, h1, hlength, hsum⟩ := (packetPasses_iff p).1 hpasses
  have hchecksum := (checkChecksum_carries hcarries (by omega)).trans (if_pos hsum)
  exact ⟨congrArg Flow.out (checkSize_go hcarries h26), congrArg Flow.out (checkStartCodes_go hcarries h26 h0 h1),
    congrArg Flow.out (checkLength_go hcarries h26 hlength), congrArg Flow.out hchecksum⟩

end Sys2Proof.Machine
end

section
/-! A reply frame fed back to a deframer (O49). -/

namespace Sys2Proof.Machine

/-- Settles O49: the deframer takes the frame apart (O15), and its payload after the marker is a packet that passes. -/
theorem repliesAreWellFormed : Obligations.RepliesAreWellFormed := by
  unfold Obligations.RepliesAreWellFormed
  intro s ok f hdata hs hcap
  have hlen : (ok :: packetBytes f).length = 27 + f.data.length := by
    rw [List.length_cons, packetBytes_length]
    omega
  obtain ⟨u, hrun, hframe, hrx, hpayload, -⟩ :=
    encodedFrameIsDeframed s rdmLabel (ok :: packetBytes f) hs (by rwa [hlen]) (by omega)
  have hsteps : (ok :: packetBytes f).length + 4 = 31 + f.data.length := by omega
  rw [hsteps] at hrun
  have hpasses := packetPasses_packetBytes hdata
  refine ⟨u, packetBytes f, hrun, congrArg State.input hframe, congrArg RxRegs.state hrx, congrArg RxRegs.label hrx,
    congrArg RxRegs.ovf hrx, hpayload, hpasses, fun v hsize hread hbytes => ?_⟩
  obtain ⟨size, startCodes, length, sum⟩ := checkOperations_pass ⟨hsize, hbytes, hread.2⟩ hpasses
  exact ⟨size, startCodes, length, _, sum⟩

end Sys2Proof.Machine
end

section
/-! SUPPORT. When the encoder accepts an operation and which fault stops it otherwise: a lemma per requirement of R224's list
(that a broadcast request gets no response is `openFault_of_broadcast`). -/

namespace Sys2Proof.Machine

theorem unlessFault_of_eq_some {r : Option Fault} {f : Fault} (h : r = some f) (o : Out) : unlessFault r o = .fault f := by
  rw [h, unlessFault_some]

theorem unlessFault_of_eq_none {r : Option Fault} (h : r = none) (o : Out) : unlessFault r o = o := by
  rw [h, unlessFault_none]

/-! Opening a response. -/

theorem openFault_of_busy {s : State} (hopen : s.enc.busy = true) (pdl : Nat) : openFault s pdl = some .encoderBusy :=
  if_pos hopen

theorem openFault_of_done {s : State} (hclosed : s.enc.busy = false) (hdone : s.enc.done = true) (pdl : Nat) :
    openFault s pdl = some .secondOutcome := by
  rw [openFault, if_neg (Bool.eq_false_iff.1 hclosed), if_pos hdone]

theorem openFault_of_pdlMax_lt {s : State} (hready : Ready s) (hunicast : s.ctx.bcast = false) {pdl : Nat}
    (hlong : pdlMax < pdl) : openFault s pdl = some .pdlTooLong := by
  rw [openFault, if_neg (Bool.eq_false_iff.1 hready.1), if_neg (Bool.eq_false_iff.1 hready.2),
    if_neg (Bool.eq_false_iff.1 hunicast), if_pos hlong]

theorem startReply_fault {s : State} {pdl : Nat} {f : Fault} (h : openFault s pdl = some f) (rt cc : Byte) (pid : Word16) :
    startReply rt pdl cc pid s = .fault f :=
  unlessFault_of_eq_some h _

/-- A NACK that cannot be opened stops there. -/
theorem nack_fault {s : State} {f : Fault} (h : openFault s 2 = some f) (reason : Word16) : nack reason s = .fault f := by
  rw [nack, startReply_fault h, andThen_fault]

/-! Statuses. -/

theorem statusFault_of_busy {s : State} (hopen : s.enc.busy = true) : statusFault s = some .encoderBusy := if_pos hopen

theorem statusFault_of_done {s : State} (hclosed : s.enc.busy = false) (hdone : s.enc.done = true) :
    statusFault s = some .secondOutcome := by
  rw [statusFault, if_neg (Bool.eq_false_iff.1 hclosed), if_pos hdone]

theorem reportKind_fault {s : State} {k : StatusKind} (h : k ≠ .broadcastNoReply ∨ s.ctx.bcast = false) :
    reportKind k s = .fault .badStatusReport := if_pos h

theorem reportKind_broadcastNoReply {s : State} (hready : Ready s) (hbcast : s.ctx.bcast = true) :
    reportKind .broadcastNoReply s = .next (withStatus .broadcastNoReply s) := by
  rw [reportKind, if_neg (by simp [hbcast]), takeStatus_eq _ s hready.1 hready.2]

/-! Sends and the close. -/

theorem sendFault_eq_none {s : State} {n : Nat} (hopen : s.enc.busy = true) (hroom : n ≤ s.enc.remaining.toNat) :
    sendFault s n = none := by
  rw [sendFault, hopen, if_neg (by decide), if_neg (Nat.not_lt.2 hroom)]

theorem sendFault_of_closed {s : State} (hclosed : s.enc.busy = false) (n : Nat) : sendFault s n = some .noResponseOpen := by
  rw [sendFault, hclosed, if_pos (by decide)]

theorem sendFault_of_overrun {s : State} {n : Nat} (hopen : s.enc.busy = true) (hover : s.enc.remaining.toNat < n) :
    sendFault s n = some .paramOverrun := by
  rw [sendFault, hopen, if_neg (by decide), if_pos hover]

theorem closeFault_eq_none {s : State} (hopen : s.enc.busy = true) (hnone : s.enc.remaining = 0) : closeFault s = none := by
  rw [closeFault, hopen, if_neg (by decide), if_neg (not_not_intro hnone)]

theorem closeFault_of_closed {s : State} (hclosed : s.enc.busy = false) : closeFault s = some .noResponseOpen := by
  rw [closeFault, hclosed, if_pos (by decide)]

theorem closeFault_of_owed {s : State} (hopen : s.enc.busy = true) (howed : s.enc.remaining ≠ 0) :
    closeFault s = some .paramUnderrun := by
  rw [closeFault, hopen, if_neg (by decide), if_pos howed]

end Sys2Proof.Machine
end

section
/-! The encoder's primitives (O39 to O41). -/

namespace Sys2Proof.Machine

/-- The header of a reply to the request in the `ResponseContext`, written out (R92, R211). -/
theorem packetHeader_replyFieldsOf (s : State) (rt pdl cc : Byte) (pid : Word16) (data : List Byte) :
    packetHeader (replyFieldsOf s rt cc pid data) pdl.toNat =
      [0xCC, 0x01, 24 + pdl] ++ bytes48 s.ctx.dst ++ (bytes16 s.store.estaId ++ bytes32 s.store.serialNumber)
        ++ [s.ctx.tn, rt, s.flags.queuedCount] ++ bytes16 s.ctx.sub ++ [cc] ++ bytes16 pid ++ [pdl] := by
  have hlength : BitVec.ofNat 8 (24 + pdl.toNat) = 24 + pdl := by
    rw [BitVec.ofNat_add, BitVec.ofNat_toNat, BitVec.setWidth_eq]
    rfl
  have hpdl : BitVec.ofNat 8 pdl.toNat = pdl := by rw [BitVec.ofNat_toNat, BitVec.setWidth_eq]
  rw [packetHeader, hlength, hpdl, ← bytes48_uidOf]
  rfl

/-- Settles O39: the response opens (`openReply_eq`), and its header is the stated one. -/
theorem startResponseBytes : Obligations.StartResponseBytes := by
  unfold Obligations.StartResponseBytes
  intro s rt pdl cc pid header hready hunicast hpdl hheader
  rw [← packetHeader_replyFieldsOf s rt pdl cc pid []] at hheader
  have hopened : exec (.startResponse rt pdl cc pid) s = .next (opened (replyFieldsOf s rt cc pid []) pdl.toNat s) :=
    (openReply_eq _ _ s).trans (unlessFault_of_eq_none (openFault_eq_none hready.1 hready.2 hunicast hpdl) _)
  rw [hopened]
  simp only [opened, ← hheader, hready.2, BitVec.ofNat_toNat, frameHeader, List.append_assoc, List.cons_append,
    List.nil_append]
  rfl

/-- Settles O40: with room for it a send puts its bytes on TX one by one (`putBytes_eq`), most significant first. -/
theorem sendsAreBigEndian : Obligations.SendsAreBigEndian := by
  unfold Obligations.SendsAreBigEndian
  intro s hopen
  refine ⟨fun v hroom => ?byte, fun v hroom => ?int, fun v hroom => ?long⟩
  case byte => exact unlessFault_of_eq_none (sendFault_eq_none hopen hroom) _
  case int =>
    have hsent : exec (.sendInt v) s = .next (filled (bytes16 v) s) :=
      (putInt_eq_putBytes v s hopen hroom).trans (putBytes_eq _ s hopen hroom)
    rw [hsent, filled]
    simp [bytes16, hiByte, loByte, BitVec.add_assoc]
  case long =>
    have hsent : exec (.sendLong v) s = .next (filled (bytes32 v) s) :=
      (unlessFault_of_eq_none (sendFault_eq_none hopen hroom) _).trans (putBytes_eq _ s hopen hroom)
    rw [hsent, filled]
    simp [bytes32, BitVec.add_assoc]

/-- Settles O41: the close is allowed (`closeFault_eq_none`), and `closed` is the stated state. -/
theorem endResponseCloses : Obligations.EndResponseCloses := by
  unfold Obligations.EndResponseCloses
  intro s hopen hnone
  have hclosed : exec .endResponse s = .next (closed s) :=
    (closeReply_eq s).trans (unlessFault_of_eq_none (closeFault_eq_none hopen hnone) _)
  rw [hclosed, closed, List.append_assoc]
  rfl

end Sys2Proof.Machine
end

section
/-! Whole replies (O42), suppressed replies (O43) and the encoder's misuses (O45). -/

namespace Sys2Proof.Machine

/-- Settles O42: each operation is defined as its expansion, and in a ready encoder it is the whole reply. -/
theorem convenienceReplies : Obligations.ConvenienceReplies := by
  unfold Obligations.ConvenienceReplies
  intro s hready hunicast
  have hmayOpen {pdl : Nat} (hpdl : pdl ≤ 231) : openFault s pdl = none :=
    openFault_eq_none hready.1 hready.2 hunicast hpdl
  exact ⟨emptyAck_eq s (hmayOpen (by decide)), rfl, fun r => ⟨nack_answered hready hunicast r, rfl⟩,
    fun d => ⟨ackTimer_eq d s (hmayOpen (by decide)), rfl⟩⟩

/-- Settles O43: `nackOrBroadcast` is a status report or a NACK, as its flag says, and either may be a misuse. -/
theorem suppressedReplies : Obligations.SuppressedReplies := by
  unfold Obligations.SuppressedReplies
  intro s r
  refine ⟨rfl, fun hbcast hready => ?broadcast, fun hunicast hready => nack_answered hready hunicast r,
    fun hunicast => reportKind_fault (.inr hunicast), fun k hmisuse => reportKind_fault hmisuse⟩
  case broadcast =>
    have hstatus := reportKind_broadcastNoReply hready hbcast
    exact ⟨hstatus, hstatus, nack_fault (openFault_of_broadcast hready hbcast 2) r⟩

/-- Settles O45: each operation tests its requirements first, and the failing one names the fault. -/
theorem misuseFaults : Obligations.MisuseFaults := by
  unfold Obligations.MisuseFaults
  intro s
  refine ⟨fun hopen => ?opened, fun hclosed => ?closed, fun hclosed hdone => ?done,
    fun hready hbcast rt pdl cc pid => startReply_fault (openFault_of_broadcast hready hbcast _) rt cc pid,
    fun hready hunicast rt pdl cc pid hlong => startReply_fault (openFault_of_pdlMax_lt hready hunicast hlong) rt cc pid,
    fun _ => rfl, fun _ => rfl, fun k hmisuse => reportKind_fault hmisuse⟩
  case opened =>
    have hstatus := statusFault_of_busy hopen
    have hoverrun {n : Nat} := sendFault_of_overrun (n := n) hopen
    exact ⟨fun rt pdl cc pid => startReply_fault (openFault_of_busy hopen _) rt cc pid,
      fun _ => unlessFault_of_eq_some hstatus _, fun _ hover => unlessFault_of_eq_some (hoverrun hover) _,
      fun _ hover => unlessFault_of_eq_some (hoverrun hover) _, fun _ hover => unlessFault_of_eq_some (hoverrun hover) _,
      fun howed => unlessFault_of_eq_some (closeFault_of_owed hopen howed) _⟩
  case closed =>
    have hsend := sendFault_of_closed hclosed
    exact ⟨fun _ => unlessFault_of_eq_some (hsend 1) _, fun _ => unlessFault_of_eq_some (hsend 2) _,
      fun _ => unlessFault_of_eq_some (hsend 4) _, unlessFault_of_eq_some (closeFault_of_closed hclosed) _⟩
  case done =>
    have hstatus := statusFault_of_done hclosed hdone
    exact ⟨fun rt pdl cc pid => startReply_fault (openFault_of_done hclosed hdone _) rt cc pid,
      fun _ => unlessFault_of_eq_some hstatus _⟩

end Sys2Proof.Machine
end

section
/-! SUPPORT. What a class path can do (R185 to R191): it stops at a refusal, in the state it began in but for `d_pdl`, or invokes
the entry's handler from there. -/

namespace Sys2Proof.Machine

/-! The invoking steps. -/

/-- An invoking step that answers a next state has run the entry's handler, logged, to an outcome (R189, R196). -/
theorem getInvoke_eq_next {s t : State} (h : (getInvoke s).out = .next t) :
    ∃ e b, tableEntry s.cfg s.disp.idx = .ok e ∧ e.get = some b ∧ runGet b (logged (.get s.disp.idx) s) = .next t
      ∧ outcomeReached t = true := by
  cases he : tableEntry s.cfg s.disp.idx with
  | error f => simp [getInvoke, he] at h
  | ok e =>
    cases hb : e.get with
    | none => simp [getInvoke, he, hb] at h
    | some b =>
      rw [getInvoke_eq he hb] at h
      obtain ⟨u, hrun, hreturn⟩ := andThen_eq_next h
      obtain ⟨rfl, ho⟩ := handlerReturn_eq_next hreturn
      exact ⟨e, b, rfl, hb, hrun, ho⟩

/-- See `getInvoke_eq_next` (R191, R196). -/
theorem setInvoke_eq_next {s t : State} (h : (setInvoke s).out = .next t) :
    ∃ e b, tableEntry s.cfg s.disp.idx = .ok e ∧ e.set = some b
      ∧ runSet b s.val.isBroadcast (logged (.set s.disp.idx s.val.isBroadcast) s) = .next t ∧ outcomeReached t = true := by
  cases he : tableEntry s.cfg s.disp.idx with
  | error f => simp [setInvoke, he] at h
  | ok e =>
    cases hb : e.set with
    | none => simp [setInvoke, he, hb] at h
    | some b =>
      rw [setInvoke_eq he hb] at h
      obtain ⟨u, hrun, hreturn⟩ := andThen_eq_next h
      obtain ⟨rfl, ho⟩ := handlerReturn_eq_next hreturn
      exact ⟨e, b, rfl, hb, hrun, ho⟩

/-! The checks before them. -/

/-- A check goes on in the state it looked at, or stops with an outcome of the block's own. -/
def Refuses (s : State) (f : Flow) : Prop := f = .go s ∨ ∃ o, f = .stop o ∧ ∀ t, o = .next t → Ported s t

theorem Refuses.stop {s : State} {o : Out} (h : ∀ t, o = .next t → Ported s t) : Refuses s (.stop o) := .inr ⟨o, rfl, h⟩

theorem Refuses.read {α : Type} {s : State} {r : Except Fault α} {k : α → Flow} (h : ∀ a, r = .ok a → Refuses s (k a)) :
    Refuses s (Flow.withRead r k) := by
  cases r with
  | ok a => exact h a rfl
  | error f => exact .stop fun t (e : Host.Outcome.fault f = .next t) => by cases e

/-- Behind a check, a path answers what the check answers, or what the rest of the path answers in the same state. -/
theorem Refuses.andThen_eq_next {s t : State} {f : Flow} {k : State → Flow} (h : Refuses s f)
    (hout : (f.andThen k).out = .next t) : Ported s t ∨ (k s).out = .next t := by
  obtain rfl | ⟨o, rfl, ho⟩ := h
  · exact .inr hout
  · exact .inl (ho t hout)

theorem getNoHandler_refuses (s : State) : Refuses s (getNoHandler s) := by
  refine .read fun e _ => ?_
  split
  · exact .inl rfl
  · exact .stop fun _ => nackOrSilent_ported

theorem setNoHandler_refuses (s : State) : Refuses s (setNoHandler s) := by
  refine .read fun e _ => ?_
  split
  · exact .inl rfl
  · exact .stop fun _ => nackOrSilent_ported

theorem getBroadcast_refuses (s : State) : Refuses s (getBroadcast s) := by
  unfold getBroadcast
  split
  · exact .stop fun _ => takeStatus_ported
  · exact .inl rfl

theorem getSubDevice_refuses (s : State) : Refuses s (getSubDevice s) := by
  unfold getSubDevice
  split
  · exact .stop fun _ => nack_ported
  · exact .inl rfl

/-- The state with the declared length in `d_pdl` (R188). -/
def sized (pdl : Byte) (s : State) : State := { s with disp := { s.disp with pdl := pdl } }

/-- The length check refuses with `d_pdl` loaded (R188). -/
theorem getArgSize_refuses (s : State) : ∃ pdl, Refuses (sized pdl s) (getArgSize s) := by
  cases hread : readByte s 23 with
  | error f => exact ⟨s.disp.pdl, .read fun _ _ => .read fun _ hok => by simp [hread] at hok⟩
  | ok pdl =>
    refine ⟨pdl, .read fun e _ => ?_⟩
    simp only [hread, Flow.withRead_ok]
    split
    · exact .stop fun _ => nack_ported
    · exact .inl rfl

/-- What the GET path can do (R185 to R189). -/
theorem getPath_eq_next {s t : State} (h : (getPath s).out = .next t) :
    ∃ pdl, Ported (sized pdl s) t ∨ (getInvoke (sized pdl s)).out = .next t := by
  simp only [getPath, Flow.andThen_assoc] at h
  obtain ⟨pdl, hsize⟩ := getArgSize_refuses s
  obtain hrefused | h := (getNoHandler_refuses s).andThen_eq_next h
  · exact ⟨s.disp.pdl, .inl hrefused⟩
  obtain hrefused | h := (getBroadcast_refuses s).andThen_eq_next h
  · exact ⟨s.disp.pdl, .inl hrefused⟩
  obtain hrefused | h := (getSubDevice_refuses s).andThen_eq_next h
  · exact ⟨s.disp.pdl, .inl hrefused⟩
  exact ⟨pdl, hsize.andThen_eq_next h⟩

/-- What the SET path can do (R190, R191). -/
theorem setPath_eq_next {s t : State} (h : (setPath s).out = .next t) :
    Ported s t ∨ (setInvoke s).out = .next t :=
  (setNoHandler_refuses s).andThen_eq_next h

/-! What a GET spares. -/

/-- What a GET that keeps R259 leaves: the store, the agent's own state, and the flags unless a result is pending. -/
def Spared (s t : State) : Prop :=
  t.store = s.store ∧ t.agent = s.agent ∧ (s.flags.labelPending = false → t.flags = s.flags)

theorem Ported.spared {s t : State} (h : Ported s t) : Spared s t := ⟨h.store, h.agent, fun _ => h.flags⟩

theorem getInvoke_spared {s t : State} (hq : quietConfig s.cfg = true) (h : (getInvoke s).out = .next t) :
    Spared s t := by
  obtain ⟨e, b, he, hb, hrun, -⟩ := getInvoke_eq_next h
  have hquiet := quietConfig_entry he hq b hb
  exact (runGet_handled hrun fun _ => hquiet).2 hquiet

theorem getPath_spared {s t : State} (hq : quietConfig s.cfg = true) (h : (getPath s).out = .next t) : Spared s t := by
  obtain ⟨pdl, hrefused | hinvoked⟩ := getPath_eq_next h
  · exact hrefused.spared
  · exact getInvoke_spared (s := sized pdl s) hq hinvoked

/-! What an invocation changes. -/

/-- The frame of a class path: nothing has changed but `d_pdl`, the encoder, the flags, the agent's own state, the store, TX and
the two logs (R286). -/
def InvocationChanges (s t : State) : Prop :=
  t = { s with
    disp.pdl := t.disp.pdl
    enc := t.enc
    flags := t.flags
    agent := t.agent
    store := t.store
    trace := { s.trace with tx := t.trace.tx, statusLog := t.trace.statusLog, handlerLog := t.trace.handlerLog } }

theorem Handled.invocationChanges {s t : State} {v : Invocation} (h : Handled (logged v s) t) : InvocationChanges s t := by
  unfold InvocationChanges
  rw [h.eq]
  rfl

theorem Ported.invocationChanges {s t : State} (h : Ported s t) : InvocationChanges s t := by
  unfold InvocationChanges
  rw [h.eq]

theorem InvocationChanges.of_sized {s t : State} {pdl : Byte} (h : InvocationChanges (sized pdl s) t) :
    InvocationChanges s t := h

theorem getInvoke_changes {s t : State} (h : (getInvoke s).out = .next t) : InvocationChanges s t := by
  obtain ⟨e, b, he, hb, hrun, -⟩ := getInvoke_eq_next h
  exact (runGet_handled hrun fun hs => (settledConfig_entry he hs).1 b hb).1.invocationChanges

theorem setInvoke_changes {s t : State} (h : (setInvoke s).out = .next t) : InvocationChanges s t := by
  obtain ⟨e, b, he, hb, hrun, -⟩ := setInvoke_eq_next h
  exact (runSet_handled hrun fun hs => (settledConfig_entry he hs).2 b hb).invocationChanges

theorem getPath_changes {s t : State} (h : (getPath s).out = .next t) : InvocationChanges s t := by
  obtain ⟨pdl, hrefused | hinvoked⟩ := getPath_eq_next h
  · exact hrefused.invocationChanges.of_sized
  · exact (getInvoke_changes hinvoked).of_sized

theorem setPath_changes {s t : State} (h : (setPath s).out = .next t) : InvocationChanges s t := by
  obtain hrefused | hinvoked := setPath_eq_next h
  · exact hrefused.invocationChanges
  · exact setInvoke_changes hinvoked

end Sys2Proof.Machine
end

section
/-! What an invocation and a whole RDM frame leave unchanged (O38). -/

namespace Sys2Proof.Machine

/-- Settles O38: a class path is its refusals and its invocation (`getPath_eq_next`, `setPath_eq_next`); a whole frame is
`processFrame_processed`. -/
theorem invocationFrame : Obligations.InvocationFrame := by
  unfold Obligations.InvocationFrame
  intro i s t h
  refine ⟨fun hi => ?changes, fun hi hq => ?spared, fun hi => ?processed⟩
  case changes =>
    simp only [List.mem_cons, List.not_mem_nil, or_false] at hi
    obtain rfl | rfl | rfl | rfl := hi
    · exact getInvoke_changes h
    · exact setInvoke_changes h
    · exact getPath_changes h
    · exact setPath_changes h
  case spared =>
    simp only [List.mem_cons, List.not_mem_nil, or_false] at hi
    obtain rfl | rfl := hi
    · exact getInvoke_spared hq h
    · exact getPath_spared hq h
  case processed =>
    simp only [List.mem_cons, List.not_mem_nil, or_false] at hi
    obtain rfl | rfl := hi
    · exact (processFrame_processed h).eq
    · exact (processFrame_processed (s := { s with enc.done := false }) h).eq

end Sys2Proof.Machine
end

section
/-! SUPPORT. The handlers the spec settles, in closed form: a supported-parameters list that is too long (R252), and the SETs of a
request that carries the bytes it declares, or too few (R253, R256, R257). -/

namespace Sys2Proof.Machine

/-- A list of more than 115 PIDs does not fit one reply (R252, R333). -/
theorem supportedParametersGet_tooLong {s : State} (hready : Ready s) (hunicast : s.ctx.bcast = false)
    (hlong : 115 < (includedPids s.cfg).length) : supportedParametersGet s = .fault .pdlTooLong := by
  have hmax : pdlMax < 2 * (includedPids s.cfg).length := show 231 < _ by omega
  rw [supportedParametersGet, startReply_fault (openFault_of_pdlMax_lt hready hunicast hmax), andThen_fault]

/-- The state with the label stored, its non-volatile copy waiting (R253, R261). -/
def labelled (label : List Byte) (s : State) : State := { s with store.deviceLabel := label }

/-- The flags after the ACK_TIMER of a label SET: a result is pending, and counted once (R253). -/
def resultOwed (s : State) : State :=
  { s with flags := { s.flags with
      labelPending := true
      queuedCount := if s.flags.labelPending then s.flags.queuedCount else s.flags.queuedCount + 1 } }

/-- A label that fits is stored, then the SET ends as the request's broadcast flag says (R253). -/
theorem deviceLabelSet_eq {s : State} (hmax : (byteAt s 23).toNat ≤ s.cfg.labelMax)
    (hread : Readable s (24 + (byteAt s 23).toNat)) (hsize : 26 + (byteAt s 23).toNat ≤ s.val.size.toNat) (wb : Bool) :
    deviceLabelSet wb s =
      if wb then reportKind .broadcastNoReply (labelled (bytesAt s 24 (byteAt s 23).toNat) s)
      else andThen (ackTimer s.cfg.labelAckDelay (labelled (bytesAt s 24 (byteAt s 23).toNat) s))
        fun t => .next (resultOwed t) := by
  have hlabel : readParams s (byteAt s 23) 0 (byteAt s 23).toNat = .ok (bytesAt s 24 (byteAt s 23).toNat) :=
    readParams_eq hread 0 _ (by omega) (by omega) (by omega)
  rw [deviceLabelSet, readByte_eq hread (by omega), withRead_ok, if_neg (Nat.not_lt.2 hmax), hlabel, withRead_ok]
  rfl

theorem startAddressSet_eq {s : State} (hlen : byteAt s 23 = 2) (hread : Readable s 26) (hsize : 28 ≤ s.val.size.toNat)
    (wb : Bool) {v : Word16} (hv : v = be16 (byteAt s 24) (byteAt s 25)) :
    startAddressSet wb s =
      if v = 0 ∨ s.cfg.startAddressMax < v.toNat then nackOrSilent wb outOfRangeReason s
      else setDone wb { s with store.startAddress := v } := by
  have hpdl : readByte s 23 = .ok 2 := hlen ▸ readByte_eq hread (by decide)
  have hparam (i : Nat) (hi : i < 2) : readParam s 2 i = .ok (byteAt s (24 + i)) :=
    readParam_eq hread hi (by omega) (by omega)
  rw [startAddressSet, hpdl, withRead_ok, if_neg (by decide), hparam 0 (by decide), withRead_ok, hparam 1 (by decide),
    withRead_ok, hv]
  rfl

/-- A request that declares two bytes and carries none or one faults at the first that is missing (R66). -/
theorem startAddressSet_short {s : State} (hlen : byteAt s 23 = 2) (hheader : Readable s 24)
    (hread : Readable s s.val.size.toNat) (hshort : s.val.size.toNat < 28) (wb : Bool) :
    startAddressSet wb s = .fault .bufOutOfBounds := by
  have hpdl : readByte s 23 = .ok 2 := hlen ▸ readByte_eq hheader (by decide)
  have hmissing (i : Nat) (hi : s.val.size.toNat - 2 ≤ 24 + i) : readParam s 2 i = .error .bufOutOfBounds :=
    if_neg (by omega)
  rw [startAddressSet, hpdl, withRead_ok, if_neg (by decide)]
  obtain hnone | hone := Nat.lt_or_ge s.val.size.toNat 27
  · rw [hmissing 0 (by omega), withRead_error]
  · rw [readParam_eq hread (by decide) (by omega) (by omega), withRead_ok, hmissing 1 (by omega), withRead_error]

theorem serialNumberSet_eq {s : State} (hlen : byteAt s 23 = 4) (hread : Readable s 28) (hsize : 30 ≤ s.val.size.toNat)
    (wb : Bool) {v : Word32} (hv : v = be32 (byteAt s 24) (byteAt s 25) (byteAt s 26) (byteAt s 27)) :
    serialNumberSet wb s =
      if v = 0xFFFFFFFF then nackOrSilent wb outOfRangeReason s
      else setDone wb { s with store.serialNumber := v } := by
  have hpdl : readByte s 23 = .ok 4 := hlen ▸ readByte_eq hread (by decide)
  have hparam (i : Nat) (hi : i < 4) : readParam s 4 i = .ok (byteAt s (24 + i)) :=
    readParam_eq hread hi (by omega) (by omega)
  rw [serialNumberSet, hpdl, withRead_ok, if_neg (by decide), hparam 0 (by decide), withRead_ok, hparam 1 (by decide),
    withRead_ok, hparam 2 (by decide), withRead_ok, hparam 3 (by decide), withRead_ok, hv]
  rfl

end Sys2Proof.Machine
end

section
/-! The handlers the spec settles (O51 to O55). -/

namespace Sys2Proof.Machine

/-- Settles O51: `includedPids` is the stated list, and one reply holds at most 115 of its entries. -/
theorem supportedParametersReply : Obligations.SupportedParametersReply := by
  unfold Obligations.SupportedParametersReply
  rintro s pids rfl hready hunicast
  exact ⟨supportedParametersGet_eq hready hunicast, supportedParametersGet_tooLong hready hunicast⟩

/-- Settles O52: the length is tested first; a label that fits is stored before the reply, and the flags change after it. -/
theorem deviceLabelSetIsDeferred : Obligations.DeviceLabelSetIsDeferred := by
  unfold Obligations.DeviceLabelSetIsDeferred
  rintro s pdl hheader rfl
  have hrow : exec .setDeviceLabel s = deviceLabelSet s.val.isBroadcast s := rfl
  rw [hrow]
  refine ⟨fun hlong => ?tooLong, fun hmax hread hsize hready hbcast => ?_⟩
  case tooLong =>
    rw [deviceLabelSet, readByte_eq hheader (by decide), withRead_ok, if_pos hlong]
    rfl
  rw [deviceLabelSet_eq hmax hread hsize]
  refine ⟨fun hflag => ?broadcast, fun hflag => ?unicast⟩
  case broadcast =>
    rw [if_pos hflag]
    exact reportKind_broadcastNoReply (s := labelled _ s) hready (hbcast.trans hflag)
  case unicast =>
    have hopen (label : List Byte) : openFault (labelled label s) 2 = none :=
      openFault_eq_none hready.1 hready.2 (hbcast.trans hflag) (by decide)
    rw [if_neg (Bool.eq_false_iff.1 hflag), ackTimer_eq _ _ (hopen _), andThen_next]
    rfl

/-- Settles O53: the pending flag selects the handler, and either is one whole reply (`sendReply_eq`). -/
theorem queuedMessageReplies : Obligations.QueuedMessageReplies := by
  unfold Obligations.QueuedMessageReplies
  intro s i hi hready hunicast
  have hrow : exec i s = queuedMessageGet s := by obtain rfl | rfl := hi <;> rfl
  have hopen := openFault_eq_none (pdl := 0) hready.1 hready.2 hunicast (by decide)
  rw [hrow, queuedMessageGet]
  refine ⟨fun hpending => ?pending, fun hnone => ?idle⟩
  case pending =>
    rw [if_pos hpending]
    exact sendReply_eq _ _ _ _ _ hopen
  case idle =>
    rw [if_neg (Bool.eq_false_iff.1 hnone)]
    exact sendReply_eq _ _ _ _ s hopen

/-- Settles O54: the tests of length and range come in this order (`startAddressSet_eq`), and a missing byte faults. -/
theorem startAddressSet_holds : Obligations.StartAddressSet := by
  unfold Obligations.StartAddressSet
  intro s v hheader
  have hrow : exec .setDmxStartAddress s = startAddressSet s.val.isBroadcast s := rfl
  rw [hrow]
  refine ⟨fun hlen => ?length, fun hlen hshort hread => startAddressSet_short hlen hheader hread hshort _,
    fun hlen hsize hread hv => ?_⟩
  case length =>
    rw [startAddressSet, readByte_eq hheader (by decide), withRead_ok, if_pos hlen]
    rfl
  rw [startAddressSet_eq hlen hread hsize _ hv]
  refine ⟨fun hrange => ?range, fun hzero hmax hready hbcast => ?accepted⟩
  case range =>
    rw [if_pos hrange]
    rfl
  case accepted =>
    rw [if_neg (not_or_intro hzero (Nat.not_lt.2 hmax))]
    exact setDone_eq { s with store.startAddress := v } _ hready hbcast

/-- Settles O55: the number is stored before the reply is opened, so the reply's source UID is the new one. -/
theorem serialNumberSet_holds : Obligations.SerialNumberSet := by
  unfold Obligations.SerialNumberSet
  intro s v hheader
  have hrow : exec .setSerialNumber s = serialNumberSet s.val.isBroadcast s := rfl
  rw [hrow]
  refine ⟨fun hlen => ?length, fun hlen hsize hread hv => ?_⟩
  case length =>
    rw [serialNumberSet, readByte_eq hheader (by decide), withRead_ok, if_pos hlen]
    rfl
  rw [serialNumberSet_eq hlen hread hsize _ hv]
  refine ⟨fun hones => ?ones, fun hother hready hbcast => ?accepted⟩
  case ones =>
    rw [if_pos hones]
    rfl
  case accepted =>
    rw [if_neg hother]
    exact setDone_eq { s with store.serialNumber := v } _ hready hbcast

end Sys2Proof.Machine
end

section
/-! Who writes the handler flags, the agent's own state and the store (O58). -/

namespace Sys2Proof.Machine

/-- The handler flags, the agent's own state and the store are as they were. -/
structure KeepsAgent (s t : State) : Prop where
  flags : t.flags = s.flags
  agent : t.agent = s.agent
  store : t.store = s.store

theorem Ported.keepsAgent {s t : State} (h : Ported s t) : KeepsAgent s t := ⟨h.flags, h.agent, h.store⟩

theorem Early.keepsAgent {s t : State} (h : Early s t) : KeepsAgent s t := by
  unfold Early at h
  rw [h]
  exact ⟨rfl, rfl, rfl⟩

theorem KeepsAgent.trans {s t u : State} (h : KeepsAgent s t) (k : KeepsAgent t u) : KeepsAgent s u :=
  ⟨k.flags.trans h.flags, k.agent.trans h.agent, k.store.trans h.store⟩

/-- A step of the validator goes on, or stops with a status. -/
theorem Checks.keepsAgent {s t : State} {f : Flow} (c : Checks s f) (h : f.out = .next t) : KeepsAgent s t := by
  obtain hgo | hstop := Flow.out_eq_next h
  · exact (c.1 t hgo).keepsAgent
  · obtain ⟨k, u, hearly, htake⟩ := c.2 t hstop
    exact hearly.keepsAgent.trans (takeStatus_ported htake).keepsAgent

/-- A step of the dispatcher other than an invocation goes on, or stops with an outcome of the block's own. -/
theorem Decides.keepsAgent {s t : State} {f : Flow} (d : Decides s f) (h : f.out = .next t) : KeepsAgent s t := by
  obtain hgo | hstop := Flow.out_eq_next h
  · exact (d.1 t hgo).early.keepsAgent
  · obtain ⟨u, hdispatching, hported⟩ := d.2 t hstop
    exact hdispatching.early.keepsAgent.trans hported.keepsAgent

theorem handOff_keepsAgent {l : Byte} {s t : State} (h : handOff l s = .next t) : KeepsAgent s t := by
  obtain ⟨-, hflags, hstore, hagent⟩ := handOff_wr h
  exact ⟨hflags, hagent, hstore⟩

/-- A frame under a label other than RDM's runs no handler (R138, R140). -/
theorem emit_keepsAgent {l : Byte} {s t : State} (hl : l ≠ rdmLabel) (h : emit l s = .next t) : KeepsAgent s t := by
  rw [emit_of_ne_rdmLabel hl] at h
  obtain ⟨hflags, hagent, hstore⟩ := handOff_keepsAgent h
  exact ⟨hflags, hagent, hstore⟩

theorem codeFrame_keepsAgent {c : Byte} {s t : State} (h : codeFrame c s = .next t) : KeepsAgent s t := by
  obtain ⟨-, hflags, hstore, hagent⟩ := codeFrame_wr h
  exact ⟨hflags, hagent, hstore⟩

theorem encodeFrame_keepsAgent {l : Byte} {p : List Byte} {s t : State} (h : encodeFrame l p s = .next t) :
    KeepsAgent s t := by
  obtain ⟨-, hflags, hstore, hagent⟩ := encodeFrame_wr h
  exact ⟨hflags, hagent, hstore⟩

theorem execRxInPayload_keepsAgent {b : Byte} {s t : State} (h : execRxInPayload b s = .next t) : KeepsAgent s t := by
  obtain ⟨-, rfl⟩ | ⟨-, -, rfl⟩ := execRxInPayload_eq_next h
  · exact ⟨rfl, rfl, rfl⟩
  · exact ⟨rfl, rfl, rfl⟩

/-- A byte other than EOM discards the frame (R137). -/
theorem closeFrame_keepsAgent {b : Byte} {s t : State} (hb : b ≠ eomByte) (h : closeFrame b s = .next t) :
    KeepsAgent s t := by
  rw [closeFrame_discard (.inl hb)] at h
  cases h
  exact ⟨rfl, rfl, rfl⟩

/-- The operations that may run a handler, and the idle poll; a terminator that emits a frame is one more (R260, R261). -/
def handlerRunners : List Instr :=
  [.rxEmpty, .eom, .labelRdm, .emitFrame, .processRdm, .ccGet, .ccSet, .dispatchGetInvoke, .dispatchSetInvoke,
    .setDeviceLabel, .getQueuedMessagePending, .getQueuedMessageIdle, .setDmxStartAddress, .setSerialNumber]

/-- Every other operation leaves what only handlers write. -/
theorem exec_keepsAgent {i : Instr} {s t : State} (hwf : i.WellFormed) (hrunner : i ∉ handlerRunners)
    (hend : i ≠ .rxAwaitingEnd 0xE7) (h : exec i s = .next t) : KeepsAgent s t := by
  cases i with
  | rxEmpty | eom | labelRdm | emitFrame | processRdm | ccGet | ccSet | dispatchGetInvoke | dispatchSetInvoke
  | setDeviceLabel | getQueuedMessagePending | getQueuedMessageIdle | setDmxStartAddress | setSerialNumber =>
    exact absurd (by simp [handlerRunners]) hrunner
  | rxAwaitingEnd b => exact closeFrame_keepsAgent (fun hb => hend (congrArg Instr.rxAwaitingEnd hb)) h
  | rxPreStart b | rxGotStart b | rxGotLabel b | rxGotLengthLow b | som =>
    cases h
    exact ⟨rfl, rfl, rfl⟩
  | rxInPayload b => exact execRxInPayload_keepsAgent h
  | labelParameters => exact emit_keepsAgent (l := 3) (by decide) h
  | labelDmxData => exact emit_keepsAgent (l := 6) (by decide) h
  | labelSerialNumber => exact emit_keepsAgent (l := 10) (by decide) h
  | labelManufacturer => exact emit_keepsAgent (l := 77) (by decide) h
  | labelName => exact emit_keepsAgent (l := 78) (by decide) h
  | labelOther l => exact emit_keepsAgent (ne_rdmLabel_of_labelOther hwf) h
  | frameOut => exact handOff_keepsAgent h
  | encode l p => exact encodeFrame_keepsAgent h
  | status k | ccSetResponse => exact (takeStatus_ported h).keepsAgent
  | reply f => exact (execReply_ported h).keepsAgent
  | rdmSc | rdmSubSc => exact (checkStartByte_checks _ _ s).keepsAgent h
  | validateSize => exact (checkSize_checks s).keepsAgent h
  | validateStartCodes => exact (checkStartCodes_checks s).keepsAgent h
  | validateLength => exact (checkLength_checks s).keepsAgent h
  | validateChecksum => exact (checkChecksum_checks s).keepsAgent h
  | detectBroadcast => exact (broadcastDetection_checks s).keepsAgent h
  | matchDestination => exact (destinationMatch_checks s).keepsAgent h
  | wrongDestination => exact (destinationReject_checks s).keepsAgent h
  | ccGetResponse => exact (Checks.status _ (.refl s)).keepsAgent h
  | dispatchCcCheck => exact (ccCheck_decides s).keepsAgent h
  | dispatchSubdeviceRange => exact (subDeviceRange_decides s).keepsAgent h
  | dispatchUnknownPid => exact (unknownPid_decides s).keepsAgent h
  | dispatchGetNoHandler => exact (getNoHandler_decides s).keepsAgent h
  | dispatchGetBroadcast => exact (getBroadcast_decides s).keepsAgent h
  | dispatchGetSubdevice => exact (getSubDevice_decides s).keepsAgent h
  | dispatchGetArgSize => exact (getArgSize_decides s).keepsAgent h
  | dispatchSetNoHandler => exact (setNoHandler_decides s).keepsAgent h
  | dispatchPidLookup => exact (pidLookup_decides s).keepsAgent h
  | startResponse rt pdl cc pid => exact (openReply_ported h).keepsAgent
  | sendByte v => exact (putByte_ported h).keepsAgent
  | sendInt v => exact (putInt_ported h).keepsAgent
  | sendLong v => exact (putLong_ported h).keepsAgent
  | endResponse => exact (closeReply_ported h).keepsAgent
  | sendEmptyAck => exact (emptyAck_ported h).keepsAgent
  | sendAckTimer d => exact (ackTimer_ported h).keepsAgent
  | sendNack r | nrUnknownPid | nrFormatError | nrUnsupportedCommandClass | nrDataOutOfRange | nrSubDeviceOutOfRange =>
    exact (nack_ported h).keepsAgent
  | nackOrBroadcast wb r => exact (nackOrSilent_ported h).keepsAgent
  | reportStatus k => exact (reportKind_ported h).keepsAgent
  | handlerReservedAB low | handlerReservedCF low => simp [exec, execHandlerReservedAB, execHandlerReservedCF] at h
  | rtAck | rtAckTimer | rtNack =>
    cases h
    exact ⟨rfl, rfl, rfl⟩
  | statusOk =>
    cases h
    exact statusMarker_eq s ▸ ⟨rfl, rfl, rfl⟩
  | statusBroadcast | statusFailed | statusFailedChecksum | statusInvalidDestination | statusInvalidCommand =>
    exact codeFrame_keepsAgent h
  | getSupportedParameters => exact (supp_ported h).keepsAgent

/-- Settles O58: by contraposition of `exec_keepsAgent`. -/
theorem onlyHandlersWriteFlags : Obligations.OnlyHandlersWriteFlags := by
  unfold Obligations.OnlyHandlersWriteFlags
  intro i s t hwf h hchanged
  refine Classical.byContradiction fun hother => ?_
  obtain ⟨hrunner, hend⟩ := not_or.1 hother
  obtain ⟨hflags, hagent, hstore⟩ := exec_keepsAgent hwf hrunner hend h
  exact hchanged.elim (· hflags) (·.elim (· hagent) (· hstore))

end Sys2Proof.Machine
end

section
/-! SUPPORT. A whole frame with command class GET: where it goes, and what it spares (R259). -/

namespace Sys2Proof.Machine

theorem validatePacket_of_passes {s : State} {p : List Byte} (h : Carries s p) (hpasses : packetPasses p = true) :
    validatePacket s = .go (validated p s) := by
  obtain ⟨h26, h0, h1, hlength, hsum⟩ := (packetPasses_iff p).1 hpasses
  exact validatePacket_go h h26 h0 h1 hlength hsum

/-- The frame ends before the dispatcher, in the status `k` (R160, R168). -/
def StopsWith (k : StatusKind) (s : State) : Prop := ∃ u, Early s u ∧ screenFrame s = raiseStatus k u

theorem stopsWith_of_reject {s u : State} {w : Verdict} {k : StatusKind} (h : validatePacket s = rejectPacket w k u)
    (hearly : Early s u) : StopsWith k s :=
  ⟨_, hearly.trans (show Early u { u with val.verdict := w } from rfl), screenFrame_reject h⟩

/-- Which check rejects a packet, and so the status, depends on the packet's bytes alone (R160). -/
theorem stopsWith_of_fails {p : List Byte} (hfails : ¬ packetPasses p = true) : ∃ k, ∀ s, Carries s p → StopsWith k s := by
  obtain h26 | h26 := Nat.lt_or_ge p.length 26
  · exact ⟨_, fun s h => stopsWith_of_reject (validatePacket_short h h26) rfl⟩
  by_cases h0 : p.getD 0 0 = 0xCC
  case neg => exact ⟨_, fun s h => stopsWith_of_reject (validatePacket_start h h26 (.inl h0)) rfl⟩
  by_cases h1 : p.getD 1 0 = 0x01
  case neg => exact ⟨_, fun s h => stopsWith_of_reject (validatePacket_start h h26 (.inr h1)) rfl⟩
  by_cases hlength : (p.getD 2 0).toNat + 2 = p.length
  case neg => exact ⟨_, fun s h => stopsWith_of_reject (validatePacket_length h h26 h0 h1 hlength) rfl⟩
  have hsum : ¬ sumOk p := fun hsum => hfails ((packetPasses_iff p).2 ⟨h26, h0, h1, hlength, hsum⟩)
  exact ⟨_, fun s h => stopsWith_of_reject (validatePacket_checksum h h26 h0 h1 hlength hsum) rfl⟩

/-- A packet that passes the four checks and is for another device stops too (R168). -/
theorem stopsWith_wrongDestination {s : State} {p : List Byte} (h : Carries s p) (hpasses : packetPasses p = true)
    (hus : (broadcastOf p || namesUs s.store p) = false) : StopsWith .wrongDestination s := by
  have h26 := ((packetPasses_iff p).1 hpasses).1
  exact ⟨screened p s, rfl, screenFrame_stranger h (by omega) (validatePacket_of_passes h hpasses) hus⟩

/-- A frame that goes on to the dispatcher has passed the four checks and is for us. -/
theorem screenFrame_eq_go {s u : State} {p : List Byte} (h : Carries s p) (hgo : screenFrame s = .go u) :
    packetPasses p = true ∧ u = screened p s := by
  have hnot (k : StatusKind) : ¬ StopsWith k s := fun ⟨v, _, hstop⟩ => by
    rw [hstop] at hgo
    cases hgo
  by_cases hpasses : packetPasses p = true
  case neg =>
    obtain ⟨k, hstops⟩ := stopsWith_of_fails hpasses
    exact absurd (hstops s h) (hnot k)
  have h26 := ((packetPasses_iff p).1 hpasses).1
  cases hus : broadcastOf p || namesUs s.store p with
  | false => exact absurd (stopsWith_wrongDestination h hpasses hus) (hnot _)
  | true =>
    rw [screenFrame_go h (by omega) (validatePacket_of_passes h hpasses) hus] at hgo
    exact ⟨hpasses, (Flow.go.inj hgo).symm⟩

/-- A packet that can reach the dispatcher has command class GET. -/
def IsGet (p : List Byte) : Prop := 26 ≤ p.length → p.getD 20 0 = 0x20

theorem KeepsAgent.spared {s t : State} (h : KeepsAgent s t) : Spared s t := ⟨h.store, h.agent, fun _ => h.flags⟩

theorem dispatchLoaded_spared {s t : State} {p : List Byte} (h : Carries s p) (h24 : 24 ≤ p.length)
    (hget : p.getD 20 0 = 0x20) (hq : quietConfig s.cfg = true) (hout : (dispatchLoaded s).out = .next t) : Spared s t := by
  have hclass : ¬ (p.getD 20 0 ≠ 0x20 ∧ p.getD 20 0 ≠ 0x30) := fun hother => hother.1 hget
  by_cases hsub : subOf p ≠ 0x0000 ∧ subOf p ≠ 0xFFFF
  · rw [dispatchLoaded_sub h h24 hclass hsub] at hout
    exact (nackOrSilent_ported (s := classed p s) hout).spared
  cases hentry : lastEntry s.cfg (pidOf p) with
  | none =>
    rw [dispatchLoaded_unknown h h24 hclass hsub hentry] at hout
    exact (nackOrSilent_ported (s := unfound p s) hout).spared
  | some entry =>
    rw [dispatchLoaded_found h h24 hclass hsub hentry, if_pos hget] at hout
    exact getPath_spared (s := found p entry.2 s) hq hout

theorem frame_spared {s t : State} {p : List Byte} (h : Carries s p) (hget : IsGet p) (hq : quietConfig s.cfg = true)
    (hout : ((screenFrame s).andThen dispatch).out = .next t) : Spared s t := by
  cases hscreen : screenFrame s with
  | stop o =>
    rw [hscreen] at hout
    exact ((screenFrame_checks s).keepsAgent (hscreen ▸ hout)).spared
  | go u =>
    obtain ⟨hpasses, rfl⟩ := screenFrame_eq_go h hscreen
    have h26 := ((packetPasses_iff p).1 hpasses).1
    have hscreened : Carries (screened p s) p := h.congr rfl rfl
    rw [hscreen, Flow.andThen_go, dispatch_carries hscreened (by omega)] at hout
    exact dispatchLoaded_spared (s := contexted p (screened p s)) (h.congr rfl rfl) (by omega) (hget h26) hq hout

/-- A whole frame with command class GET, where the table's GETs keep R259. -/
theorem labelRdm_spared {s t : State} (hfilled : PayloadFilled s) (hget : IsGet (payloadOf s))
    (hq : quietConfig s.cfg = true) (h : exec .labelRdm s = .next t) : Spared s t := by
  have hprocess : processFrame { s with enc.done := false } = .next t := h
  exact frame_spared (s := { s with enc.done := false, val.size := s.rx.len }) (hfilled.carries.congr rfl rfl) hget hq
    (processFrame_eq_next hprocess).1

end Sys2Proof.Machine
end

section
/-! SUPPORT. A packet that passes the four checks, under another transaction number (R92, R95): what the validator and the
dispatcher read of it is the same. -/

namespace Sys2Proof.Machine

section
variable {p : List Byte} (tn : Byte)

/-- Of the 24 header bytes only byte 15 differs. -/
theorem retagged_header (h26 : 26 ≤ p.length) {i : Nat} (hi : i < 24) (h15 : i ≠ 15) :
    (retagged tn p).getD i 0 = p.getD i 0 := by
  rw [retagged_getD tn (by omega), if_neg h15]

theorem retagged_tn (h26 : 26 ≤ p.length) : (retagged tn p).getD 15 0 = tn := by
  rw [retagged_getD tn (by omega), if_pos rfl]

theorem broadcastOf_retagged (h26 : 26 ≤ p.length) : broadcastOf (retagged tn p) = broadcastOf p := by
  simp (disch := decide) only [broadcastOf, retagged_header tn h26]

theorem namesUs_retagged (h26 : 26 ≤ p.length) (st : SettingsStore) : namesUs st (retagged tn p) = namesUs st p := by
  simp (disch := decide) only [namesUs, retagged_header tn h26]

theorem subOf_retagged (h26 : 26 ≤ p.length) : subOf (retagged tn p) = subOf p := by
  simp (disch := decide) only [subOf, retagged_header tn h26]

theorem pidOf_retagged (h26 : 26 ≤ p.length) : pidOf (retagged tn p) = pidOf p := by
  simp (disch := decide) only [pidOf, retagged_header tn h26]

theorem contextFrom_retagged (h26 : 26 ≤ p.length) (bcast : Bool) :
    contextFrom (retagged tn p) bcast = { contextFrom p bcast with tn := tn } := by
  simp (disch := decide) only [contextFrom, retagged_header tn h26, retagged_tn tn h26]

theorem packetPasses_retagged (hpasses : packetPasses p = true) : packetPasses (retagged tn p) = true := by
  obtain ⟨h26, h0, h1, hlength, -⟩ := (packetPasses_iff p).1 hpasses
  have hsize := retagged_length tn (p := p) (by omega)
  refine (packetPasses_iff _).2 ⟨by omega, ?_, ?_, ?_, retagged_sumOk tn (by omega)⟩
  · rw [retagged_header tn h26 (by decide) (by decide), h0]
  · rw [retagged_header tn h26 (by decide) (by decide), h1]
  · rw [retagged_header tn h26 (by decide) (by decide), hsize, hlength]

end

/-- Under its own transaction number a packet that passes is itself. -/
theorem retagged_self {p : List Byte} (hpasses : packetPasses p = true) : retagged (p.getD 15 0) p = p := by
  obtain ⟨h26, -, -, -, hsum⟩ := (packetPasses_iff p).1 hpasses
  have hbody : (p.take (p.length - 2)).set 15 (p.getD 15 0) = p.take (p.length - 2) := by
    have h15 : 15 < p.length := by omega
    have hbyte : p.getD 15 0 = (p.take (p.length - 2))[15]'(by simp; omega) := by simp [List.getD, h15]
    rw [hbyte, List.set_getElem_self]
  rw [retagged, hbody, hsum, List.take_append_drop]

/-- `q` is `p` sent again: a packet that passes the four checks under the transaction number `tn`, any other as it was. -/
def SentAgain (tn : Byte) (p q : List Byte) : Prop :=
  packetPasses p = true ∧ q = retagged tn p ∨ ¬ packetPasses p = true ∧ q = p

theorem sentAgain_self (p : List Byte) : SentAgain (p.getD 15 0) p p := by
  by_cases hpasses : packetPasses p = true
  · exact .inl ⟨hpasses, (retagged_self hpasses).symm⟩
  · exact .inr ⟨hpasses, rfl⟩

theorem SentAgain.isGet {tn : Byte} {p q : List Byte} (h : SentAgain tn p q) (hget : IsGet p) : IsGet q := by
  obtain ⟨hpasses, rfl⟩ | ⟨-, rfl⟩ := h
  · intro _
    have h26 := ((packetPasses_iff p).1 hpasses).1
    rw [retagged_header tn h26 (by decide) (by decide), hget h26]
  · exact hget

end Sys2Proof.Machine
end

section
/-! SUPPORT. A request sent again is dispatched as the first was: the two states stay in `Sim` from the dispatcher's entry to the
outcome (R180 to R189, R259). -/

namespace Sys2Proof.Machine

variable {tn : Byte} {s₀ t₀ s t : State}

/-- The dispatcher's registers and `HANDLER_LOG` do not matter to the agreement. -/
theorem Sim.withDisp (h : Sim tn s₀ t₀ s t) (d e : DispRegs) :
    Sim tn s₀ t₀ { s with disp := d } { t with disp := e } :=
  ⟨h.cfg, h.ctx, h.flags, h.store, h.size, h.long, h.cells, h.tag, h.busy, h.done, h.remaining, h.sent⟩

/-- See `Sim.withDisp`. -/
theorem Sim.logged (h : Sim tn s₀ t₀ s t) (v w : Invocation) : Sim tn s₀ t₀ (logged v s) (logged w t) :=
  ⟨h.cfg, h.ctx, h.flags, h.store, h.size, h.long, h.cells, h.tag, h.busy, h.done, h.remaining, h.sent⟩

theorem Sim.byteAt_eq (h : Sim tn s₀ t₀ s t) {i : Nat} (hi : i < 24) (h15 : i ≠ 15) : byteAt t i = byteAt s i := by
  have hlong := h.long
  rw [byteAt, h.cells i h15 (by omega), byteAt]

/-- `SimOut` for an operation that leaves the flags as `flags` (a result may have been fetched otherwise). -/
def SimKept (tn : Byte) (s₀ t₀ : State) (flags : HandlerFlags) (o₁ o₂ : Out) : Prop :=
  ∀ s, o₁ = .next s → s.flags = flags → ∃ t, o₂ = .next t ∧ Sim tn s₀ t₀ s t

theorem SimOut.kept {flags : HandlerFlags} {o₁ o₂ : Out} (h : SimOut tn s₀ t₀ o₁ o₂) : SimKept tn s₀ t₀ flags o₁ o₂ :=
  fun s hs _ => h s hs

/-- Fetching a pending result clears its flag (R254), so a GET that leaves the flags fetched none. -/
theorem runGet_fetches_none {b : GetBehaviour} {s t : State} (h : runGet b s = .next t) (hflags : t.flags = s.flags) :
    s.flags.labelPending = false ∨ b ≠ .queuedMessage := by
  by_cases hpending : s.flags.labelPending = true
  case neg => exact .inl (by simpa using hpending)
  right
  rintro rfl
  have hrun : queuedMessageGet s = .next t := h
  rw [queuedMessageGet, if_pos hpending] at hrun
  have hcleared : t.flags.labelPending = false := congrArg HandlerFlags.labelPending (sendReply_ported hrun).flags
  rw [hflags, hpending] at hcleared
  cases hcleared

theorem getInvoke_sim (h : Sim tn s₀ t₀ s t) (hidx : t.disp.idx = s.disp.idx) (hq : quietConfig s.cfg = true) :
    SimKept tn s₀ t₀ s.flags (getInvoke s).out (getInvoke t).out := by
  intro u hu hflags
  obtain ⟨e, b, he, hb, hrun, ho⟩ := getInvoke_eq_next hu
  have hnone := runGet_fetches_none hrun hflags
  obtain ⟨v, hv, hsim⟩ := runGet_sim b (quietConfig_entry he hq b hb) (h.logged _ (.get t.disp.idx)) hnone u hrun
  refine ⟨v, ?_, hsim⟩
  have he' : tableEntry t.cfg t.disp.idx = .ok e := by rw [h.cfg, hidx, he]
  have hv : runGet b { t with trace.handlerLog := t.trace.handlerLog ++ [.get t.disp.idx] } = .next v := hv
  rw [getInvoke_eq he' hb, hv, Flow.out_stop, andThen_next, handlerReturn, if_pos (hsim.outcome ho).1]

/-- The GET path of the same entry, for the same sub-device and broadcast flag. -/
theorem getPath_sim (h : Sim tn s₀ t₀ s t) {e : PidDefinition} (he : tableEntry s.cfg s.disp.idx = .ok e)
    (hidx : t.disp.idx = s.disp.idx) (hsub : t.disp.sub = s.disp.sub) (hflag : t.val.isBroadcast = s.val.isBroadcast)
    (hs : Readable s 24) (ht : Readable t 24) (hq : quietConfig s.cfg = true) :
    SimKept tn s₀ t₀ s.flags (getPath s).out (getPath t).out := by
  have he' : tableEntry t.cfg t.disp.idx = .ok e := by rw [h.cfg, hidx, he]
  have hsized : Sim tn s₀ t₀ (sized (byteAt s 23) s) (sized (byteAt s 23) t) := h.withDisp _ _
  rw [getPath_eq he hs, getPath_eq he' ht, hflag, hsub, h.byteAt_eq (by decide) (by decide)]
  split
  · exact (nackOrSilent_sim h _ _).kept
  split
  · exact (takeStatus_sim _ h).kept
  split
  · exact (nack_sim h _).kept
  split
  · exact (nack_sim hsized _).kept
  · exact getInvoke_sim (s := sized (byteAt s 23) s) hsized hidx hq

theorem dispatchLoaded_sim {p : List Byte} (h : Sim tn s₀ t₀ s t) (hs : Carries s p) (ht : Carries t (retagged tn p))
    (h26 : 26 ≤ p.length) (hget : p.getD 20 0 = 0x20) (hflag : t.val.isBroadcast = s.val.isBroadcast)
    (hq : quietConfig s.cfg = true) :
    SimKept tn s₀ t₀ s.flags (dispatchLoaded s).out (dispatchLoaded t).out := by
  have hlen := retagged_length tn (p := p) (by omega)
  have hget' : (retagged tn p).getD 20 0 = 0x20 := (retagged_header tn h26 (by decide) (by decide)).trans hget
  have hclass : ¬ (p.getD 20 0 ≠ 0x20 ∧ p.getD 20 0 ≠ 0x30) := fun hother => hother.1 hget
  have hclass' : ¬ ((retagged tn p).getD 20 0 ≠ 0x20 ∧ (retagged tn p).getD 20 0 ≠ 0x30) := fun hother => hother.1 hget'
  have hsubOf := subOf_retagged tn h26
  have hentryOf : lastEntry t.cfg (pidOf (retagged tn p)) = lastEntry s.cfg (pidOf p) := by
    rw [h.cfg, pidOf_retagged tn h26]
  by_cases hsub : subOf p ≠ 0x0000 ∧ subOf p ≠ 0xFFFF
  · have hsub' : subOf (retagged tn p) ≠ 0x0000 ∧ subOf (retagged tn p) ≠ 0xFFFF := by rwa [hsubOf]
    rw [dispatchLoaded_sub hs (by omega) hclass hsub, dispatchLoaded_sub ht (by omega) hclass' hsub', hflag]
    exact (nackOrSilent_sim (h.withDisp _ _) _ _).kept
  have hsub' : ¬ (subOf (retagged tn p) ≠ 0x0000 ∧ subOf (retagged tn p) ≠ 0xFFFF) := by rwa [hsubOf]
  cases hentry : lastEntry s.cfg (pidOf p) with
  | none =>
    rw [dispatchLoaded_unknown hs (by omega) hclass hsub hentry,
      dispatchLoaded_unknown ht (by omega) hclass' hsub' (hentryOf.trans hentry), hflag]
    exact (nackOrSilent_sim (h.withDisp _ _) _ _).kept
  | some entry =>
    rw [dispatchLoaded_found hs (by omega) hclass hsub hentry, if_pos hget,
      dispatchLoaded_found ht (by omega) hclass' hsub' (hentryOf.trans hentry), if_pos hget']
    have hfound : Sim tn s₀ t₀ (found p entry.2 s) (found (retagged tn p) entry.2 t) := h.withDisp _ _
    have hs' : Carries (found p entry.2 s) p := hs.congr rfl rfl
    have ht' : Carries (found (retagged tn p) entry.2 t) (retagged tn p) := ht.congr rfl rfl
    exact getPath_sim hfound (tableEntry_eq (lastEntry_getElem hentry)) rfl hsubOf hflag (hs'.readable (by omega))
      (ht'.readable (by omega)) hq

end Sys2Proof.Machine
end

section
/-! SUPPORT. A whole GET frame sent again, to a block that has kept its configuration, its flags and its stored values, is
answered alike (R259). -/

namespace Sys2Proof.Machine

theorem Carries.read {s : State} {p : List Byte} (h : Carries s p) {i : Nat} (hi : i < p.length) :
    Memory.read s.buf i = some (p.getD i 0) := by
  obtain ⟨b, hb⟩ := h.reads i hi
  have hbyte := h.byteAt hi
  rw [Machine.byteAt, hb, Option.getD_some] at hbyte
  rw [hb, hbyte]

theorem Early.cfg {s t : State} (h : Early s t) : t.cfg = s.cfg := by
  unfold Early at h
  rw [h]

theorem Early.enc {s t : State} (h : Early s t) : t.enc = s.enc := by
  unfold Early at h
  rw [h]

theorem Early.trace {s t : State} (h : Early s t) : t.trace = s.trace := by
  unfold Early at h
  rw [h]

/-- `v` has in its buffer what `s` has, sent again under `tn`, and agrees with `s` on what R259 names. -/
structure AskedAgain (tn : Byte) (p q : List Byte) (s v : State) : Prop where
  cfg : v.cfg = s.cfg
  flags : v.flags = s.flags
  store : v.store.toStoreView = s.store.toStoreView
  ready : Ready s
  readyAgain : Ready v
  carries : Carries s p
  carriesAgain : Carries v q
  sent : SentAgain tn p q

/-- Where the frame in `s` ended in `t`, the one in `v` ends in `u`, with the same outcome but for the echo; `own` is the first
one's transaction number. -/
structure AnsweredAgain (tn own : Byte) (s t v u : State) : Prop where
  ends : ((screenFrame v).andThen dispatch).out = .next u
  outcome : outcomeReached u = true
  flags : u.flags = t.flags
  answers : ∃ bs cs, t.trace.tx = s.trace.tx ++ bs ∧ u.trace.tx = v.trace.tx ++ cs ∧ SameButEcho s.cfg tn bs cs
    ∧ (tn = own → cs = bs)

section
variable (p : List Byte) (s : State)

/-- The state in which a frame of ours is dispatched, its `ResponseContext` loaded (R180). -/
def entered : State := contexted p (screened p s)

theorem entered_early : Early s (entered p s) := rfl
theorem entered_size : (entered p s).val.size = s.val.size := rfl
theorem entered_ctx : (entered p s).ctx = contextFrom p (broadcastOf p) := rfl

end

/-- At the dispatcher's entry the two requests agree on all but the transaction number. -/
theorem AskedAgain.sim {tn : Byte} {p : List Byte} {s v : State} (h : AskedAgain tn p (retagged tn p) s v)
    (h26 : 26 ≤ p.length) : Sim tn s v (entered p s) (entered (retagged tn p) v) := by
  have hlen := retagged_length tn (p := p) (by omega)
  have hsize := h.carries.size
  have hsize' : v.val.size = s.val.size := BitVec.eq_of_toNat_eq (by rw [h.carriesAgain.size, hlen, hsize])
  have hs := entered_early p s
  have hv := entered_early (retagged tn p) v
  refine ⟨?cfg, ?ctx, ?flags, ?store, ?size, ?long, fun i h15 hi => ?cells, ?tag, ?busy, ?done, ?remaining, ?sent⟩
  case cfg => rw [hs.cfg, hv.cfg, h.cfg]
  case ctx => rw [entered_ctx, entered_ctx, broadcastOf_retagged tn h26, contextFrom_retagged tn h26]
  case flags => rw [hs.keepsAgent.flags, hv.keepsAgent.flags, h.flags]
  case store => rw [hs.keepsAgent.store, hv.keepsAgent.store, h.store]
  case size => rw [entered_size, entered_size, hsize']
  case long => rwa [entered_size, hsize]
  case cells =>
    rw [entered_size, hsize] at hi
    rw [hs.buf, hv.buf, h.carries.read (by omega), h.carriesAgain.read (by omega), retagged_getD tn hi, if_neg h15]
  case tag =>
    rw [hv.buf]
    exact ⟨_, h.carriesAgain.read (by omega)⟩
  case busy => rw [hs.enc, hv.enc, h.ready.1, h.readyAgain.1]
  case done => rw [hs.enc, hv.enc, h.ready.2, h.readyAgain.2]
  case remaining =>
    rw [hs.enc, h.ready.1]
    exact fun hopen => by cases hopen
  case sent =>
    left
    rw [hs.enc, hs.trace, hv.trace]
    exact ⟨h.ready.1, h.ready.2, rfl, rfl⟩

/-- A frame that ends before the dispatcher does so again, in the same status. -/
theorem AskedAgain.stopped {tn own : Byte} {p q : List Byte} {s t v : State} {k : StatusKind} (h : AskedAgain tn p q s v)
    (hs : StopsWith k s) (hv : StopsWith k v) (hout : ((screenFrame s).andThen dispatch).out = .next t) :
    ∃ u, AnsweredAgain tn own s t v u := by
  obtain ⟨s', hearly, hstop⟩ := hs
  obtain ⟨v', hearly', hstop'⟩ := hv
  have hready' : Ready v' := by rw [Ready, hearly'.enc]; exact h.readyAgain
  have hstatus : takeStatus k s' = .next t := by rwa [hstop] at hout
  obtain ⟨-, -, rfl⟩ := takeStatus_eq_next hstatus
  refine ⟨withStatus k v', ?ends, ?outcome, ?flags, statusBytes s.cfg k, statusBytes s.cfg k, ?first, ?again,
    .inr ⟨k, rfl, rfl⟩, fun _ => rfl⟩
  case ends =>
    rw [hstop', raiseStatus_eq k hready']
    rfl
  case outcome => simp [outcomeReached, hready'.1]
  case flags => rw [withStatus_flags, withStatus_flags, hearly.keepsAgent.flags, hearly'.keepsAgent.flags, h.flags]
  case first =>
    rw [withStatus_trace, hearly.trace, hearly.cfg]
    rfl
  case again =>
    rw [withStatus_trace, hearly'.trace, hearly'.cfg, h.cfg]
    rfl

/-- A packet for us comes to the same answer, if the first left the flags. -/
theorem AskedAgain.served {tn : Byte} {p : List Byte} {s t v : State} (h : AskedAgain tn p (retagged tn p) s v)
    (hpasses : packetPasses p = true) (hout : ((screenFrame s).andThen dispatch).out = .next t)
    (hus : (broadcastOf p || namesUs s.store p) = true)
    (hus' : (broadcastOf (retagged tn p) || namesUs v.store (retagged tn p)) = true) (hget : p.getD 20 0 = 0x20)
    (hq : quietConfig s.cfg = true) (ho : outcomeReached t = true) (hflags : t.flags = s.flags) :
    ∃ u, AnsweredAgain tn (p.getD 15 0) s t v u := by
  have h26 := ((packetPasses_iff p).1 hpasses).1
  have hlen := retagged_length tn (p := p) (by omega)
  have hvalid := validatePacket_of_passes h.carries hpasses
  have hvalid' := validatePacket_of_passes h.carriesAgain (packetPasses_retagged tn hpasses)
  have hs : Carries (screened p s) p := h.carries.congr rfl rfl
  have hv : Carries (screened (retagged tn p) v) (retagged tn p) := h.carriesAgain.congr rfl rfl
  have hloaded : Carries (entered p s) p := hs.congr rfl rfl
  have hloaded' : Carries (entered (retagged tn p) v) (retagged tn p) := hv.congr rfl rfl
  rw [screenFrame_go h.carries (by omega) hvalid hus, Flow.andThen_go, dispatch_carries hs (by omega)] at hout
  obtain ⟨u, hu, hsim⟩ := dispatchLoaded_sim (h.sim h26) hloaded hloaded' h26 hget (broadcastOf_retagged tn h26) hq t hout
    hflags
  obtain ⟨ho', bs, cs, hbs, hcs, hsame, hown⟩ := hsim.outcome ho
  have htn : t.ctx.tn = p.getD 15 0 := congrArg ResponseContext.tn ((dispatchLoaded_ends _).ctx hout)
  have hcfg : t.cfg = s.cfg := ((dispatchLoaded_ends _).wr hout).cfg
  refine ⟨u, ?_, ho', hsim.flags, bs, cs, hbs, hcs, hcfg ▸ hsame, htn ▸ hown⟩
  rw [screenFrame_go h.carriesAgain (by omega) hvalid' hus', Flow.andThen_go, dispatch_carries hv (by omega)]
  exact hu

/-- The second frame comes to an outcome where the first did, and it is the same but for the echo. -/
theorem AskedAgain.answered {tn : Byte} {p q : List Byte} {s t v : State} (h : AskedAgain tn p q s v) (hget : IsGet p)
    (hq : quietConfig s.cfg = true) (hout : ((screenFrame s).andThen dispatch).out = .next t)
    (ho : outcomeReached t = true) (hflags : t.flags = s.flags) : ∃ u, AnsweredAgain tn (p.getD 15 0) s t v u := by
  obtain ⟨hpasses, rfl⟩ | ⟨hfails, rfl⟩ := h.sent
  case inr =>
    obtain ⟨k, hstops⟩ := stopsWith_of_fails hfails
    exact h.stopped (hstops s h.carries) (hstops v h.carriesAgain) hout
  have h26 := ((packetPasses_iff p).1 hpasses).1
  have hnamed : (broadcastOf (retagged tn p) || namesUs v.store (retagged tn p))
      = (broadcastOf p || namesUs s.store p) := by
    rw [broadcastOf_retagged tn h26, namesUs_retagged tn h26]
    simp only [namesUs, h.store]
  cases hus : broadcastOf p || namesUs s.store p with
  | false =>
    exact h.stopped (stopsWith_wrongDestination h.carries hpasses hus)
      (stopsWith_wrongDestination h.carriesAgain (packetPasses_retagged tn hpasses) (hnamed.trans hus)) hout
  | true => exact h.served hpasses hout hus (hnamed.trans hus) (hget h26) hq ho hflags

end Sys2Proof.Machine
end

section
/-! A GET is idempotent (O56). -/

namespace Sys2Proof.Machine

/-- A frame that ends in a state with an outcome is processed to that state. -/
theorem processFrame_of_out {s t : State}
    (h : ((screenFrame { s with val.size := s.rx.len }).andThen dispatch).out = .next t)
    (ho : outcomeReached t = true) : processFrame s = .next t := by
  rw [processFrame_eq, h, andThen_next, if_pos ho]

theorem outcomeReached_closed {t : State} (h : outcomeReached t = true) : t.enc.busy = false := by
  simp only [outcomeReached, Bool.and_eq_true, Bool.not_eq_true'] at h
  exact h.2

/-- The state `t` that a frame left, once the label has been committed (R261) and with other bytes in the buffer. -/
def later (committed : List Byte) (m : Memory) (t : State) : State :=
  { t with store.committedLabel := committed, buf := m }

/-- A GET frame that completed and left the flags completes when it is sent again. -/
theorem labelRdm_again {tn : Byte} {s t : State} {committed bs : List Byte} {m : Memory} (hq : quietConfig s.cfg = true)
    (hfilled : PayloadFilled s) (hclosed : s.enc.busy = false) (hget : IsGet (payloadOf s))
    (h : exec .labelRdm s = .next t) (hflags : t.flags = s.flags) (hbs : t.trace.tx = s.trace.tx ++ bs)
    (hfilled' : PayloadFilled (later committed m t)) (hsent : SentAgain tn (payloadOf s) (payloadOf (later committed m t))) :
    ∃ u cs, exec .labelRdm (later committed m t) = .next u ∧ u.trace.tx = t.trace.tx ++ cs ∧ SameButEcho s.cfg tn bs cs
      ∧ (tn = (payloadOf s).getD 15 0 → cs = bs) ∧ u.flags = s.flags ∧ u.agent = s.agent
      ∧ u.store = { s.store with committedLabel := committed } := by
  have hprocess : processFrame { s with enc.done := false } = .next t := h
  obtain ⟨hout, ho⟩ := processFrame_eq_next hprocess
  obtain ⟨hstore, hagent, -⟩ := labelRdm_spared hfilled hget hq h
  have hcfg : t.cfg = s.cfg := (emit_wr (l := rdmLabel) h).cfg
  have hview : t.store.toStoreView = s.store.toStoreView := by rw [hstore]
  have hclosed' := outcomeReached_closed ho
  have hasked : AskedAgain tn (payloadOf s) (payloadOf (later committed m t))
      { s with enc.done := false, val.size := s.rx.len }
      { later committed m t with enc.done := false, val.size := t.rx.len } :=
    ⟨hcfg, hflags, hview, ⟨hclosed, rfl⟩, ⟨hclosed', rfl⟩, hfilled.carries.congr rfl rfl,
      hfilled'.carries.congr rfl rfl, hsent⟩
  obtain ⟨u, hends, ho', hflags', bs', cs, hbs', hcs, hsame, hown⟩ := hasked.answered hget hq hout ho hflags
  obtain rfl : bs = bs' := List.append_cancel_left (hbs.symm.trans hbs')
  have hagain : exec .labelRdm (later committed m t) = .next u := processFrame_of_out hends ho'
  have hq' : quietConfig t.cfg = true := by rw [hcfg, hq]
  obtain ⟨hstore', hagent', -⟩ := labelRdm_spared hfilled' (hsent.isGet hget) hq' hagain
  refine ⟨u, cs, hagain, hcs, hsame, hown, hflags'.trans hflags, hagent'.trans hagent, ?_⟩
  rw [hstore', later, hstore]

/-- Settles O56: a GET path spares what R259 names (`labelRdm_spared`), so the frame sent again, as it was or under another
transaction number, meets the same block (`labelRdm_again`). -/
theorem getIsIdempotent : Obligations.GetIsIdempotent := by
  unfold Obligations.GetIsIdempotent
  intro s t hq hfilled hclosed hclass h
  have hget : IsGet (payloadOf s) := fun h26 => by
    rw [payloadOf_length] at h26
    rw [← byteAt_eq_payloadOf_getD hfilled (by omega), hclass]
  have w : Wr s t := emit_wr (l := rdmLabel) h
  obtain ⟨hstore, hagent, hkept⟩ := labelRdm_spared hfilled hget hq h
  obtain ⟨bs, hbs⟩ := w.tx
  have hbs : t.trace.tx = s.trace.tx ++ bs := hbs.symm
  refine ⟨hstore, hagent, hkept, fun hflags => ⟨bs, hbs, fun committed => ?same⟩,
    fun hflags hpasses => ⟨bs, hbs, fun committed tn v hv hfilled' hpayload => ?retagged⟩⟩
  case same =>
    have hbuf : t.buf = s.buf := w.buf
    have hrx : t.rx = s.rx := w.rx
    have hpayload : payloadOf (later committed t.buf t) = payloadOf s := by
      show Memory.run t.buf 0 t.rx.len.toNat = _
      rw [hbuf, hrx]
      rfl
    have hfilled' : PayloadFilled (later committed t.buf t) := by
      show ∀ i, i < t.rx.len.toNat → ∃ b, Memory.read t.buf i = some b
      rwa [hbuf, hrx]
    obtain ⟨u, cs, hu, hcs, -, hown, hflags', hagent', hstore'⟩ :=
      labelRdm_again hq hfilled hclosed hget h hflags hbs hfilled' (by rw [hpayload]; exact sentAgain_self _)
    exact ⟨u, hu, hown rfl ▸ hcs, hflags', hagent', hstore'⟩
  case retagged =>
    have hv : v = later committed v.buf t := hv
    have hsent : SentAgain tn (payloadOf s) (payloadOf v) := .inl ⟨hpasses, hpayload⟩
    rw [hv] at hfilled' hsent ⊢
    obtain ⟨u, cs, hu, hcs, hsame, -, hflags', hagent', hstore'⟩ :=
      labelRdm_again hq hfilled hclosed hget h hflags hbs hfilled' hsent
    refine ⟨u, cs, hu, hcs, hsame, hflags', hagent', ?_⟩
    rw [hstore', later, hstore]

end Sys2Proof.Machine
end

section
/-! SUPPORT. How the processing of a frame ends, in R283's order: `expectedEnd` is cut where the machine passes from the
validator to the dispatcher and from there to a class path, and each part decides what its part of the machine does. -/

namespace Sys2Proof.Machine

/-! The list cut in parts. -/

/-- Items 11 to 13 of R283's list on the GET path of entry `i` (R185 to R189). -/
def getEnd (p : List Byte) (e : PidDefinition) (i : Nat) : FrameEnd :=
  if e.get = none then refusal (broadcastOf p) unsupportedClassReason
  else if broadcastOf p then .status .broadcastNoReply
  else if subOf p ≠ 0x0000 then .nack subDeviceReason
  else if p.getD 23 0 ≠ e.getArgLen then .nack formatErrorReason
  else .invoke (.get i)

/-- The same on the SET path (R190, R191). -/
def setEnd (p : List Byte) (e : PidDefinition) (i : Nat) : FrameEnd :=
  if e.set = none then refusal (broadcastOf p) unsupportedClassReason
  else .invoke (.set i (broadcastOf p))

/-- Items 8 to 13 of R283's list, which the dispatcher decides (R181 to R191). -/
def dispatchEnd (c : Config) (p : List Byte) : FrameEnd :=
  if p.getD 20 0 ≠ 0x20 ∧ p.getD 20 0 ≠ 0x30 then .status .invalidCommandClass
  else if subOf p ≠ 0x0000 ∧ subOf p ≠ 0xFFFF then refusal (broadcastOf p) subDeviceReason
  else match lastEntry c (pidOf p) with
    | none => refusal (broadcastOf p) unknownPidReason
    | some (e, i) => if p.getD 20 0 = 0x20 then getEnd p e i else setEnd p e i

/-- Items 3 to 7 are the validator's and the destination match's, the rest the dispatcher's. -/
theorem expectedEnd_eq (c : Config) (st : SettingsStore) (p : List Byte) :
    expectedEnd c st p =
      if p.length < 26 then .status .tooShort
      else if p.getD 0 0 ≠ 0xCC ∨ p.getD 1 0 ≠ 0x01 then .status .badStartCode
      else if (p.getD 2 0).toNat + 2 ≠ p.length then .status .badLength
      else if ¬ sumOk p then .status .badChecksum
      else if broadcastOf p = false ∧
          [p.getD 3 0, p.getD 4 0, p.getD 5 0, p.getD 6 0, p.getD 7 0, p.getD 8 0]
            ≠ bytes16 st.estaId ++ bytes32 st.serialNumber then .status .wrongDestination
      else dispatchEnd c p := rfl

/-! What the parts of the machine do. -/

/-- Processing the frame `p` from `s` ends as the list says: with the status or the NACK, taken in a state in which only
working registers have changed, or, unless it faults, with the invocation logged. -/
def EndsAs (p : List Byte) (s : State) (o : Out) : FrameEnd → Prop
  | .status k => ∃ u, Early s u ∧ o = .next (withStatus k u)
  | .nack r => ∃ u, Early s u ∧ o = .next (replied (nackFields s p r) u)
  | .invoke v => ∀ t, o = .next t → t.trace.handlerLog = s.trace.handlerLog ++ [v]

theorem getInvoke_logs {s t : State} (h : (getInvoke s).out = .next t) :
    t.trace.handlerLog = s.trace.handlerLog ++ [.get s.disp.idx] := by
  obtain ⟨e, b, he, hb, hrun, -⟩ := getInvoke_eq_next h
  rw [(runGet_handled hrun fun hs => (settledConfig_entry he hs).1 b hb).1.eq]
  rfl

theorem setInvoke_logs {s t : State} (h : (setInvoke s).out = .next t) :
    t.trace.handlerLog = s.trace.handlerLog ++ [.set s.disp.idx s.val.isBroadcast] := by
  obtain ⟨e, b, he, hb, hrun, -⟩ := setInvoke_eq_next h
  rw [(runSet_handled hrun fun hs => (settledConfig_entry he hs).2 b hb).eq]
  rfl

/-- The state in which a step of the dispatcher runs: that of its entry, but for its own registers `d`. -/
def deciding (d : DispRegs) (p : List Byte) (s : State) : State := { entered p s with disp := d }

theorem deciding_early (d : DispRegs) (p : List Byte) (s : State) : Early s (deciding d p s) := rfl

section
variable {p : List Byte} {s : State} (hready : Ready s)
include hready

theorem takeStatus_endsAs {u : State} (hearly : Early s u) (k : StatusKind) : EndsAs p s (takeStatus k u) (.status k) := by
  rw [Ready, ← hearly.enc] at hready
  exact ⟨u, hearly, takeStatus_eq k u hready.1 hready.2⟩

theorem StopsWith.endsAs {k : StatusKind} (h : StopsWith k s) :
    EndsAs p s ((screenFrame s).andThen dispatch).out (.status k) := by
  obtain ⟨u, hearly, hstop⟩ := h
  rw [hstop]
  exact takeStatus_endsAs hready hearly k

/-- A NACK of a unicast GET or SET carries the request's fields (R217, R221). -/
theorem nack_endsAs (hclass : ¬ (p.getD 20 0 ≠ 0x20 ∧ p.getD 20 0 ≠ 0x30)) (hunicast : broadcastOf p = false)
    (d : DispRegs) (reason : Word16) : EndsAs p s (nack reason (deciding d p s)) (.nack reason) := by
  have hcc : respCc (p.getD 20 0) = if p.getD 20 0 = 0x20 then 0x21 else 0x31 := by
    by_cases hget : p.getD 20 0 = 0x20
    · rw [respCc, if_pos hget, if_pos hget]
    · have hset : p.getD 20 0 = 0x30 := Decidable.byContradiction fun hset => hclass ⟨hget, hset⟩
      rw [respCc, if_neg hget, if_neg hget, if_pos hset]
  have hnack := nack_answered (s := deciding d p s) hready hunicast reason
  refine ⟨_, deciding_early d p s, hnack.trans ?_⟩
  rw [nackFields, ← hcc]
  rfl

theorem nackOrSilent_endsAs (hclass : ¬ (p.getD 20 0 ≠ 0x20 ∧ p.getD 20 0 ≠ 0x30)) (d : DispRegs) (reason : Word16) :
    EndsAs p s (nackOrSilent (broadcastOf p) reason (deciding d p s)) (refusal (broadcastOf p) reason) := by
  cases hbcast : broadcastOf p with
  | true =>
    have hstatus := reportKind_broadcastNoReply (s := deciding d p s) hready hbcast
    exact ⟨_, deciding_early d p s, hstatus⟩
  | false => exact nack_endsAs hready hclass hbcast d reason

theorem getPath_endsAs (h : Carries s p) (h24 : 24 ≤ p.length) {e : PidDefinition} {i : Nat}
    (he : lastEntry s.cfg (pidOf p) = some (e, i)) (hclass : ¬ (p.getD 20 0 ≠ 0x20 ∧ p.getD 20 0 ≠ 0x30)) :
    EndsAs p s (getPath (found p i (entered p s))).out (getEnd p e i) := by
  have hfound : Carries (found p i (entered p s)) p := h.congr rfl rfl
  have hentry : tableEntry (found p i (entered p s)).cfg (found p i (entered p s)).disp.idx = .ok e :=
    tableEntry_eq (lastEntry_getElem he)
  have hflag : (found p i (entered p s)).val.isBroadcast = broadcastOf p := rfl
  have hsubOf : (found p i (entered p s)).disp.sub = subOf p := rfl
  rw [getPath_eq hentry (hfound.readable h24), hfound.byteAt (by omega), hflag, hsubOf, getEnd]
  by_cases hnone : e.get = none
  · rw [if_pos hnone, if_pos (by rw [hnone]; rfl)]
    exact nackOrSilent_endsAs hready hclass _ _
  rw [if_neg hnone, if_neg (by rwa [Option.isSome_eq_false_iff, Option.isNone_iff_eq_none])]
  by_cases hbcast : broadcastOf p = true
  · rw [if_pos hbcast, if_pos hbcast]
    exact takeStatus_endsAs hready (deciding_early _ p s) _
  rw [if_neg hbcast, if_neg hbcast]
  rw [Bool.not_eq_true] at hbcast
  by_cases hsub : subOf p ≠ 0x0000
  · rw [if_pos hsub, if_pos hsub]
    exact nack_endsAs hready hclass hbcast _ _
  rw [if_neg hsub, if_neg hsub]
  by_cases hlen : p.getD 23 0 ≠ e.getArgLen
  · rw [if_pos hlen, if_pos hlen]
    exact nack_endsAs hready hclass hbcast _ _
  rw [if_neg hlen, if_neg hlen]
  exact fun t => getInvoke_logs

theorem setPath_endsAs {e : PidDefinition} {i : Nat} (he : lastEntry s.cfg (pidOf p) = some (e, i))
    (hclass : ¬ (p.getD 20 0 ≠ 0x20 ∧ p.getD 20 0 ≠ 0x30)) :
    EndsAs p s (setPath (found p i (entered p s))).out (setEnd p e i) := by
  have hentry : tableEntry (found p i (entered p s)).cfg (found p i (entered p s)).disp.idx = .ok e :=
    tableEntry_eq (lastEntry_getElem he)
  rw [setPath_eq hentry, setEnd]
  by_cases hnone : e.set = none
  · rw [if_pos hnone, if_pos (by rw [hnone]; rfl)]
    exact nackOrSilent_endsAs hready hclass _ _
  rw [if_neg hnone, if_neg (by rwa [Option.isSome_eq_false_iff, Option.isNone_iff_eq_none])]
  exact fun t => setInvoke_logs

variable (h : Carries s p)
include h

/-- From its entry on the dispatcher ends the frame as its part of the list says. -/
theorem dispatchLoaded_endsAs (h24 : 24 ≤ p.length) :
    EndsAs p s (dispatchLoaded (entered p s)).out (dispatchEnd s.cfg p) := by
  have hentered : Carries (entered p s) p := h.congr rfl rfl
  rw [dispatchEnd]
  by_cases hclass : p.getD 20 0 ≠ 0x20 ∧ p.getD 20 0 ≠ 0x30
  · rw [if_pos hclass, dispatchLoaded_class hentered h24 hclass]
    exact takeStatus_endsAs hready (deciding_early _ p s) _
  rw [if_neg hclass]
  by_cases hsub : subOf p ≠ 0x0000 ∧ subOf p ≠ 0xFFFF
  · rw [if_pos hsub, dispatchLoaded_sub hentered h24 hclass hsub]
    exact nackOrSilent_endsAs hready hclass _ _
  rw [if_neg hsub]
  cases hentry : lastEntry s.cfg (pidOf p) with
  | none =>
    rw [dispatchLoaded_unknown hentered h24 hclass hsub hentry]
    exact nackOrSilent_endsAs hready hclass _ _
  | some entry =>
    rw [dispatchLoaded_found hentered h24 hclass hsub hentry]
    by_cases hget : p.getD 20 0 = 0x20
    · simp only [if_pos hget]
      exact getPath_endsAs hready h h24 hentry hclass
    · simp only [if_neg hget]
      exact setPath_endsAs hready hentry hclass

/-- A whole frame ends as the list says: its first failing check rejects it, or it is dispatched. -/
theorem frame_endsAs : EndsAs p s ((screenFrame s).andThen dispatch).out (expectedEnd s.cfg s.store p) := by
  have rejected {v : Verdict} {k : StatusKind} {u : State} (hreject : validatePacket s = rejectPacket v k u)
      (hearly : Early s u) : EndsAs p s ((screenFrame s).andThen dispatch).out (.status k) :=
    (stopsWith_of_reject hreject hearly).endsAs hready
  rw [expectedEnd_eq]
  by_cases hshort : p.length < 26
  · rw [if_pos hshort]
    exact rejected (validatePacket_short h hshort) rfl
  have h26 := Nat.le_of_not_lt hshort
  rw [if_neg hshort]
  by_cases hstart : p.getD 0 0 ≠ 0xCC ∨ p.getD 1 0 ≠ 0x01
  · rw [if_pos hstart]
    exact rejected (validatePacket_start h h26 hstart) rfl
  obtain ⟨h0, h1⟩ : p.getD 0 0 = 0xCC ∧ p.getD 1 0 = 0x01 := by simpa [not_or] using hstart
  rw [if_neg hstart]
  by_cases hlength : (p.getD 2 0).toNat + 2 = p.length
  case neg =>
    rw [if_pos hlength]
    exact rejected (validatePacket_length h h26 h0 h1 hlength) rfl
  rw [if_neg (not_not_intro hlength)]
  by_cases hsum : sumOk p
  case neg =>
    rw [if_pos hsum]
    exact rejected (validatePacket_checksum h h26 h0 h1 hlength hsum) rfl
  rw [if_neg (not_not_intro hsum)]
  split
  case isTrue hother =>
    have hus : (broadcastOf p || namesUs s.store p) = false :=
      Bool.or_eq_false_iff.2 ⟨hother.1, decide_eq_false hother.2⟩
    have hpasses := (packetPasses_iff p).2 ⟨h26, h0, h1, hlength, hsum⟩
    exact (stopsWith_wrongDestination h hpasses hus).endsAs hready
  case isFalse hours =>
    have hus : (broadcastOf p || namesUs s.store p) = true := by
      rw [← Bool.not_eq_false, Bool.or_eq_false_iff]
      exact fun ⟨hbcast, hnames⟩ => hours ⟨hbcast, of_decide_eq_false hnames⟩
    have hscreened : Carries (screened p s) p := h.congr rfl rfl
    rw [screenFrame_go h (by omega) (validatePacket_go h h26 h0 h1 hlength hsum) hus, Flow.andThen_go,
      dispatch_carries hscreened (by omega)]
    exact dispatchLoaded_endsAs hready h (by omega)

end

end Sys2Proof.Machine
end

section
/-! How a frame ends: exactly one outcome (O20), decided by the first failing check (O22), and a status as R290 takes it
(O44). -/

namespace Sys2Proof.Machine

/-- Settles O20: every operation, a handler's too, takes the frame's outcome from one stage to the next
(`processFrame_outcomeSent`). -/
theorem exactlyOneOutcome : Obligations.ExactlyOneOutcome := by
  unfold Obligations.ExactlyOneOutcome
  intro s t hclosed h
  have hsent := processFrame_outcomeSent (s := { s with enc.done := false }) ⟨hclosed, rfl⟩ h
  have ⟨hbusy, hdone, _⟩ := hsent
  exact ⟨hsent.oneOutcome, hbusy, hdone⟩

/-- Settles O22: the frame ends as R283's list says (`frame_endsAs`), before a handler runs in a state in which only
working registers have changed. -/
theorem firstFailureDecides : Obligations.FirstFailureDecides := by
  unfold Obligations.FirstFailureDecides
  intro s hfilled hready
  have hends : EndsAs (payloadOf s) { s with val.size := s.rx.len } _ (expectedEnd s.cfg s.store (payloadOf s)) :=
    frame_endsAs hready hfilled.carries
  generalize expectedEnd s.cfg s.store (payloadOf s) = fate at hends ⊢
  cases fate with
  | status k =>
    obtain ⟨u, hearly, hout⟩ := hends
    have hu : u = { s with val := u.val, disp := u.disp, ctx := u.ctx } := hearly
    refine ⟨withStatus k u, processFrame_of_out hout ?outcome, ?frame⟩
    case outcome => simp [outcomeReached, hearly.enc, hready.1]
    case frame =>
      rw [hu]
      rfl
  | nack reason =>
    obtain ⟨u, hearly, hout⟩ := hends
    have hu : u = { s with val := u.val, disp := u.disp, ctx := u.ctx } := hearly
    refine ⟨replied (nackFields s (payloadOf s) reason) u, processFrame_of_out hout rfl, ?frame, rfl, rfl⟩
    case frame =>
      rw [hu]
      rfl
  | invoke v => exact fun t ht => hends t (processFrame_eq_next ht).1

/-- Settles O44: in a ready encoder `Status(k)` is `withStatus` (`takeStatus_eq`), and its frame is the stated one. -/
theorem statusIsTaken : Obligations.StatusIsTaken := by
  unfold Obligations.StatusIsTaken
  intro s k code hready hcode
  have hcodeOf : code = statusCodeOf s.cfg k := by cases k <;> exact hcode
  have htaken : exec (.status k) s = .next (withStatus k s) := takeStatus_eq k s hready.1 hready.2
  rw [htaken, withStatus, ← hcodeOf, statusFrameBytes_eq]
  by_cases hsilent : k ∈ s.cfg.silentKinds
  · simp [onWire, hsilent]
  · simp [onWire, hsilent]

end Sys2Proof.Machine
end

section
/-! Resets: between two RX events (O6), in the middle of one (O7), and the invariant of the state the machine starts from
(O59). -/

namespace Sys2Proof.Machine

theorem step_reset {s : State} {rest : List Input} (hi : s.input = .reset :: rest) :
    step s = .next (resetBlock { s with input := rest }) :=
  step_of_fetch_done (fetch_reset hi)

/-- Of what the struck event appends to TX, the host sees the first `n` bytes, and only the reset follows (R322). -/
theorem strike_next_of_appends {n : Nat} {s u : State} {bs : List Byte} (htx : u.trace.tx = s.trace.tx ++ bs) :
    strike n s (.next u) = .next (resetBlock { u with trace.tx := s.trace.tx ++ bs.take n }) := by
  have hcut : u.trace.tx.take (s.trace.tx.length + n) = s.trace.tx ++ bs.take n := by
    rw [htx, List.take_length_add_append]
  rw [strike, andThen_next, hcut]

/-- Settles O6: the step is the reset itself (`step_reset`), whose fields are the stated values; so are those of
`State.reset`. -/
theorem resetLeaves : Obligations.ResetLeaves := by
  unfold Obligations.ResetLeaves
  refine ⟨?running, ?initial⟩
  case running =>
    intro s rest hi
    exact ⟨_, step_reset hi, rfl, rfl, rfl, rfl, rfl, rfl, fun _ => rfl, rfl, rfl, rfl, rfl, rfl, rfl⟩
  case initial => exact ⟨rfl, rfl, rfl, rfl, rfl, rfl, rfl, rfl, rfl, fun _ => rfl⟩

/-- Settles O7: a struck byte and a struck poll both strike what the event alone answers (`step_struck`,
`step_struck_idle`), which cuts TX off and resets (`strike_next_of_appends`). -/
theorem resetTruncatesReply : Obligations.ResetTruncatesReply := by
  unfold Obligations.ResetTruncatesReply
  intro s u rest n bs hevent htx
  have hstep : step s = .next (resetBlock { u with trace.tx := s.trace.tx ++ bs.take n }) := by
    obtain ⟨b, hi, hu⟩ | ⟨hi, hu⟩ := hevent
    · rw [step_struck s b n rest hi, hu, strike_next_of_appends htx]
    · rw [step_struck_idle s n rest hi, hu, strike_next_of_appends htx]
  exact ⟨_, hstep, rfl, rfl, rfl, rfl, rfl, rfl, rfl, rfl, rfl⟩

/-- Settles O59: nothing is pending, stored, being received or open right after reset, and nothing is queued. -/
theorem invAtReset : Obligations.InvAtReset := by
  unfold Obligations.InvAtReset
  exact
    { events := rfl
      bufWf := rfl
      bufFits := fun _ hc => absurd hc List.not_mem_nil
      deframes := trivial
      closed := rfl
      queue := fun _ => rfl }

end Sys2Proof.Machine
end
